-- ==== Sys2Proof/Word.lean ====
section
/-!
DEFINITION. The word types of EQ5-FIFO (R11, R13, R120).
-/

namespace Sys2Proof

/-- One byte of a payload or of the FIFO storage (R80, R120). -/
abbrev Byte := BitVec 8

/-- A command word or a result word: 32 bits, bit 0 the least significant (R11, R120). -/
abbrev Word := BitVec 32

/-- A REAL value: the 64 bits of an IEEE 754 binary64 number (R13; REAL_FMT of R9). -/
abbrev F64 := BitVec 64

/-- A boolean result word: 1 for true, 0 for false (R127). -/
def Word.ofBool (b : Bool) : Word := if b then 1 else 0

end Sys2Proof
end

