-- ==== Sys2Proof/Syntax.lean ====
section
/-!
DEFINITION. Transactions and the instruction set: one constructor of `Instr` per row of the opcode map (R126).

Operands are the integers of R123: a band is `zext(cmd[23:20])`, EQ.SETGAIN's immediate is `sext_16(cmd[15:0])`,
TIME.TICK's is `zext(cmd[15:0])`. The payload of a format P transaction is its operand (R125, R230, R331).
-/

namespace Sys2Proof

/-- The agents that present transactions (R420). -/
inductive Agent where
  | controlHost
  | audioHost
  | producerPort
  | timeBase
deriving DecidableEq, Repr

/-- A transaction as an issuer presents it: a command word and an input payload (R120). The block does not check the
issuer (R420); it is kept so that this can be stated. -/
structure Transaction where
  issuer : Agent
  cmd : Word
  pin : List Byte
deriving DecidableEq, Repr

/-- The five formats of R122. -/
inductive Format where
  /-- N: no operand, empty payload. -/
  | n
  /-- B: band. -/
  | b
  /-- BI: band and signed immediate. -/
  | bi
  /-- I: unsigned immediate. -/
  | i
  /-- P: payload of any length. -/
  | p
deriving DecidableEq, Repr

/-- The instructions of R126, in the table's order. -/
inductive Instr where
  /-- NOP (R160). -/
  | nop
  /-- GETSTATUS (R161). -/
  | getStatus
  /-- CLRERR (R162). -/
  | clrErr
  /-- EQ.INIT (R180). -/
  | eqInit
  /-- EQ.DETACH (R183). -/
  | eqDetach
  /-- EQ.SETGAIN (R185). -/
  | eqSetGain (band : Nat) (imm : Int)
  /-- EQ.STEPUP (R188). -/
  | eqStepUp (band : Nat)
  /-- EQ.STEPDN (R190). -/
  | eqStepDn (band : Nat)
  /-- EQ.FLAT (R192). -/
  | eqFlat
  /-- EQ.GETGAIN (R194). -/
  | eqGetGain (band : Nat)
  /-- EQ.NBANDS (R196). -/
  | eqNBands
  /-- EQ.GETFREQ (R198). -/
  | eqGetFreq (band : Nat)
  /-- EQ.GETTYPE (R200). -/
  | eqGetType (band : Nat)
  /-- EQ.ACTIVE (R202). -/
  | eqActive
  /-- EQ.PROCESS (R230). -/
  | eqProcess (pin : List Byte)
  /-- FIFO.START (R300). -/
  | fifoStart
  /-- FIFO.STOP (R303). -/
  | fifoStop
  /-- FIFO.RESET (R306). -/
  | fifoReset
  /-- FIFO.EXTRACT (R360). -/
  | fifoExtract
  /-- FIFO.READY (R365). -/
  | fifoReady
  /-- FIFO.EOF (R367). -/
  | fifoEof
  /-- FIFO.RECV (R369). -/
  | fifoRecv
  /-- FIFO.AVAIL (R371). -/
  | fifoAvail
  /-- FIFO.TOTALLO (R373). -/
  | fifoTotalLo
  /-- FIFO.TOTALHI (R375). -/
  | fifoTotalHi
  /-- FIFO.STATE (R377). -/
  | fifoState
  /-- FIFO.CAP (R379). -/
  | fifoCap
  /-- SRC.READ (R331). -/
  | srcRead (pin : List Byte)
  /-- SRC.ERROR (R333). -/
  | srcError
  /-- SRC.OPENFAIL (R335). -/
  | srcOpenFail
  /-- SRC.WOULDBLOCK (R337). -/
  | srcWouldBlock
  /-- TIME.TICK (R338). -/
  | timeTick (imm : Nat)
deriving DecidableEq, Repr

end Sys2Proof
end

