-- ==== Sys2Proof/WellFormed.lean ====
section
/-!
DEFINITION. Which instructions a command word can carry: the operand ranges of R123.
-/

namespace Sys2Proof

/-- A band operand is a 4-bit field: 0 .. 15 (R123). Values 5 .. 15 are legal and out of range (R124). -/
def bandFits (band : Nat) : Bool := decide (band < 16)

/-- EQ.SETGAIN's immediate is a 16-bit two's complement field: -32768 .. 32767 (R123). -/
def gainImmFits (imm : Int) : Bool := decide (-32768 ≤ imm) && decide (imm ≤ 32767)

/-- TIME.TICK's immediate is a 16-bit unsigned field: 0 .. 65535 (R123). -/
def tickImmFits (imm : Nat) : Bool := decide (imm < 65536)

/-- Every operand is a value its field can hold (R123). -/
def Instr.wellFormed : Instr → Bool
  | .eqSetGain band imm => bandFits band && gainImmFits imm
  | .eqStepUp band => bandFits band
  | .eqStepDn band => bandFits band
  | .eqGetGain band => bandFits band
  | .eqGetFreq band => bandFits band
  | .eqGetType band => bandFits band
  | .timeTick imm => tickImmFits imm
  | .nop => true
  | .getStatus => true
  | .clrErr => true
  | .eqInit => true
  | .eqDetach => true
  | .eqFlat => true
  | .eqNBands => true
  | .eqActive => true
  | .eqProcess _ => true
  | .fifoStart => true
  | .fifoStop => true
  | .fifoReset => true
  | .fifoExtract => true
  | .fifoReady => true
  | .fifoEof => true
  | .fifoRecv => true
  | .fifoAvail => true
  | .fifoTotalLo => true
  | .fifoTotalHi => true
  | .fifoState => true
  | .fifoCap => true
  | .srcRead _ => true
  | .srcError => true
  | .srcOpenFail => true
  | .srcWouldBlock => true

end Sys2Proof
end

