-- ==== Sys2Proof/Decode.lean ====
section
/-!
DEFINITION. The transaction encoding of 30_encoding.md: the fields of the command word, the opcode map, the decoder
with the checks of R130 in their order, and the encoder.
-/

namespace Sys2Proof

/-! ### Fields of the command word (R121) -/

/-- OP, bits 31:24. -/
def cmdOp (w : Word) : BitVec 8 := w.extractLsb' 24 8
/-- BAND, bits 23:20. -/
def cmdBand (w : Word) : BitVec 4 := w.extractLsb' 20 4
/-- RSV, bits 19:16. -/
def cmdRsv (w : Word) : BitVec 4 := w.extractLsb' 16 4
/-- IMM, bits 15:0. -/
def cmdImm (w : Word) : BitVec 16 := w.extractLsb' 0 16

/-! ### Formats and the opcode map (R122, R126) -/

/-- The operands a command word and its payload give, assembled as R123 says. A format uses those it has. -/
structure Operands where
  band : Nat
  simm : Int
  uimm : Nat
  pin : List Byte

/-- Operand assembly (R123). -/
def operandsOf (t : Transaction) : Operands :=
  { band := (cmdBand t.cmd).toNat, simm := (cmdImm t.cmd).toInt, uimm := (cmdImm t.cmd).toNat, pin := t.pin }

/-- The mask of a format (R122): the bits a command word of that format has fixed. -/
def formatMask : Format → Word
  | .n => 0xFFFFFFFF
  | .b => 0xFF0FFFFF
  | .bi => 0xFF0F0000
  | .i => 0xFFFF0000
  | .p => 0xFFFFFFFF

/-- Whether the fields that the format marks "0" (BAND and IMM; RSV is checked apart) are zero (R122, R130 (c)). -/
def zeroFieldsOk (f : Format) (w : Word) : Bool :=
  match f with
  | .n => cmdBand w == 0 && cmdImm w == 0
  | .b => cmdImm w == 0
  | .bi => true
  | .i => cmdBand w == 0
  | .p => cmdBand w == 0 && cmdImm w == 0

/-- Whether the format takes this payload: format P any, every other the empty one (R122, R125, R130 (d)). -/
def payloadOk (f : Format) (pin : List Byte) : Bool := f == .p || pin.isEmpty

/-- A row of the opcode map (R126). -/
structure OpRow where
  op : BitVec 8
  mnemonic : String
  format : Format
  build : Operands → Instr

/-- The match column of R126: OP in bits 31:24, every other bit 0. -/
def rowMatch (r : OpRow) : Word := r.op ++ (0 : BitVec 24)

/-- The general group, 0x00 .. 0x0F (R126). -/
def generalRows : List OpRow :=
  [ ⟨0x00, "NOP", .n, fun _ => .nop⟩,
    ⟨0x01, "GETSTATUS", .n, fun _ => .getStatus⟩,
    ⟨0x02, "CLRERR", .n, fun _ => .clrErr⟩ ]

/-- The equalizer group, 0x10 .. 0x1F (R126). -/
def equalizerRows : List OpRow :=
  [ ⟨0x10, "EQ.INIT", .n, fun _ => .eqInit⟩,
    ⟨0x11, "EQ.DETACH", .n, fun _ => .eqDetach⟩,
    ⟨0x12, "EQ.SETGAIN", .bi, fun o => .eqSetGain o.band o.simm⟩,
    ⟨0x13, "EQ.STEPUP", .b, fun o => .eqStepUp o.band⟩,
    ⟨0x14, "EQ.STEPDN", .b, fun o => .eqStepDn o.band⟩,
    ⟨0x15, "EQ.FLAT", .n, fun _ => .eqFlat⟩,
    ⟨0x16, "EQ.GETGAIN", .b, fun o => .eqGetGain o.band⟩,
    ⟨0x17, "EQ.NBANDS", .n, fun _ => .eqNBands⟩,
    ⟨0x18, "EQ.GETFREQ", .b, fun o => .eqGetFreq o.band⟩,
    ⟨0x19, "EQ.GETTYPE", .b, fun o => .eqGetType o.band⟩,
    ⟨0x1A, "EQ.ACTIVE", .n, fun _ => .eqActive⟩,
    ⟨0x1F, "EQ.PROCESS", .p, fun o => .eqProcess o.pin⟩ ]

/-- The FIFO consumer and session group, 0x20 .. 0x2F (R126). -/
def fifoRows : List OpRow :=
  [ ⟨0x20, "FIFO.START", .n, fun _ => .fifoStart⟩,
    ⟨0x21, "FIFO.STOP", .n, fun _ => .fifoStop⟩,
    ⟨0x22, "FIFO.RESET", .n, fun _ => .fifoReset⟩,
    ⟨0x23, "FIFO.EXTRACT", .n, fun _ => .fifoExtract⟩,
    ⟨0x24, "FIFO.READY", .n, fun _ => .fifoReady⟩,
    ⟨0x25, "FIFO.EOF", .n, fun _ => .fifoEof⟩,
    ⟨0x26, "FIFO.RECV", .n, fun _ => .fifoRecv⟩,
    ⟨0x27, "FIFO.AVAIL", .n, fun _ => .fifoAvail⟩,
    ⟨0x28, "FIFO.TOTALLO", .n, fun _ => .fifoTotalLo⟩,
    ⟨0x29, "FIFO.TOTALHI", .n, fun _ => .fifoTotalHi⟩,
    ⟨0x2A, "FIFO.STATE", .n, fun _ => .fifoState⟩,
    ⟨0x2B, "FIFO.CAP", .n, fun _ => .fifoCap⟩ ]

/-- The producer port and time base group, 0x30 .. 0x3F (R126). -/
def producerRows : List OpRow :=
  [ ⟨0x30, "SRC.READ", .p, fun o => .srcRead o.pin⟩,
    ⟨0x31, "SRC.ERROR", .n, fun _ => .srcError⟩,
    ⟨0x32, "SRC.OPENFAIL", .n, fun _ => .srcOpenFail⟩,
    ⟨0x33, "SRC.WOULDBLOCK", .n, fun _ => .srcWouldBlock⟩,
    ⟨0x38, "TIME.TICK", .i, fun o => .timeTick o.uimm⟩ ]

/-- The complete opcode map (R126). -/
def opcodeMap : List OpRow := generalRows ++ equalizerRows ++ fifoRows ++ producerRows

/-- The row of an opcode, if it is assigned (R126, R131). -/
def opcodeRow (op : BitVec 8) : Option OpRow := opcodeMap.find? (fun r => r.op == op)

/-! ### Decoding (R130) -/

/-- Why a transaction is illegal: the checks (a) to (d) of R130, the first that holds. -/
inductive Illegal where
  /-- (a) OP is not in the opcode map. -/
  | reservedOpcode
  /-- (b) RSV is not 0. -/
  | rsvNotZero
  /-- (c) a field that the format marks "0" is not 0. -/
  | fieldNotZero
  /-- (d) a payload on a format other than P. -/
  | payloadNotAllowed
deriving DecidableEq, Repr

/-- The decoder: total, with the checks of R130 in their order. -/
def decode (t : Transaction) : Except Illegal Instr :=
  match opcodeRow (cmdOp t.cmd) with
  | none => .error .reservedOpcode
  | some r =>
    if cmdRsv t.cmd ≠ 0 then .error .rsvNotZero
    else if ¬ zeroFieldsOk r.format t.cmd then .error .fieldNotZero
    else if ¬ payloadOk r.format t.pin then .error .payloadNotAllowed
    else .ok (r.build (operandsOf t))

/-- The decoder of R126: a row matches when `(cmd & mask) == match`, and its format takes the payload. -/
def rowMatches (r : OpRow) (t : Transaction) : Bool :=
  (t.cmd &&& formatMask r.format) == rowMatch r && payloadOk r.format t.pin

/-! ### Encoding -/

/-- A command word from its fields, RSV = 0 (R121). -/
def encodeWord (op : BitVec 8) (band : BitVec 4) (imm : BitVec 16) : Word := op ++ band ++ (0 : BitVec 4) ++ imm

/-- The saturation an issuer applies to a gain that is wider than the immediate field (R123). -/
def saturateImm (v : Int) : Int := if v < -32768 then -32768 else if 32767 < v then 32767 else v

/-- The command word of an instruction (R121, R122, R126). A gain outside the 16-bit range is saturated as R123 says;
an ill-formed band or tick count is cut to its field (log entry 12). -/
def encodeCmd : Instr → Word
  | .nop => encodeWord 0x00 0 0
  | .getStatus => encodeWord 0x01 0 0
  | .clrErr => encodeWord 0x02 0 0
  | .eqInit => encodeWord 0x10 0 0
  | .eqDetach => encodeWord 0x11 0 0
  | .eqSetGain band imm => encodeWord 0x12 (BitVec.ofNat 4 band) (BitVec.ofInt 16 (saturateImm imm))
  | .eqStepUp band => encodeWord 0x13 (BitVec.ofNat 4 band) 0
  | .eqStepDn band => encodeWord 0x14 (BitVec.ofNat 4 band) 0
  | .eqFlat => encodeWord 0x15 0 0
  | .eqGetGain band => encodeWord 0x16 (BitVec.ofNat 4 band) 0
  | .eqNBands => encodeWord 0x17 0 0
  | .eqGetFreq band => encodeWord 0x18 (BitVec.ofNat 4 band) 0
  | .eqGetType band => encodeWord 0x19 (BitVec.ofNat 4 band) 0
  | .eqActive => encodeWord 0x1A 0 0
  | .eqProcess _ => encodeWord 0x1F 0 0
  | .fifoStart => encodeWord 0x20 0 0
  | .fifoStop => encodeWord 0x21 0 0
  | .fifoReset => encodeWord 0x22 0 0
  | .fifoExtract => encodeWord 0x23 0 0
  | .fifoReady => encodeWord 0x24 0 0
  | .fifoEof => encodeWord 0x25 0 0
  | .fifoRecv => encodeWord 0x26 0 0
  | .fifoAvail => encodeWord 0x27 0 0
  | .fifoTotalLo => encodeWord 0x28 0 0
  | .fifoTotalHi => encodeWord 0x29 0 0
  | .fifoState => encodeWord 0x2A 0 0
  | .fifoCap => encodeWord 0x2B 0 0
  | .srcRead _ => encodeWord 0x30 0 0
  | .srcError => encodeWord 0x31 0 0
  | .srcOpenFail => encodeWord 0x32 0 0
  | .srcWouldBlock => encodeWord 0x33 0 0
  | .timeTick imm => encodeWord 0x38 0 (BitVec.ofNat 16 imm)

/-- The input payload of an instruction: only EQ.PROCESS and SRC.READ have one (R125). -/
def encodePayload : Instr → List Byte
  | .eqProcess pin => pin
  | .srcRead pin => pin
  | .nop | .getStatus | .clrErr => []
  | .eqInit | .eqDetach | .eqSetGain _ _ | .eqStepUp _ | .eqStepDn _ | .eqFlat | .eqGetGain _ | .eqNBands => []
  | .eqGetFreq _ | .eqGetType _ | .eqActive => []
  | .fifoStart | .fifoStop | .fifoReset | .fifoExtract | .fifoReady | .fifoEof | .fifoRecv | .fifoAvail => []
  | .fifoTotalLo | .fifoTotalHi | .fifoState | .fifoCap => []
  | .srcError | .srcOpenFail | .srcWouldBlock | .timeTick _ => []

/-- The usual issuer of an opcode (R128, informative): the audio host for EQ.PROCESS (0x1F), the producer port for
0x30 .. 0x33, the time base for TIME.TICK (0x38), the control host for the rest. -/
def usualIssuer (i : Instr) : Agent :=
  let op := (cmdOp (encodeCmd i)).toNat
  if op = 0x1F then .audioHost
  else if op = 0x38 then .timeBase
  else if 0x30 ≤ op then .producerPort
  else .controlHost

/-- The transaction of an instruction, from its usual issuer. -/
def encode (i : Instr) : Transaction :=
  { issuer := usualIssuer i, cmd := encodeCmd i, pin := encodePayload i }

/-! ### Transactions over a byte channel (R85), and the words of spec/opcode_table.json -/

/-- A 32-bit word from its four bytes, the first the least significant (R85). -/
def wordOfBytes (b0 b1 b2 b3 : Byte) : Word := b3 ++ b2 ++ b1 ++ b0

/-- The four bytes of a 32-bit word, least significant first (R85). -/
def bytesOfWord (w : Word) : List Byte :=
  [w.extractLsb' 0 8, w.extractLsb' 8 8, w.extractLsb' 16 8, w.extractLsb' 24 8]

/-- A transaction carried over a byte channel: the command word's four bytes and then the payload (R85). -/
def transactionOfBytes (issuer : Agent) : List Byte → Option Transaction
  | b0 :: b1 :: b2 :: b3 :: pin => some { issuer, cmd := wordOfBytes b0 b1 b2 b3, pin }
  | _ => none

/-- The bytes of a table word: `w`'s low `nbits` bits, byte by byte from the least significant, and at least the four
bytes of a command word (bits above `nbits` are 0). -/
def tableBytes (nbits w : Nat) : List Byte :=
  (List.range (max 4 ((nbits + 7) / 8))).map fun j => BitVec.ofNat 8 ((w % 2 ^ nbits) >>> (8 * j))

/-- The transaction of a table word, presented by the control host. A row has 32 bits, so its payload is empty. -/
def transactionOfTable (nbits w : Nat) : Transaction :=
  (transactionOfBytes .controlHost (tableBytes nbits w)).getD { issuer := .controlHost, cmd := 0, pin := [] }

/-- The instruction the decoder reads from a table word; none where it rejects it. -/
def decodeTableWord (nbits w : Nat) : Option Instr :=
  match decode (transactionOfTable nbits w) with
  | .ok i => some i
  | .error _ => none

end Sys2Proof
end

