-- ==== Sys2Proof/Config.lean ====
section
/-!
DEFINITION. The implementation parameters of R9 and R10, and the one uninterpreted constant, TANH.

The numbers the source fixes are definitions here. The parameters that the spec leaves open with a default
(FIFO_CAPACITY, MAX_CHUNK_BYTES, PREBUFFER_BYTES, TICKS_PER_SECOND, SHELF_Q, COEF_ROM) are the fields of `Params`, which
every state carries and no transaction writes (log entries 1 and 3). Their defaults stand in Machine/Rom.lean.
-/

namespace Sys2Proof.Machine

/-- The five bands (R38). -/
inductive Band where
  | b0
  | b1
  | b2
  | b3
  | b4
deriving DecidableEq, Repr

/-- One value for each band. -/
structure PerBand (α : Type) where
  b0 : α
  b1 : α
  b2 : α
  b3 : α
  b4 : α
deriving DecidableEq, Repr

/-- A band's normalised coefficients; A0 is the constant 1 and is not stored (R34). -/
structure Coef where
  b0 : F64
  b1 : F64
  b2 : F64
  a1 : F64
  a2 : F64
deriving DecidableEq, Repr

end Sys2Proof.Machine

namespace Sys2Proof

/-- NUM_BANDS (R9). -/
def Config.numBands : Nat := 5
/-- SAMPLE_RATE in Hz (R9). -/
def Config.sampleRate : Nat := 44100
/-- CHANNELS (R9). -/
def Config.channels : Nat := 2
/-- SAMPLE_BITS (R9). -/
def Config.sampleBits : Nat := 16
/-- FRAME_BYTES (R9). -/
def Config.frameBytes : Nat := 4
/-- BYTE_RATE in bytes per second (R9). -/
def Config.byteRate : Nat := 176400
/-- GAIN_MIN in dB (R9). -/
def Config.gainMin : Int := -12
/-- GAIN_MAX in dB (R9). -/
def Config.gainMax : Int := 12
/-- GAIN_STEP in dB (R9). -/
def Config.gainStep : Int := 2
/-- CLIP_THRESHOLD (R9). -/
def Config.clipThreshold : Int := 31000
/-- CLIP_CEILING (R9). -/
def Config.clipCeiling : Int := 32767
/-- PEAK_Q = 1.0 (R9, R38). -/
def Config.peakQ : F64 := 0x3FF0000000000000
/-- RX_WINDOW_SECONDS (R9). -/
def Config.rxWindowSeconds : Nat := 3
/-- WAV_HEADER_BYTES (R9). -/
def Config.wavHeaderBytes : Nat := 44
/-- READ_CHUNK_BYTES (R9): informative only, read by no rule (R332, I12). -/
def Config.readChunkBytes : Nat := 4096

/-- The parameters the document leaves open, fixed for the life of an instance (R9, R10, R446). -/
structure Params where
  /-- FIFO_CAPACITY in bytes (R9, D26). -/
  fifoCapacity : Nat
  /-- MAX_CHUNK_BYTES (R9, D27). -/
  maxChunkBytes : Nat
  /-- PREBUFFER_BYTES (R9, D28). -/
  prebufferBytes : Nat
  /-- TICKS_PER_SECOND (R9, D37). -/
  ticksPerSecond : Nat
  /-- SHELF_Q, the Q of the shelving bands (R9, R38, D9, I5). It acts through COEF_ROM only. -/
  shelfQ : F64
  /-- COEF_ROM: for each band the rows of gains -12 .. +12, in order (R281, R446, D10, I6). -/
  coefRom : Machine.PerBand (List Machine.Coef)
deriving DecidableEq, Repr

/-- RX_WINDOW_TICKS = RX_WINDOW_SECONDS × TICKS_PER_SECOND (R9). -/
def Params.rxWindowTicks (p : Params) : Nat := Config.rxWindowSeconds * p.ticksPerSecond

/-- A COEF_ROM has one row for each band and each gain in -12 .. +12 (R281). R240 admits rows that are not stable. -/
abbrev Params.RomValid (p : Params) : Prop :=
  p.coefRom.b0.length = 25 ∧ p.coefRom.b1.length = 25 ∧ p.coefRom.b2.length = 25 ∧ p.coefRom.b3.length = 25 ∧
    p.coefRom.b4.length = 25

/-- The constraints of R9, R10, R281 and R446 on the parameters. `0 < prebufferBytes` is what R53 rests on. -/
abbrev Params.Valid (p : Params) : Prop :=
  p.prebufferBytes ≤ p.fifoCapacity ∧ p.fifoCapacity < 2 ^ 32 ∧ Config.frameBytes ≤ p.maxChunkBytes ∧
    1 ≤ p.ticksPerSecond ∧ 0 < p.prebufferBytes ∧ p.RomValid

/-- TANH on arguments u ≥ 0, as a free monotone map (R236, D12, log entry 2): the bit patterns of the binary64
numbers from +0.0 to +inf are the naturals from 0 to 0x7FF0000000000000 in the same order, so a non-decreasing
function of them is a monotone map of that segment. It has no body: a claim holds whichever curve it is. The other
two requirements of R236 are met by `F64.tanh` (Machine/Real.lean), which is the only reader. -/
opaque Config.tanhCurve : Fin 0x7FF0000000000001 →o Fin 0x7FF0000000000001

end Sys2Proof
end

