-- ==== Sys2Proof/Machine/Real.lean ====
section
/-!
DEFINITION. REAL arithmetic: IEEE 754 binary64, round to nearest, ties to even, one rounding an operation (R13, D8).

Every finite binary64 magnitude is a natural number of UNITS of 2^-1074. An operation computes its exact result as a
quotient of naturals in units and rounds once (`F64.roundUnits`). The encoding of the rounded magnitude is
`shift * 2^52 + significand`, which covers subnormals (shift 0), normals and the carry into the next binade alike.
-/

namespace Sys2Proof

/-! ### Encodings -/

/-- The sign bit. -/
def F64.sign (x : F64) : Bool := x.msb

/-- The bits of the magnitude: exponent field and fraction. Magnitudes compare as these numbers do. -/
def F64.magBits (x : F64) : Nat := x.toNat % 0x8000000000000000

/-- The magnitude bits of infinity. -/
def F64.infBits : Nat := 0x7FF0000000000000

/-- Whether the value is NaN. -/
def F64.isNaN (x : F64) : Bool := decide (F64.infBits < F64.magBits x)

/-- Whether the value is +inf or -inf. -/
def F64.isInf (x : F64) : Bool := decide (F64.magBits x = F64.infBits)

/-- Whether the value is finite: neither infinite nor NaN. -/
def F64.isFinite (x : F64) : Bool := decide (F64.magBits x < F64.infBits)

/-- Whether the value is +0.0 or -0.0. -/
def F64.isZero (x : F64) : Bool := decide (F64.magBits x = 0)

/-- A value from its sign and its magnitude bits. -/
def F64.pack (neg : Bool) (mag : Nat) : F64 := BitVec.ofNat 64 ((if neg then 0x8000000000000000 else 0) + mag)

/-- The NaN that an invalid operation gives. The spec gives NaN no bit pattern and none is ever stored or returned
(R240, log entry 8). -/
def F64.nan : F64 := 0x7FF8000000000000

/-- +0.0. -/
def F64.zero : F64 := 0

/-- Negation: the sign bit flipped. -/
def F64.neg (x : F64) : F64 := F64.pack (!F64.sign x) (F64.magBits x)

/-- A value from the C99 notation of R290: sign, the 13 hexadecimal fraction digits after `1.`, the binary exponent. -/
def F64.hex (neg : Bool) (frac : Nat) (exp : Int) : F64 := F64.pack neg ((exp + 1023).toNat * 2 ^ 52 + frac)

/-! ### Exact values and rounding -/

/-- The magnitude of a finite value with these magnitude bits, in units of 2^-1074. -/
def F64.unitsOf (mag : Nat) : Nat :=
  if mag < 2 ^ 52 then mag else (mag % 2 ^ 52 + 2 ^ 52) <<< (mag / 2 ^ 52 - 1)

/-- A finite value in units of 2^-1074, signed. -/
def F64.num (x : F64) : Int :=
  if F64.sign x then -(F64.unitsOf (F64.magBits x) : Int) else (F64.unitsOf (F64.magBits x) : Int)

/-- The quotient n / d rounded to the nearest integer, ties to even. -/
def roundHalfEven (n d : Nat) : Nat :=
  let q := n / d
  let r := n % d
  if d < 2 * r then q + 1 else if d = 2 * r then q + q % 2 else q

/-- The binade shift of a magnitude of `q` whole units: its significand has 53 bits after dropping `shift` bits. -/
def F64.shiftOf (q : Nat) : Nat := q.log2 - 52

/-- The magnitude bits nearest to n / d units, ties to even; infinity from the overflow threshold on. -/
def F64.roundUnits (n d : Nat) : Nat :=
  let shift := F64.shiftOf (n / d)
  min (shift * 2 ^ 52 + roundHalfEven n (d <<< shift)) F64.infBits

/-- How many units 1.0 has: 2^1074. -/
def F64.unitsPerOne : Nat := 1 <<< 1074

/-! ### Operations (R13) -/

/-- `x + y`. An exact zero sum is +0.0 unless both operands have the sign bit. -/
def F64.add (x y : F64) : F64 :=
  if F64.isNaN x || F64.isNaN y then F64.nan
  else if F64.isInf x then (if F64.isInf y && (F64.sign x != F64.sign y) then F64.nan else x)
  else if F64.isInf y then y
  else
    let z := F64.num x + F64.num y
    if z = 0 then F64.pack (F64.sign x && F64.sign y) 0
    else F64.pack (decide (z < 0)) (F64.roundUnits z.natAbs 1)

/-- `x - y`. -/
def F64.sub (x y : F64) : F64 := F64.add x (F64.neg y)

/-- `x * y`. -/
def F64.mul (x y : F64) : F64 :=
  let neg := F64.sign x != F64.sign y
  if F64.isNaN x || F64.isNaN y then F64.nan
  else if F64.isInf x || F64.isInf y then
    (if F64.isZero x || F64.isZero y then F64.nan else F64.pack neg F64.infBits)
  else F64.pack neg
    (F64.roundUnits (F64.unitsOf (F64.magBits x) * F64.unitsOf (F64.magBits y)) F64.unitsPerOne)

/-- `x / y`. -/
def F64.div (x y : F64) : F64 :=
  let neg := F64.sign x != F64.sign y
  if F64.isNaN x || F64.isNaN y then F64.nan
  else if F64.isInf x then (if F64.isInf y then F64.nan else F64.pack neg F64.infBits)
  else if F64.isInf y then F64.pack neg 0
  else if F64.isZero y then (if F64.isZero x then F64.nan else F64.pack neg F64.infBits)
  else F64.pack neg
    (F64.roundUnits (F64.unitsOf (F64.magBits x) * F64.unitsPerOne) (F64.unitsOf (F64.magBits y)))

/-- `real(n)` (R13): exact for |n| < 2^53. -/
def F64.ofInt (n : Int) : F64 := F64.pack (decide (n < 0)) (F64.roundUnits (n.natAbs * F64.unitsPerOne) 1)

/-- The order of the numbers: the magnitude bits with their sign; +0.0 and -0.0 have the same key. -/
def F64.key (x : F64) : Int := if F64.sign x then -(F64.magBits x : Int) else (F64.magBits x : Int)

/-- `x < y`; false when either is NaN. -/
def F64.lt (x y : F64) : Bool := !F64.isNaN x && !F64.isNaN y && decide (F64.key x < F64.key y)

/-- `x <= y`; false when either is NaN. -/
def F64.le (x y : F64) : Bool := !F64.isNaN x && !F64.isNaN y && decide (F64.key x ≤ F64.key y)

/-- The integer nearest to `x` toward zero (R237, D13). Not applied to infinity or NaN (log entry 19). -/
def F64.truncInt (x : F64) : Int :=
  let m := F64.unitsOf (F64.magBits x) / F64.unitsPerOne
  if F64.sign x then -(m : Int) else (m : Int)

/-- The magnitude bits of 1.0. -/
def F64.oneBits : Nat := 0x3FF0000000000000

/-- The magnitude bits of TANH(u) for a u ≥ 0 with magnitude bits `mag`: the free monotone curve of Config, at most
1.0, and exactly 1.0 at +inf (R236). -/
def F64.tanhBits (mag : Nat) : Nat :=
  if h : mag < F64.infBits then
    min (Config.tanhCurve ⟨mag, Nat.lt_succ_of_lt h⟩).val F64.oneBits
  else F64.oneBits

/-- `TANH(u)` (R236, D12), applied by the block to u ≥ 0 only (log entry 2). -/
def F64.tanh (u : F64) : F64 := F64.pack false (F64.tanhBits (F64.magBits u))

end Sys2Proof
end

