-- ==== Sys2Proof/Machine/Rom.lean ====
section
/-!
DEFINITION. The block's tables: the default content of COEF_ROM (R290), the default parameters, and the band table (R38).

A value of R290 is written `F64.hex neg frac exp` for the table's `[-]0x1.<frac>p<exp>`, digit for digit.
-/

namespace Sys2Proof.Machine

open Sys2Proof

/-- The default COEF_ROM[0], low shelf, 60 Hz: the rows of R290 for gains -12 .. +12, in order. -/
def romBand0 : List Coef :=
  [
    -- gain -12
    ⟨F64.hex false 0xfe48c87d58b0d (-1), F64.hex true 0xfc90a97a5b6c4 0, F64.hex false 0xfadd4f3318b1c (-1), F64.hex true 0xfc8d1bb45ec55 0, F64.hex false 0xf92d333c6ab07 (-1)⟩,
    -- gain -11
    ⟨F64.hex false 0xfe6e9ad9318f8 (-1), F64.hex true 0xfca979463f006 0, F64.hex false 0xfae965038a279 (-1), F64.hex true 0xfca64163f4393 0, F64.hex false 0xf95e6fa15145a (-1)⟩,
    -- gain -10
    ⟨F64.hex false 0xfe941a38e5c9a (-1), F64.hex true 0xfcc193bc5db73 0, F64.hex false 0xfaf4677367a82 (-1), F64.hex true 0xfcbeaf0bfbc4c 0, F64.hex false 0xf98e4b0d11569 (-1)⟩,
    -- gain -9
    ⟨F64.hex false 0xfeb94e923b383 (-1), F64.hex true 0xfcd8fde2b444c 0, F64.hex false 0xfafe58da4b2ea (-1), F64.hex true 0xfcd669f86bcef 0, F64.hex false 0xf9bccf4117527 (-1)⟩,
    -- gain -8
    ⟨F64.hex false 0xfede3fcc632e4 (-1), F64.hex true 0xfcefbc99bb1a1 0, F64.hex false 0xfb073b573b2ae (-1), F64.hex true 0xfced774db6c32 0, F64.hex false 0xf9ea05bba7071 (-1)⟩,
    -- gain -7
    ⟨F64.hex false 0xff02f5c1a981a (-1), F64.hex true 0xfd05d49d5b0e7 0, F64.hex false 0xfb0f10d11f9ca (-1), F64.hex true 0xfd03dc09f845a 0, F64.hex false 0xfa15f7b98eb03 (-1)⟩,
    -- gain -6
    ⟨F64.hex false 0xff277841220b3 (-1), F64.hex true 0xfd1b4a85da2d3 0, F64.hex false 0xfb15daf72c7c8 (-1), F64.hex true 0xfd199d061920c 0, F64.hex false 0xfa40ae37d0a0a (-1)⟩,
    -- gain -5
    ⟨F64.hex false 0xff4bcf1054f90 (-1), F64.hex true 0xfd3022c8c0c3b 0, F64.hex false 0xfb1b9b4141852 (-1), F64.hex true 0xfd2ebef6ea370 0, F64.hex false 0xfa6a31f543975 (-1)⟩,
    -- gain -4
    ⟨F64.hex false 0xff7001ecea51d (-1), F64.hex true 0xfd4461b9b6d2b 0, F64.hex false 0xfb2052f03f79b (-1), F64.hex true 0xfd43466e36c5b 0, F64.hex false 0xfa928b7429e59 (-1)⟩,
    -- gain -3
    ⟨F64.hex false 0xff94188e5507c (-1), F64.hex true 0xfd580b8b59fb8 0, F64.hex false 0xfb24030e52fc2 (-1), F64.hex true 0xfd5737dbce3e5 0, F64.hex false 0xfab9c2fbbf7e0 (-1)⟩,
    -- gain -2
    ⟨F64.hex false 0xffb81aa77df60 (-1), F64.hex true 0xfd6b24500c041 0, F64.hex false 0xfb26ac6f35059 (-1), F64.hex true 0xfd6a978e85fb1 0, F64.hex false 0xfadfe099bf0dc (-1)⟩,
    -- gain -1
    ⟨F64.hex false 0xffdc0fe86f305 (-1), F64.hex true 0xfd7daffaba0dc 0, F64.hex false 0xfb284fb0611b5 (-1), F64.hex true 0xfd7d69b53313c 0, F64.hex false 0xfb04ec23de3fe (-1)⟩,
    -- gain +0
    ⟨F64.hex false 0x0000000000000 0, F64.hex true 0xfd8fb25f9c909 0, F64.hex false 0xfb28ed39414ad (-1), F64.hex true 0xfd8fb25f9c909 0, F64.hex false 0xfb28ed39414ad (-1)⟩,
    -- gain +1
    ⟨F64.hex false 0x0011f94ec0fab 0, F64.hex true 0xfda12f34f034b 0, F64.hex false 0xfb28853b50049 (-1), F64.hex true 0xfda1757f663bf 0, F64.hex false 0xfb4beb43e5eba (-1)⟩,
    -- gain +2
    ⟨F64.hex false 0x0023f7b937b84 0, F64.hex true 0xfdb22a13a79a0 0, F64.hex false 0xfb2717b22fe39 (-1), F64.hex true 0xfdb2b6e8f44cf 0, F64.hex false 0xfb6ded7a05ee3 (-1)⟩,
    -- gain +3
    ⟨F64.hex false 0x0035ff1a0e033 0, F64.hex true 0xfdc2a6781620b 0, F64.hex false 0xfb24a463b96f9 (-1), F64.hex true 0xfdc37a5448271 0, F64.hex false 0xfb8efadf71690 (-1)⟩,
    -- gain +4
    ⟨F64.hex false 0x0048134eb3961 0, F64.hex true 0xfdd2a7c293bf4 0, F64.hex false 0xfb212adffeeee (-1), F64.hex true 0xfdd3c35dd665f 0, F64.hex false 0xfbaf1a46e0cd9 (-1)⟩,
    -- gain +5
    ⟨F64.hex false 0x005a383838c83 0, F64.hex true 0xfde2313819f57 0, F64.hex false 0xfb1caa81464cc (-1), F64.hex true 0xfde39587566ba 0, F64.hex false 0xfbce52533ef0f (-1)⟩,
    -- gain +6
    ⟨F64.hex false 0x006c71bc2ac6c 0, F64.hex true 0xfdf14602d9e3d 0, F64.hex false 0xfb17226bf92ad (-1), F64.hex true 0xfdf2f4388ba6d 0, F64.hex false 0xfbeca978eb328 (-1)⟩,
    -- gain +7
    ⟨F64.hex false 0x007ec3c57191b 0, F64.hex true 0xfdffe932cb924 0, F64.hex false 0xfb10918e8b223 (-1), F64.hex true 0xfe01e2c008c33 0, F64.hex false 0xfc0a25fef3e3c (-1)⟩,
    -- gain +8
    ⟨F64.hex false 0x009132452ff35 0, F64.hex true 0xfe0e1dbe36695 0, F64.hex false 0xfb08f6a156459 (-1), F64.hex true 0xfe106453ecf4a 0, F64.hex false 0xfc26ce0049159 (-1)⟩,
    -- gain +9
    ⟨F64.hex false 0x00a3c133a5ac5 0, F64.hex true 0xfe1be68232e3b 0, F64.hex false 0xfb0050266decf (-1), F64.hex true 0xfe1e7c129b8e7 0, F64.hex false 0xfc42a76ce7f01 (-1)⟩,
    -- gain +10
    ⟨F64.hex false 0x00b67491140d8 0, F64.hex true 0xfe29464325760 0, F64.hex false 0xfaf69c6967d51 (-1), F64.hex true 0xfe2c2d036e11b 0, F64.hex false 0xfc5db80afeb88 (-1)⟩,
    -- gain +11
    ⟨F64.hex false 0x00c95066a53b0 0, F64.hex true 0xfe363fad32ad9 0, F64.hex false 0xfaebd97f1b9fb (-1), F64.hex true 0xfe397a1760e29 0, F64.hex false 0xfc78057809aba (-1)⟩,
    -- gain +12
    ⟨F64.hex false 0x00dc58c756561 0, F64.hex true 0xfe42d554ac7f9 0, F64.hex false 0xfae0054558bac (-1), F64.hex true 0xfe466629bacc2 0, F64.hex false 0xfc919529e8cdc (-1)⟩
  ]

/-- COEF_ROM[1], peaking, 250 Hz: the rows of R290 for gains -12 .. +12, in order. -/
def romBand1 : List Coef :=
  [
    -- gain -12
    ⟨F64.hex false 0xf2d8b61b55fdd (-1), F64.hex true 0xee1edeac29dcb 0, F64.hex false 0xea059939ed8ff (-1), F64.hex true 0xee1edeac29dcb 0, F64.hex false 0xdcde4f55438dd (-1)⟩,
    -- gain -11
    ⟨F64.hex false 0xf4115433cb6c9 (-1), F64.hex true 0xef121a15ca2c9 0, F64.hex false 0xeab3c0ff3ef9b (-1), F64.hex true 0xef121a15ca2c9 0, F64.hex false 0xdec515330a663 (-1)⟩,
    -- gain -10
    ⟨F64.hex false 0xf5414d8e4c947 (-1), F64.hex true 0xeff896752906e 0, F64.hex false 0xeb510b49a4ce6 (-1), F64.hex true 0xeff896752906e 0, F64.hex false 0xe09258d7f162d (-1)⟩,
    -- gain -9
    ⟨F64.hex false 0xf669802d97597 (-1), F64.hex true 0xf0d2f374680c1 0, F64.hex false 0xebddd99e86f1e (-1), F64.hex true 0xf0d2f374680c1 0, F64.hex false 0xe24759cc1e4b6 (-1)⟩,
    -- gain -8
    ⟨F64.hex false 0xf78ac72909ed0 (-1), F64.hex true 0xf1a1ca21ddb69 0, F64.hex false 0xec5a8334f0ea1 (-1), F64.hex true 0xf1a1ca21ddb69 0, F64.hex false 0xe3e54a5dfad72 (-1)⟩,
    -- gain -7
    ⟨F64.hex false 0xf8a5fb08eedf4 (-1), F64.hex true 0xf265ad1460775 0, F64.hex false 0xecc754e1e7d1c (-1), F64.hex true 0xf265ad1460775 0, F64.hex false 0xe56d4fead6b10 (-1)⟩,
    -- gain -6
    ⟨F64.hex false 0xf9bbf2297b016 (-1), F64.hex true 0xf31f2892f205b 0, F64.hex false 0xed249104cffa0 (-1), F64.hex true 0xf31f2892f205b 0, F64.hex false 0xe6e0832e4afb6 (-1)⟩,
    -- gain -5
    ⟨F64.hex false 0xfacd81240b6e6 (-1), F64.hex true 0xf3cec2bf26f13 0, F64.hex false 0xed726f730bcce (-1), F64.hex true 0xf3cec2bf26f13 0, F64.hex false 0xe83ff097173b4 (-1)⟩,
    -- gain -4
    ⟨F64.hex false 0xfbdb7b3e45de6 (-1), F64.hex true 0xf474fbc1b7560 0, F64.hex false 0xedb11d620b5e4 (-1), F64.hex true 0xf474fbc1b7560 0, F64.hex false 0xe98c98a0513cc (-1)⟩,
    -- gain -3
    ⟨F64.hex false 0xfce6b2ded049f (-1), F64.hex true 0xf5124df8b54d7 0, F64.hex false 0xede0bd4f10ae6 (-1), F64.hex true 0xf5124df8b54d7 0, F64.hex false 0xeac7702de0f85 (-1)⟩,
    -- gain -2
    ⟨F64.hex false 0xfdeffa0766d92 (-1), F64.hex true 0xf5a72e26f44ea 0, F64.hex false 0xee0166e3f7e2d (-1), F64.hex true 0xf5a72e26f44ea 0, F64.hex false 0xebf160eb5ebc0 (-1)⟩,
    -- gain -1
    ⟨F64.hex false 0xfef822d428250 (-1), F64.hex true 0xf6340ba43a332 0, F64.hex false 0xee1326d85cb86 (-1), F64.hex true 0xf6340ba43a332 0, F64.hex false 0xed0b49ac84dd6 (-1)⟩,
    -- gain +0
    ⟨F64.hex false 0x0000000000000 0, F64.hex true 0xf6b9508ddefee 0, F64.hex false 0xee15fece7f169 (-1), F64.hex true 0xf6b9508ddefee 0, F64.hex false 0xee15fece7f169 (-1)⟩,
    -- gain +1
    ⟨F64.hex false 0x008432b7142e6 0, F64.hex true 0xf73761f78bf29 0, F64.hex false 0xee09e52b50257 (-1), F64.hex true 0xf73761f78bf29 0, F64.hex false 0xef124a9978823 (-1)⟩,
    -- gain +2
    ⟨F64.hex false 0x0109145c6341e 0, F64.hex true 0xf7aea01bd4d1e 0, F64.hex false 0xedeec4e9176f3 (-1), F64.hex true 0xf7aea01bd4d1e 0, F64.hex false 0xf000eda1ddf2d (-1)⟩,
    -- gain +3
    ⟨F64.hex false 0x018f10e25c5ae 0, F64.hex true 0xf81f668c6fbce 0, F64.hex false 0xedc47d64249bb (-1), F64.hex true 0xf81f668c6fbce 0, F64.hex false 0xf0e29f28dd518 (-1)⟩,
    -- gain +4
    ⟨F64.hex false 0x021695ad5ad35 0, F64.hex true 0xf88a0c61d88e9 0, F64.hex false 0xed8ae221062e3 (-1), F64.hex true 0xf88a0c61d88e9 0, F64.hex false 0xf1b80d7bbbd4b (-1)⟩,
    -- gain +5
    ⟨F64.hex false 0x02a011e2f5f95 0, F64.hex true 0xf8eee46a3469a 0, F64.hex false 0xed41ba8bc0655 (-1), F64.hex true 0xf8eee46a3469a 0, F64.hex false 0xf281de51ac57e (-1)⟩,
    -- gain +6
    ⟨F64.hex false 0x032bf6bc2dfe4 0, F64.hex true 0xf94e3d5751159 0, F64.hex false 0xece8c1af810ab (-1), F64.hex true 0xf94e3d5751159 0, F64.hex false 0xf340af27dd073 (-1)⟩,
    -- gain +7
    ⟨F64.hex false 0x03bab7da9938f 0, F64.hex true 0xf9a861eba2035 0, F64.hex false 0xec7fa5e64d963 (-1), F64.hex true 0xf9a861eba2035 0, F64.hex false 0xf3f5159b80082 (-1)⟩,
    -- gain +8
    ⟨F64.hex false 0x044ccba0ba9e6 0, F64.hex true 0xf9fd99262265c 0, F64.hex false 0xec06088028afe (-1), F64.hex true 0xf9fd99262265c 0, F64.hex false 0xf49f9fc19dec9 (-1)⟩,
    -- gain +9
    ⟨F64.hex false 0x04e2ab8daff34 0, F64.hex true 0xfa4e266d08b74 0, F64.hex false 0xeb7b7d612ab82 (-1), F64.hex true 0xfa4e266d08b74 0, F64.hex false 0xf540d47c8a9e9 (-1)⟩,
    -- gain +10
    ⟨F64.hex false 0x057cd49c6bc02 0, F64.hex true 0xfa9a49b73c69c 0, F64.hex false 0xeadf8a9606b97 (-1), F64.hex true 0xfa9a49b73c69c 0, F64.hex false 0xf5d933cede39b (-1)⟩,
    -- gain +11
    ⟨F64.hex false 0x061bc7a6b488e 0, F64.hex true 0xfae23fb4825b3 0, F64.hex false 0xea31a7de71efb (-1), F64.hex true 0xfae23fb4825b3 0, F64.hex false 0xf669372bdb017 (-1)⟩,
    -- gain +12
    ⟨F64.hex false 0x06c009cc283b7 0, F64.hex true 0xfb2641f4580c5 0, F64.hex false 0xe9713e2cdff88 (-1), F64.hex true 0xfb2641f4580c5 0, F64.hex false 0xf6f151c5306f4 (-1)⟩
  ]

/-- COEF_ROM[2], peaking, 1000 Hz: the rows of R290 for gains -12 .. +12, in order. -/
def romBand2 : List Coef :=
  [
    -- gain -12
    ⟨F64.hex false 0xd06dae94b6546 (-1), F64.hex true 0xbbed2ad4a48a9 0, F64.hex false 0xb08340a397564 (-1), F64.hex true 0xbbed2ad4a48a9 0, F64.hex false 0x80f0ef384daab (-1)⟩,
    -- gain -11
    ⟨F64.hex false 0xd4a071c3b3998 (-1), F64.hex true 0xbf077d3c316e2 0, F64.hex false 0xb2956545af866 (-1), F64.hex true 0xbf077d3c316e2 0, F64.hex false 0x8735d709631fe (-1)⟩,
    -- gain -10
    ⟨F64.hex false 0xd8c13ac38af6a (-1), F64.hex true 0xc1ffa273f6f7a 0, F64.hex false 0xb47476994013f (-1), F64.hex true 0xc1ffa273f6f7a 0, F64.hex false 0x8d35b15ccb0aa (-1)⟩,
    -- gain -9
    ⟨F64.hex false 0xdcd1fe1b796f5 (-1), F64.hex true 0xc4d6955479fbb 0, F64.hex false 0xb6207aeac1bab (-1), F64.hex true 0xc4d6955479fbb 0, F64.hex false 0x92f279063b2a0 (-1)⟩,
    -- gain -8
    ⟨F64.hex false 0xe0d4c490f6ca8 (-1), F64.hex true 0xc78d563563c10 0, F64.hex false 0xb7996f638a1ca (-1), F64.hex true 0xc78d563563c10 0, F64.hex false 0x986e33f480e70 (-1)⟩,
    -- gain -7
    ⟨F64.hex false 0xe4cbaa6b39044 (-1), F64.hex true 0xca24e953de913 0, F64.hex false 0xb8df458a9e8c8 (-1), F64.hex true 0xca24e953de913 0, F64.hex false 0x9daaeff5d790d (-1)⟩,
    -- gain -6
    ⟨F64.hex false 0xe8b8dee59b09b (-1), F64.hex true 0xcc9e555a6eddf 0, F64.hex false 0xb9f1e0da4c384 (-1), F64.hex true 0xcc9e555a6eddf 0, F64.hex false 0xa2aabfbfe7420 (-1)⟩,
    -- gain -5
    ⟨F64.hex false 0xec9ea3d14d979 (-1), F64.hex true 0xcefaa209e7ac0 0, F64.hex false 0xbad114695a3bd (-1), F64.hex true 0xcefaa209e7ac0 0, F64.hex false 0xa76fb83aa7d34 (-1)⟩,
    -- gain -4
    ⟨F64.hex false 0xf07f4d666cb72 (-1), F64.hex true 0xd13ad702c11fc 0, F64.hex false 0xbb7ca0a645139 (-1), F64.hex true 0xd13ad702c11fc 0, F64.hex false 0xabfbee0cb1cac (-1)⟩,
    -- gain -3
    ⟨F64.hex false 0xf45d424458155 (-1), F64.hex true 0xd35ffaadcf94f 0, F64.hex false 0xbbf431229cbd2 (-1), F64.hex true 0xd35ffaadcf94f 0, F64.hex false 0xb0517366f4d28 (-1)⟩,
    -- gain -2
    ⟨F64.hex false 0xf83afba0ff46d (-1), F64.hex true 0xd56b11431f761 0, F64.hex false 0xbc375a6c5663b (-1), F64.hex true 0xd56b11431f761 0, F64.hex false 0xb472560d55aa7 (-1)⟩,
    -- gain -1
    ⟨F64.hex false 0xfc1b05a6b3cb8 (-1), F64.hex true 0xd75d1bed8cdf2 0, F64.hex false 0xbc4597f2a67d2 (-1), F64.hex true 0xd75d1bed8cdf2 0, F64.hex false 0xb8609d995a489 (-1)⟩,
    -- gain +0
    ⟨F64.hex false 0x0000000000000 0, F64.hex true 0xd93718098ca99 0, F64.hex false 0xbc1e49f3c74e9 (-1), F64.hex true 0xd93718098ca99 0, F64.hex false 0xbc1e49f3c74e9 (-1)⟩,
    -- gain +1
    ⟨F64.hex false 0x01f64f487d704 0, F64.hex true 0xdaf9fe7d85769 0, F64.hex false 0xbbc0b370e8967 (-1), F64.hex true 0xdaf9fe7d85769 0, F64.hex false 0xbfad5201e376f (-1)⟩,
    -- gain +2
    ⟨F64.hex false 0x03f1d52ec9a9e 0, F64.hex true 0xdca6c32a09679 0, F64.hex false 0xbb2bf825662d0 (-1), F64.hex true 0xdca6c32a09679 0, F64.hex false 0xc30fa282f980d (-1)⟩,
    -- gain +3
    ⟨F64.hex false 0x05f4014e2cb50 0, F64.hex true 0xde3e54703b24c 0, F64.hex false 0xba5f1a7e4b803 (-1), F64.hex true 0xde3e54703b24c 0, F64.hex false 0xc6471d1aa4ea4 (-1)⟩,
    -- gain +4
    ⟨F64.hex false 0x07fe4efaafb6a 0, F64.hex true 0xdfc19acca96f2 0, F64.hex false 0xb958f98f17908 (-1), F64.hex true 0xdfc19acca96f2 0, F64.hex false 0xc955978476fdc (-1)⟩,
    -- gain +5
    ⟨F64.hex false 0x0a1245f673666 0, F64.hex true 0xe1317884f2a32 0, F64.hex false 0xb8184f00a764a (-1), F64.hex true 0xe1317884f2a32 0, F64.hex false 0xcc3cdaed8e317 (-1)⟩,
    -- gain +6
    ⟨F64.hex false 0x0c317b3cd668d 0, F64.hex true 0xe28ec9668c46f 0, F64.hex false 0xb69bacf722a0a (-1), F64.hex true 0xe28ec9668c46f 0, F64.hex false 0xcefea370cf723 (-1)⟩,
    -- gain +7
    ⟨F64.hex false 0x0e5d91e367eb0 0, F64.hex true 0xe3da62951911c 0, F64.hex false 0xb4e17bebbe129 (-1), F64.hex true 0xe3da62951911c 0, F64.hex false 0xd19c9fb28de88 (-1)⟩,
    -- gain +8
    ⟨F64.hex false 0x10983c10b7553 0, F64.hex true 0xe5151266c8f7d 0, F64.hex false 0xb2e7f87721b13 (-1), F64.hex true 0xe5151266c8f7d 0, F64.hex false 0xd4187098905bb (-1)⟩,
    -- gain +9
    ⟨F64.hex false 0x12e33c09281e9 0, F64.hex true 0xe63fa04d51fa3 0, F64.hex false 0xb0ad310939e32 (-1), F64.hex true 0xe63fa04d51fa3 0, F64.hex false 0xd673a91b8a206 (-1)⟩,
    -- gain +10
    ⟨F64.hex false 0x15406552087cc 0, F64.hex true 0xe75accca251cc 0, F64.hex false 0xae2f038b363cf (-1), F64.hex true 0xe75accca251cc 0, F64.hex false 0xd8afce2f47367 (-1)⟩,
    -- gain +11
    ⟨F64.hex false 0x17b19deb4297b 0, F64.hex true 0xe867516c9873f 0, F64.hex false 0xab6b1ae871962 (-1), F64.hex true 0xe867516c9873f 0, F64.hex false 0xdace56bef6c58 (-1)⟩,
    -- gain +12
    ⟨F64.hex false 0x1a38dfa019e76 0, F64.hex true 0xe965e0d8d53a0 0, F64.hex false 0xa85eec7af7ca2 (-1), F64.hex true 0xe965e0d8d53a0 0, F64.hex false 0xdcd0abbb2b98c (-1)⟩
  ]

/-- COEF_ROM[3], peaking, 4000 Hz: the rows of R290 for gains -12 .. +12, in order. -/
def romBand3 : List Coef :=
  [
    -- gain -12
    ⟨F64.hex false 0x79d7f6b4244eb (-1), F64.hex true 0x183c8476f777a 0, F64.hex false 0x1fd68fb328b2b (-1), F64.hex true 0x183c8476f777a 0, F64.hex false 0x335d0cce9a02d (-2)⟩,
    -- gain -11
    ⟨F64.hex false 0x841b69e6c46ab (-1), F64.hex true 0x1dd4d1a29c09e 0, F64.hex false 0x22dd712ea8875 (-1), F64.hex true 0x1dd4d1a29c09e 0, F64.hex false 0x4df1b62ad9e41 (-2)⟩,
    -- gain -10
    ⟨F64.hex false 0x8e7fc1eed5e90 (-1), F64.hex true 0x23527d43aa969 0, F64.hex false 0x25842b3e5efd7 (-1), F64.hex true 0x23527d43aa969 0, F64.hex false 0x6807da5a69ccd (-2)⟩,
    -- gain -9
    ⟨F64.hex false 0x990700692ca52 (-1), F64.hex true 0x28b400aff16ad 0, F64.hex false 0x27c51c4653be2 (-1), F64.hex true 0x28b400aff16ad 0, F64.hex false 0x8198395f00c6a (-2)⟩,
    -- gain -8
    ⟨F64.hex false 0xa3b389ac42ed4 (-1), F64.hex true 0x2df7fc1a3a85d 0, F64.hex false 0x299a9c42031a7 (-1), F64.hex true 0x2df7fc1a3a85d 0, F64.hex false 0x9a9c4bdc8c0f6 (-2)⟩,
    -- gain -7
    ⟨F64.hex false 0xae8828af82992 (-1), F64.hex true 0x331d371b5bdbd 0, F64.hex false 0x2afefa22aaa32 (-1), F64.hex true 0x331d371b5bdbd 0, F64.hex false 0xb30e45a45a78a (-2)⟩,
    -- gain -6
    ⟨F64.hex false 0xb98812b7341ac (-1), F64.hex true 0x3822a0d7bdc67 0, F64.hex false 0x2bec787c7d834 (-1), F64.hex true 0x3822a0d7bdc67 0, F64.hex false 0xcae91667633c1 (-2)⟩,
    -- gain -5
    ⟨F64.hex false 0xc4b6eace2ff9e (-1), F64.hex true 0x3d074fc6e9363 0, F64.hex false 0x2c5d4986de84d (-1), F64.hex true 0x3d074fc6e9363 0, F64.hex false 0xe22868aa1cfd8 (-2)⟩,
    -- gain -4
    ⟨F64.hex false 0xd018c517ea593 (-1), F64.hex true 0x41ca8123de7ab 0, F64.hex false 0x2c4b8a7512df3 (-1), F64.hex true 0x41ca8123de7ab 0, F64.hex false 0xf8c89f19fa70b (-2)⟩,
    -- gain -3
    ⟨F64.hex false 0xdbb22a06aa058 (-1), F64.hex true 0x466b980de70d6 0, F64.hex false 0x2bb13e2de4e14 (-1), F64.hex true 0x466b980de70d6 0, F64.hex false 0x076368348ee6d (-1)⟩,
    -- gain -2
    ⟨F64.hex false 0xe7881982b4a5e (-1), F64.hex true 0x4aea1c6248012 0, F64.hex false 0x2a8847695f346 (-1), F64.hex true 0x4aea1c6248012 0, F64.hex false 0x121060ec13da3 (-1)⟩,
    -- gain -1
    ⟨F64.hex false 0xf3a00e0ff188d (-1), F64.hex true 0x4f45b957b0fa4 0, F64.hex false 0x28ca623c2a6b8 (-1), F64.hex true 0x4f45b957b0fa4 0, F64.hex false 0x1c6a704c1bf45 (-1)⟩,
    -- gain +0
    ⟨F64.hex false 0x0000000000000 0, F64.hex true 0x537e3be47fff4 0, F64.hex false 0x26711d182ab11 (-1), F64.hex true 0x537e3be47fff4 0, F64.hex false 0x26711d182ab11 (-1)⟩,
    -- gain +1
    ⟨F64.hex false 0x0657345f81309 0, F64.hex true 0x579390f8f9a4a 0, F64.hex false 0x2375d149c8504 (-1), F64.hex true 0x579390f8f9a4a 0, F64.hex false 0x30243a08cab16 (-1)⟩,
    -- gain +2
    ⟨F64.hex false 0x0cd92324b9139 0, F64.hex true 0x5b85c3966cba3 0, F64.hex false 0x1fd19af8da961 (-1), F64.hex true 0x5b85c3966cba3 0, F64.hex false 0x3983e1424cbd5 (-1)⟩,
    -- gain +3
    ⟨F64.hex false 0x13898f6c9dc39 0, F64.hex true 0x5f54facbe7214 0, F64.hex false 0x1b7d50b38118e (-1), F64.hex true 0x5f54facbe7214 0, F64.hex false 0x42906f8cbc9ff (-1)⟩,
    -- gain +4
    ⟨F64.hex false 0x1a6c826c136e3 0, F64.hex true 0x630177a0ada44 0, F64.hex false 0x16717a885c4a2 (-1), F64.hex true 0x630177a0ada44 0, F64.hex false 0x4b4a7f6083269 (-1)⟩,
    -- gain +5
    ⟨F64.hex false 0x21864d92a2463 0, F64.hex true 0x668b92f419842 0, F64.hex false 0x10a648b493f70 (-1), F64.hex true 0x668b92f419842 0, F64.hex false 0x53b2e3d9d8835 (-1)⟩,
    -- gain +6
    ⟨F64.hex false 0x28db8cdd55ffb 0, F64.hex true 0x69f3bb59dab2e 0, F64.hex false 0x0a1389e8f9690 (-1), F64.hex true 0x69f3bb59dab2e 0, F64.hex false 0x5bcaa3a3a5684 (-1)⟩,
    -- gain +7
    ⟨F64.hex false 0x3071296037d0a 0, F64.hex true 0x6d3a72f8ebe63 0, F64.hex false 0x02b0a1285b2ba (-1), F64.hex true 0x6d3a72f8ebe63 0, F64.hex false 0x6392f3e8cacce (-1)⟩,
    -- gain +8
    ⟨F64.hex false 0x384c5c0c9a905 0, F64.hex true 0x70604d72cba72 0, F64.hex false 0xf4e8f67fb2aca (-2), F64.hex true 0x70604d72cba72 0, F64.hex false 0x6b0d33590e770 (-1)⟩,
    -- gain +9
    ⟨F64.hex false 0x4072b0ba38525 0, F64.hex true 0x7365edd7d0a75 0, F64.hex false 0xe2ab07b17226f (-2), F64.hex true 0x7365edd7d0a75 0, F64.hex false 0x723ae54d29b82 (-1)⟩,
    -- gain +10
    ⟨F64.hex false 0x48ea0978ec59e 0, F64.hex true 0x764c04acb4733 0, F64.hex false 0xce933443c4f44 (-2), F64.hex true 0x764c04acb4733 0, F64.hex false 0x791dad13bb2dd (-1)⟩,
    -- gain +11
    ⟨F64.hex false 0x51b8a230a5d64 0, F64.hex true 0x79134e04ba02c 0, F64.hex false 0xb88c0a1bc28f6 (-2), F64.hex true 0x79134e04ba02c 0, F64.hex false 0x7fb7496f2cf43 (-1)⟩,
    -- gain +12
    ⟨F64.hex false 0x5ae51495095c0 0, F64.hex true 0x7bbc8fb328b46 0, F64.hex false 0xa07ece41e65d1 (-2), F64.hex true 0x7bbc8fb328b46 0, F64.hex false 0x8609904b05e69 (-1)⟩
  ]

/-- COEF_ROM[4], high shelf, 16000 Hz: the rows of R290 for gains -12 .. +12, in order. -/
def romBand4 : List Coef :=
  [
    -- gain -12
    ⟨F64.hex false 0x5e8fb7145fa75 (-1), F64.hex false 0xab174afd4dcf3 (-1), F64.hex false 0x638c5526cbf5e (-2), F64.hex false 0x142eb51bf1bb7 (-1), F64.hex false 0x4e7cef12436c2 (-2)⟩,
    -- gain -11
    ⟨F64.hex false 0x6a0717d848ab4 (-1), F64.hex false 0xb0fe9199fca52 (-1), F64.hex false 0x68ec60599cb08 (-2), F64.hex false 0x257d907be87f7 (-1), F64.hex false 0x53fc924656526 (-2)⟩,
    -- gain -10
    ⟨F64.hex false 0x75cf3e641963f (-1), F64.hex false 0xb68f5df376893 (-1), F64.hex false 0x6e38d6e11a1ea (-2), F64.hex false 0x36988a3cc6c64 (-1), F64.hex false 0x59c4fb16ac6c7 (-2)⟩,
    -- gain -9
    ⟨F64.hex false 0x81eb25bc2c44d (-1), F64.hex false 0xbbc274f7b691a (-1), F64.hex false 0x73729c7608e4a (-2), F64.hex false 0x477d59aac07fd (-1), F64.hex false 0x5fd31e884d91e (-2)⟩,
    -- gain -8
    ⟨F64.hex false 0x8e5dffcb20113 (-1), F64.hex false 0xc090547aacd88 (-1), F64.hex false 0x789aeb1f6ee1c (-2), F64.hex false 0x5829dc4b61fc2 (-1), F64.hex false 0x6623db1444bc7 (-2)⟩,
    -- gain -7
    ⟨F64.hex false 0x9b2b38c179ec3 (-1), F64.hex false 0xc4f12f56841e9 (-1), F64.hex false 0x7db358c8c7973 (-2), F64.hex false 0x689c166faadfe (-1), F64.hex false 0x6cb3fc196decc (-2)⟩,
    -- gain -6
    ⟨F64.hex false 0xa8567a93788bf (-1), F64.hex false 0xc8dce9221f91e (-1), F64.hex false 0x82bddcff8a8f5 (-2), F64.hex false 0x78d2339129eeb (-1), F64.hex false 0x73803d4866ed8 (-2)⟩,
    -- gain -5
    ⟨F64.hex false 0xb5e3b096fd8c8 (-1), F64.hex false 0xcc4b117867bb8 (-1), F64.hex false 0x87bcd6dc7b705 (-2), F64.hex false 0x88ca867bbf139 (-1), F64.hex false 0x7a854e03c7d96 (-2)⟩,
    -- gain -4
    ⟨F64.hex false 0xc3d70b43b58d6 (-1), F64.hex false 0xcf32decb02754 (-1), F64.hex false 0x8cb3131dd278a (-2), F64.hex false 0x988389460ac22 (-1), F64.hex false 0x81bfd4af2cf9c (-2)⟩,
    -- gain -3
    ⟨F64.hex false 0xd2350417ecd53 (-1), F64.hex false 0xd18b28bb0f9b1 (-1), F64.hex false 0x91a3d277e1f7b (-2), F64.hex false 0xa7fbdd1ae7f64 (-1), F64.hex false 0x892c71e80aeb4 (-2)⟩,
    -- gain -2
    ⟨F64.hex false 0xe10261a4c45da (-1), F64.hex false 0xd34a61f279d0c (-1), F64.hex false 0x9692d02271938 (-2), F64.hex false 0xb73249d6982d8 (-1), F64.hex false 0x90c7c3a3bd950 (-2)⟩,
    -- gain -1
    ⟨F64.hex false 0xf0443bc4c238f (-1), F64.hex false 0xd4669178573b6 (-1), F64.hex false 0x9b8448a99a577 (-2), F64.hex false 0xc625bd7a86818 (-1), F64.hex false 0x988e682ec03d3 (-2)⟩,
    -- gain +0
    ⟨F64.hex false 0x0000000000000 0, F64.hex false 0xd4d54b7ab8811 (-1), F64.hex false 0xa07d01097e9f0 (-2), F64.hex false 0xd4d54b7ab8811 (-1), F64.hex false 0xa07d01097e9f0 (-2)⟩,
    -- gain +1
    ⟨F64.hex false 0x081dbb10c12f2 0, F64.hex false 0xd48ba9881c111 (-1), F64.hex false 0xa5824e1cc6da3 (-2), F64.hex false 0xe3402be828bab (-1), F64.hex false 0xa890359fb2438 (-2)⟩,
    -- gain +2
    ⟨F64.hex false 0x107e6280c6e2c 0, F64.hex false 0xd37e423287ee7 (-1), F64.hex false 0xaa9a1c665829b (-2), F64.hex false 0xf165ba7b607f1 (-1), F64.hex false 0xb0c4b5d7c2939 (-2)⟩,
    -- gain +3
    ⟨F64.hex false 0x19253bc48af3a 0, F64.hex false 0xd1a120160c6c9 (-1), F64.hex false 0xafcaf83f4435c (-2), F64.hex false 0xff457582b4c8b (-1), F64.hex false 0xb9173c781f4bc (-2)⟩,
    -- gain +4
    ⟨F64.hex false 0x2215c0f957ea0 0, F64.hex false 0xcee7b83c261df (-1), F64.hex false 0xb51c16727ae38 (-2), F64.hex false 0x066f7e5bc70a6 0, F64.hex false 0xc18491610a9e6 (-2)⟩,
    -- gain +5
    ⟨F64.hex false 0x2b53a3a6dce31 0, F64.hex false 0xcb44dfd51c292 (-1), F64.hex false 0xba955d504f5bd (-2), F64.hex false 0x0d1907ff0e93a 0, F64.hex false 0xca098b99c0eba (-2)⟩,
    -- gain +6
    ⟨F64.hex false 0x34e2cfa45bdc0 0, F64.hex false 0xc6aac140122c1 (-1), F64.hex false 0xc03f6e446ac33 (-2), F64.hex false 0x139f470968093 0, F64.hex false 0xd2a313305e66c (-2)⟩,
    -- gain +7
    ⟨F64.hex false 0x3ec76e2418b5a 0, F64.hex false 0xc10ad05a1175a (-1), F64.hex false 0xc623aff951267 (-2), F64.hex false 0x1a023994622c4 0, F64.hex false 0xdb4e22ec4e376 (-2)⟩,
    -- gain +8
    ⟨F64.hex false 0x4905e8e7d6c20 0, F64.hex false 0xba55be0bcc87f (-1), F64.hex false 0xcc4c59152911e (-2), F64.hex false 0x2041ebbe2acfc 0, F64.hex false 0xe407c9d371eac (-2)⟩,
    -- gain +9
    ⟨F64.hex false 0x53a2eda15b32a 0, F64.hex false 0xb27b6b0d5179e (-1), F64.hex false 0xd2c47b9c05595 (-2), F64.hex false 0x265e76ee6297a 0, F64.hex false 0xeccd2c828ab95 (-2)⟩,
    -- gain +10
    ⟨F64.hex false 0x5ea3718214637 0, F64.hex false 0xa96ad9d643ad2 (-1), F64.hex false 0xd998110483923 (-2), F64.hex false 0x2c580117e723e 0, F64.hex false 0xf59b8659bfeac (-2)⟩,
    -- gain +11
    ⟨F64.hex false 0x6a0cb4fd31060 0, F64.hex false 0x9f121fb08b75e (-1), F64.hex false 0xe0d4070c29ede (-2), F64.hex false 0x322ebbf8e7ad2 0, F64.hex false 0xfe702a7e663ce (-2)⟩,
    -- gain +12
    ⟨F64.hex false 0x75e447bf9ed19 0, F64.hex false 0x935e54e2b2845 (-1), F64.hex false 0xe8864d598d87d (-2), F64.hex false 0x37e2e45a808db 0, F64.hex false 0x03a44259b5cff (-1)⟩
  ]

/-- The default COEF_ROM (R290). -/
def defaultRom : PerBand (List Coef) := ⟨romBand0, romBand1, romBand2, romBand3, romBand4⟩

/-! ### The band table (R38) -/

/-- A band's topology. -/
inductive FilterType where
  | lowShelf
  | peaking
  | highShelf
deriving DecidableEq, Repr

/-- BAND_FREQ[b] in Hz (R38). -/
def bandFreq : Band → Nat
  | .b0 => 60
  | .b1 => 250
  | .b2 => 1000
  | .b3 => 4000
  | .b4 => 16000

/-- BAND_TYPE[b] (R38). -/
def bandType : Band → FilterType
  | .b0 => .lowShelf
  | .b1 => .peaking
  | .b2 => .peaking
  | .b3 => .peaking
  | .b4 => .highShelf

/-- TYPECODE (R38, R200). Code 0 means no such band. -/
def typeCode : FilterType → Nat
  | .lowShelf => 1
  | .peaking => 2
  | .highShelf => 3

/-- The Q column of the band table (R38): SHELF_Q for the shelving bands, PEAK_Q for the peaking ones. -/
def bandQ (p : Params) (b : Band) : F64 :=
  match bandType b with
  | .lowShelf => p.shelfQ
  | .peaking => Config.peakQ
  | .highShelf => p.shelfQ

end Sys2Proof.Machine

namespace Sys2Proof

/-- The default parameters of R9. SHELF_Q is the binary64 value nearest to 0.9. -/
def Params.default : Params :=
  { fifoCapacity := 882000
    maxChunkBytes := 65536
    prebufferBytes := 529200
    ticksPerSecond := 1000
    shelfQ := F64.hex false 0xccccccccccccd (-1)
    coefRom := Machine.defaultRom }

end Sys2Proof
end

