-- ==== Sys2Proof/Machine/State.lean ====
section
/-!
DEFINITION. The state of EQ5-FIFO (10_state.md), its faults and refusals, and the state after reset (R441).
-/

namespace Sys2Proof.Machine

open Sys2Proof

/-- The two audio channels (R35, R83). -/
inductive Channel where
  | c0
  | c1
deriving DecidableEq, Repr

/-- One value for each channel. -/
structure PerChannel (α : Type) where
  c0 : α
  c1 : α
deriving DecidableEq, Repr

/-- A filter's history on one channel: the previous two inputs and the previous two outputs (R35). -/
structure Hist where
  x1 : F64
  x2 : F64
  y1 : F64
  y2 : F64
deriving DecidableEq, Repr

/-- The histories of all bands on both channels: HIST[b][c] (R35). -/
abbrev Hists := PerBand (PerChannel Hist)

/-- SESSION (R46). -/
inductive Session where
  /-- Code 0: no session since reset or FIFO.RESET. -/
  | idle
  /-- Code 1: a session is open. -/
  | running
  /-- Code 2: the session ended by closure, read error or open failure. -/
  | eof
  /-- Code 3: the session was ended by FIFO.STOP. -/
  | stopped
deriving DecidableEq, Repr

/-- EOF_CAUSE (R48). Codes 4 to 7 are never held, so they have no constructor (log entry 10). -/
inductive EofCause where
  /-- Code 0: none. -/
  | none
  /-- Code 1: producer closure, a zero-length read. -/
  | closure
  /-- Code 2: read error. -/
  | readError
  /-- Code 3: open failure. -/
  | openFailure
deriving DecidableEq, Repr

/-- FIFO_MEM as (index, byte) pairs (R41), in the canonical form of `Memory.wf` (Machine/Memory.lean). -/
abbrev Memory := List Host.Cell

/-- Why the model stops. Both are the spec's own model-only outcomes (R16, R400). -/
inductive Fault where
  /-- `fault UndefState`: EQ.PROCESS read COEF or HIST of a band whose UNDEF is 1 (R183, I1). Raised by `cascade`.
  Safe: the model stops where the block's value is undefined; no legal sequence reaches it (R183). -/
  | undefState
  /-- `fault NonFinite`: a REAL value of EQ.PROCESS's datapath is NaN (R240, D47). Raised by `cascade`.
  Safe: the model stops where no value can be given; it does not occur with the default COEF_ROM (R240). -/
  | nonFinite
deriving DecidableEq, Repr

/-- Why the model has no meaning for an instruction. -/
inductive Refusal where
  /-- An instruction with no meaning yet, by its mnemonic; raised by an arm of `exec` only. Safe: nothing runs.
  No arm raises it. -/
  | notModelled (mnemonic : String)
deriving DecidableEq, Repr

/-- The state of the block. The fields from `gain` to `cmdErr` are exactly the elements of R33 to R55 (R30); the last
four are the model's own, at the block's boundary. -/
structure State where
  /-- GAIN[b], 5-bit two's complement (R33). -/
  gain : PerBand (BitVec 5)
  /-- COEF[b] (R34). -/
  coef : PerBand Coef
  /-- HIST[b][c] (R35). -/
  hist : Hists
  /-- UNDEF[b] (R36). -/
  undef : PerBand Bool
  /-- ATTACHED (R37). -/
  attached : Bool
  /-- FIFO_MEM (R41). -/
  fifoMem : Memory
  /-- WR_POS (R42). -/
  wrPos : BitVec 32
  /-- RD_POS (R43). -/
  rdPos : BitVec 32
  /-- AVAIL (R44). -/
  avail : BitVec 32
  /-- SESSION (R46). -/
  session : Session
  /-- EOF_FLAG (R47). -/
  eofFlag : Bool
  /-- EOF_CAUSE (R48). -/
  eofCause : EofCause
  /-- RX_SEEN (R49). -/
  rxSeen : Bool
  /-- LAST_DATA (R50). -/
  lastData : BitVec 64
  /-- TOTAL_RX (R51). -/
  totalRx : BitVec 64
  /-- NOW (R54). -/
  now : BitVec 64
  /-- CMD_ERR (R55). -/
  cmdErr : Bool
  /-- The parameters of the instance (R9); no transaction writes them (log entry 1). -/
  cfg : Params
  /-- The transactions presented and not yet executed, in the total order of R100 (log entry 4). -/
  pending : List Transaction
  /-- The result word of the last transaction (R120, log entry 5). -/
  res : Word
  /-- The output payload of the last transaction (R120, log entry 5). -/
  pout : List Byte
deriving DecidableEq, Repr

/-- The same value for every band. -/
def PerBand.all {α : Type} (x : α) : PerBand α := ⟨x, x, x, x, x⟩

/-- Passthrough coefficients: B0 = 1.0, the rest +0.0 (R34). -/
def Coef.passthrough : Coef := ⟨0x3FF0000000000000, 0, 0, 0, 0⟩

/-- A zero history: four times +0.0 (R35). -/
def Hist.zero : Hist := ⟨0, 0, 0, 0⟩

/-- A band's two zero histories (R35). -/
def zeroHists : PerChannel Hist := ⟨Hist.zero, Hist.zero⟩

/-- The state after reset (R441). FIFO_MEM is unspecified there: nothing is listed (log entry 6). -/
def State.reset : State :=
  { gain := PerBand.all 0
    coef := PerBand.all Coef.passthrough
    hist := PerBand.all zeroHists
    undef := PerBand.all false
    attached := false
    fifoMem := []
    wrPos := 0
    rdPos := 0
    avail := 0
    session := .idle
    eofFlag := false
    eofCause := .none
    rxSeen := false
    lastData := 0
    totalRx := 0
    now := 0
    cmdErr := false
    cfg := Params.default
    pending := []
    res := 0
    pout := [] }

end Sys2Proof.Machine
end

