-- ==== Sys2Proof/Machine/Operands.lean ====
section
/-!
DEFINITION. Operand forms: the band index (R124), the gain clamp (R12, R184), little-endian samples and fields (R15,
R83, R84), access to a band's or a channel's element, and the payload notation of R133.
-/

namespace Sys2Proof.Machine

open Sys2Proof

/-! ### Bands and channels -/

/-- The bands in ascending order, the order of the cascade (R232). -/
def Band.all : List Band := [.b0, .b1, .b2, .b3, .b4]

/-- Band index decoding (R124): 0 .. 4 name a band, any other index is out of range. -/
def Band.ofIndex : Nat → Option Band
  | 0 => some .b0
  | 1 => some .b1
  | 2 => some .b2
  | 3 => some .b3
  | 4 => some .b4
  | _ => none

/-- A band's index. -/
def Band.index : Band → Nat
  | .b0 => 0
  | .b1 => 1
  | .b2 => 2
  | .b3 => 3
  | .b4 => 4

/-- A band's element. -/
def PerBand.get {α : Type} (p : PerBand α) : Band → α
  | .b0 => p.b0
  | .b1 => p.b1
  | .b2 => p.b2
  | .b3 => p.b3
  | .b4 => p.b4

/-- One band's element written, the others kept (R14). -/
def PerBand.set {α : Type} (p : PerBand α) (b : Band) (x : α) : PerBand α :=
  match b with
  | .b0 => { p with b0 := x }
  | .b1 => { p with b1 := x }
  | .b2 => { p with b2 := x }
  | .b3 => { p with b3 := x }
  | .b4 => { p with b4 := x }

/-- COEF_ROM[b][g], from the parameters (R280, R281), for g in -12 .. +12. No rule reads it at another gain: SetGain
clamps first. -/
def coefRom (p : Params) (b : Band) (g : Int) : Coef := (p.coefRom.get b).getD (g + 12).toNat Coef.passthrough

/-- A channel's element. -/
def PerChannel.get {α : Type} (p : PerChannel α) : Channel → α
  | .c0 => p.c0
  | .c1 => p.c1

/-- One channel's element written, the other kept (R14). -/
def PerChannel.set {α : Type} (p : PerChannel α) (c : Channel) (x : α) : PerChannel α :=
  match c with
  | .c0 => { p with c0 := x }
  | .c1 => { p with c1 := x }

/-- HIST[b][c]. -/
def Hists.at (h : Hists) (b : Band) (c : Channel) : Hist := (h.get b).get c

/-- `HIST[b][c] <- x`. -/
def Hists.put (h : Hists) (b : Band) (c : Channel) (x : Hist) : Hists := h.set b ((h.get b).set c x)

/-! ### Integers and bytes -/

/-- `clamp(v, lo, hi)` (R12). -/
def clamp (v lo hi : Int) : Int := if v < lo then lo else if hi < v then hi else v

/-- The clamp of SetGain (R184). -/
def clampGain (v : Int) : Int := clamp v Config.gainMin Config.gainMax

/-- `le16(b0, b1)` (R15). -/
def le16 (b0 b1 : Byte) : Nat := b0.toNat + 256 * b1.toNat

/-- `le16s(b0, b1) = sext_16(le16(b0, b1))` (R15). -/
def le16s (b0 b1 : Byte) : Int := (BitVec.ofNat 16 (le16 b0 b1)).toInt

/-- `bytes_le(v, n)`: the n-byte little-endian encoding of `wrap_{8n}(v)` (R15). -/
def bytesLe (v : Int) (n : Nat) : List Byte :=
  let w := (v % (2 ^ (8 * n) : Nat)).toNat
  (List.range n).map fun j => BitVec.ofNat 8 (w >>> (8 * j))

/-! ### The payload notation of R133 -/

/-- `fill(n, hh)`. -/
def payloadFill (n : Nat) (b : Byte) : List Byte := List.replicate n b

/-- `seq(n)`: byte j is j mod 256. -/
def payloadSeq (n : Nat) : List Byte := (List.range n).map fun j => BitVec.ofNat 8 j

/-- `frames[(c0, c1), ...]`: each pair as two little-endian 16-bit samples (R83). -/
def payloadFrames : List (Int × Int) → List Byte
  | [] => []
  | (x, y) :: rest => bytesLe x 2 ++ bytesLe y 2 ++ payloadFrames rest

end Sys2Proof.Machine
end

