-- ==== Sys2Proof/Machine/Flags.lean ====
section
/-!
DEFINITION. The derived flags (R39, R52, R53), the field codes (R46, R48) and the words built of them (R56, R377).
-/

namespace Sys2Proof.Machine

open Sys2Proof

/-- EQ_ACTIVE: some band's gain is not 0 (R39). -/
def State.eqActive (s : State) : Bool := Band.all.any fun b => s.gain.get b != 0

/-- RECEIVING: data was seen and `wrap_64(NOW - LAST_DATA) < RX_WINDOW_TICKS` (R52). -/
def State.receiving (s : State) : Bool :=
  s.rxSeen && decide ((s.now - s.lastData).toNat < s.cfg.rxWindowTicks)

/-- READY: `AVAIL >= PREBUFFER_BYTES` (R53). -/
def State.ready (s : State) : Bool := decide (s.cfg.prebufferBytes ≤ s.avail.toNat)

/-- The code of SESSION (R46). -/
def Session.code : Session → BitVec 2
  | .idle => 0
  | .running => 1
  | .eof => 2
  | .stopped => 3

/-- The code of EOF_CAUSE (R48). -/
def EofCause.code : EofCause → BitVec 3
  | .none => 0
  | .closure => 1
  | .readError => 2
  | .openFailure => 3

/-- The status word of GETSTATUS (R56, R161). -/
def State.statusWord (s : State) : Word :=
  Word.ofBool s.attached
    ||| (Word.ofBool s.eqActive <<< 1)
    ||| (Word.ofBool s.eofFlag <<< 2)
    ||| (Word.ofBool s.receiving <<< 3)
    ||| (Word.ofBool s.ready <<< 4)
    ||| (s.session.code.setWidth 32 <<< 5)
    ||| (s.eofCause.code.setWidth 32 <<< 7)
    ||| (Word.ofBool s.cmdErr <<< 10)

/-- The word of FIFO.STATE: SESSION in bits 1:0, EOF_CAUSE in bits 6:4 (R377). -/
def State.stateWord (s : State) : Word :=
  s.session.code.setWidth 32 ||| (s.eofCause.code.setWidth 32 <<< 4)

/-- `sext_32(GAIN[b])` (R127, R194). -/
def State.gainWord (s : State) (b : Band) : Word := (s.gain.get b).signExtend 32

end Sys2Proof.Machine
end

