-- ==== Sys2Proof/Machine/Memory.lean ====
section
/-!
DEFINITION. FIFO_MEM as a canonical list of cells: reading and writing one byte, and the primitives MemRead and
MemWrite of R15 with their wrap modulo FIFO_CAPACITY (R81).
-/

namespace Sys2Proof.Machine

open Sys2Proof

/-- What an unlisted index reads as. The content after reset is unspecified and unobservable (R41, R90); the model
holds 00 there (log entry 6, DESIGN CHOICE, unsafe). -/
def Memory.unwritten : Byte := 0

/-- Reading one byte. -/
def Memory.read : Memory → Nat → Byte
  | [], _ => Memory.unwritten
  | (k, v) :: rest, a => if a = k then v else Memory.read rest a

/-- Writing one byte, keeping the canonical form. -/
def Memory.write : Memory → Nat → Byte → Memory
  | [], a, b => if b = Memory.unwritten then [] else [(a, b)]
  | (k, v) :: rest, a, b =>
    if a < k then (if b = Memory.unwritten then (k, v) :: rest else (a, b) :: (k, v) :: rest)
    else if a = k then (if b = Memory.unwritten then rest else (a, b) :: rest)
    else (k, v) :: Memory.write rest a b

/-- The canonical form: indices strictly rising, and no cell equal to what an unlisted index reads as. -/
def Memory.wf : Memory → Bool
  | [] => true
  | (k, v) :: rest => v != Memory.unwritten && rest.all (fun c => decide (k < c.1)) && Memory.wf rest

/-- Every listed index lies below the capacity (R95: the indices are 0 .. FIFO_CAPACITY-1). -/
def Memory.inside (cap : Nat) (m : Memory) : Bool := m.all fun c => decide (c.1 < cap)

/-- `MemRead(addr, n)`: the bytes `FIFO_MEM[(addr + j) mod FIFO_CAPACITY]` for j = 0 .. n-1 (R15). -/
def memRead (cap : Nat) (m : Memory) (addr n : Nat) : List Byte :=
  (List.range n).map fun j => Memory.read m ((addr + j) % cap)

/-- `MemWrite(addr, n, v)`: `FIFO_MEM[(addr + j) mod FIFO_CAPACITY] <- v[j]` in order of j (R15). -/
def memWrite (cap : Nat) (m : Memory) (addr : Nat) : List Byte → Memory
  | [] => m
  | b :: rest => memWrite cap (Memory.write m (addr % cap) b) (addr + 1) rest

end Sys2Proof.Machine
end

