-- ==== Sys2Proof/Machine/Ops.lean ====
section
/-!
DEFINITION. The named operations that the transactions share: answering, the one exception and its clearing, SetGain,
FifoWrite and FifoRead, the FIFO clear, the end of a session, and taking the next transaction.
-/

namespace Sys2Proof.Machine

open Sys2Proof

/-! ### The answer, and CmdError -/

/-- The answer of a transaction: the result word and the output payload (R17, R120). -/
def State.answer (s : State) (res : Word) (pout : List Byte) : State := { s with res := res, pout := pout }

/-- `raise CmdError`, the block's only exception (R16, R401): CMD_ERR is set, nothing else of the block changes, and
the answer is (0, []). Nothing is saved and control goes nowhere (R410). -/
def State.raiseCmdError (s : State) : State := State.answer { s with cmdErr := true } 0 []

/-- `CMD_ERR <- 0`: the nearest thing to a return from the exception (R162, R411). -/
def State.clearCmdErr (s : State) : State := { s with cmdErr := false }

/-! ### Taking and presenting transactions (R100, R120; log entry 4) -/

/-- The next transaction of the total order, and the state without it; none when nothing is pending. -/
def State.takeTransaction (s : State) : Option (Transaction × State) :=
  match s.pending with
  | [] => none
  | t :: rest => some (t, { s with pending := rest })

/-- A transaction presented so that it is the next to run. -/
def State.present (s : State) (t : Transaction) : State := { s with pending := t :: s.pending }

/-! ### The equalizer's control operations -/

/-- All gains 0, all filters passthrough with zero history, nothing undefined, attached (R180). -/
def State.initEq (s : State) : State :=
  { s with
    gain := PerBand.all 0
    coef := PerBand.all Coef.passthrough
    hist := PerBand.all zeroHists
    undef := PerBand.all false
    attached := true }

/-- Teardown: detached, every band's COEF and HIST marked undefined, the gains kept (R183; log entry 7). -/
def State.detachEq (s : State) : State := { s with attached := false, undef := PerBand.all true }

/-- The writes of SetGain on a gain change: the gain, zero history, the ROM's coefficients, defined (R184, R280). -/
def State.changeGain (s : State) (b : Band) (g : Int) : State :=
  { s with
    gain := s.gain.set b (BitVec.ofInt 5 g)
    hist := s.hist.set b zeroHists
    coef := s.coef.set b (coefRom s.cfg b g)
    undef := s.undef.set b false }

/-- `SetGain(b, v)` on a band in range: the gain clamped, nothing when it is unchanged (R184). -/
def State.setBandGain (s : State) (b : Band) (v : Int) : State :=
  if clampGain v = (s.gain.get b).toInt then s else s.changeGain b (clampGain v)

/-- `SetGain(b, v)` for a band index 0 .. 15; out of range it is ignored (R124, R184). -/
def State.setGain (s : State) (band : Nat) (v : Int) : State :=
  match Band.ofIndex band with
  | none => s
  | some b => s.setBandGain b v

/-- `if band <= 4: SetGain(band, GAIN[band] + d)` (R188, R190). -/
def State.stepGain (s : State) (band : Nat) (d : Int) : State :=
  match Band.ofIndex band with
  | none => s
  | some b => s.setBandGain b ((s.gain.get b).toInt + d)

/-- `for b in 0 .. 4: SetGain(b, 0)` (R192). -/
def State.flattenAll (s : State) : State := Band.all.foldl (fun t b => t.setBandGain b 0) s

/-! ### FIFO storage -/

/-- The free space, FIFO_CAPACITY - AVAIL (R88; log entry 14 for states outside R45). -/
def State.free (s : State) : Nat := s.cfg.fifoCapacity - s.avail.toNat

/-- `FifoWrite(data)`: the first bytes that fit are stored, the rest is dropped (R88). -/
def State.fifoWrite (s : State) (data : List Byte) : State :=
  let k := min data.length s.free
  { s with
    fifoMem := memWrite s.cfg.fifoCapacity s.fifoMem s.wrPos.toNat (data.take k)
    wrPos := BitVec.ofNat 32 ((s.wrPos.toNat + k) % s.cfg.fifoCapacity)
    avail := BitVec.ofNat 32 (s.avail.toNat + k) }

/-- `FifoRead(n)`: the oldest `min(n, AVAIL)` bytes, removed (R89). -/
def State.fifoRead (s : State) (n : Nat) : List Byte × State :=
  let k := min n s.avail.toNat
  (memRead s.cfg.fifoCapacity s.fifoMem s.rdPos.toNat k,
    { s with
      rdPos := BitVec.ofNat 32 ((s.rdPos.toNat + k) % s.cfg.fifoCapacity)
      avail := BitVec.ofNat 32 (s.avail.toNat - k) })

/-- The clear of FIFO.START and FIFO.RESET: the ring, the flags and the count (R300, R306). The storage's bytes stay
("without deallocating the buffer"). -/
def State.clearFifo (s : State) : State :=
  { s with
    avail := 0
    wrPos := 0
    rdPos := 0
    eofFlag := false
    eofCause := .none
    rxSeen := false
    totalRx := 0 }

/-- What FIFO.EXTRACT moves: the lesser of AVAIL and MAX_CHUNK_BYTES, aligned down to whole frames (R360). -/
def State.chunkBytes (s : State) : Nat :=
  let m := min s.avail.toNat s.cfg.maxChunkBytes
  m - m % Config.frameBytes

/-- WavHeader(k): the 44-byte container header for a payload of k bytes (R361, D39). -/
def wavHeader (k : Nat) : List Byte :=
  [0x52, 0x49, 0x46, 0x46] ++ bytesLe (36 + k) 4 ++ [0x57, 0x41, 0x56, 0x45] ++ [0x66, 0x6D, 0x74, 0x20]
    ++ bytesLe 16 4 ++ bytesLe 1 2 ++ bytesLe Config.channels 2 ++ bytesLe Config.sampleRate 4
    ++ bytesLe Config.byteRate 4 ++ bytesLe Config.frameBytes 2 ++ bytesLe Config.sampleBits 2
    ++ [0x64, 0x61, 0x74, 0x61] ++ bytesLe k 4

/-! ### The session -/

/-- An end condition of the producer side: in a running session it goes to EOF and records the cause; outside one
nothing changes (R330, R331, R333, R335, R407). -/
def State.endOfStream (s : State) (cause : EofCause) : State :=
  if s.session = .running then { s with session := .eof, eofFlag := true, eofCause := cause } else s

/-- The bookkeeping of received data: FifoWrite, TOTAL_RX by the whole payload, LAST_DATA, RX_SEEN (R331, D36). -/
def State.receive (s : State) (pin : List Byte) : State :=
  { s.fifoWrite pin with
    totalRx := s.totalRx + BitVec.ofNat 64 pin.length
    lastData := s.now
    rxSeen := true }

/-- `NOW <- wrap_64(NOW + imm)` (R338). -/
def State.advance (s : State) (ticks : Nat) : State := { s with now := s.now + BitVec.ofNat 64 ticks }

/-- The unread bytes, oldest first: what FifoRead would return if asked for all of them (R89, R91). No transaction
reads it; statements do. -/
def State.unread (s : State) : List Byte := memRead s.cfg.fifoCapacity s.fifoMem s.rdPos.toNat s.avail.toNat

end Sys2Proof.Machine
end

