-- ==== Sys2Proof/Machine/EqControl.lean ====
section
/-!
DEFINITION. The equalizer control transactions (41_eq_control.md).
-/

namespace Sys2Proof.Machine

open Sys2Proof

/-- EQ.INIT (R180). -/
def execEqInit (s : State) : Host.Outcome State Fault Refusal := .next (s.initEq.answer 0 [])

/-- EQ.DETACH (R183). -/
def execEqDetach (s : State) : Host.Outcome State Fault Refusal := .next (s.detachEq.answer 0 [])

/-- EQ.SETGAIN (R185). -/
def execEqSetGain (band : Nat) (imm : Int) (s : State) : Host.Outcome State Fault Refusal :=
  .next ((s.setGain band imm).answer 0 [])

/-- EQ.STEPUP (R188). -/
def execEqStepUp (band : Nat) (s : State) : Host.Outcome State Fault Refusal :=
  .next ((s.stepGain band Config.gainStep).answer 0 [])

/-- EQ.STEPDN (R190). -/
def execEqStepDn (band : Nat) (s : State) : Host.Outcome State Fault Refusal :=
  .next ((s.stepGain band (-Config.gainStep)).answer 0 [])

/-- EQ.FLAT (R192). -/
def execEqFlat (s : State) : Host.Outcome State Fault Refusal := .next (s.flattenAll.answer 0 [])

/-- A band query: its value for a band in range, 0 for any other index (R124, R127). -/
def bandQuery (band : Nat) (value : Band → Word) : Word :=
  match Band.ofIndex band with
  | none => 0
  | some b => value b

/-- EQ.GETGAIN (R194). -/
def execEqGetGain (band : Nat) (s : State) : Host.Outcome State Fault Refusal :=
  .next (s.answer (bandQuery band s.gainWord) [])

/-- EQ.NBANDS (R196). -/
def execEqNBands (s : State) : Host.Outcome State Fault Refusal :=
  .next (s.answer (BitVec.ofNat 32 Config.numBands) [])

/-- EQ.GETFREQ (R198). -/
def execEqGetFreq (band : Nat) (s : State) : Host.Outcome State Fault Refusal :=
  .next (s.answer (bandQuery band fun b => BitVec.ofNat 32 (bandFreq b)) [])

/-- EQ.GETTYPE (R200). -/
def execEqGetType (band : Nat) (s : State) : Host.Outcome State Fault Refusal :=
  .next (s.answer (bandQuery band fun b => BitVec.ofNat 32 (typeCode (bandType b))) [])

/-- EQ.ACTIVE (R202). -/
def execEqActive (s : State) : Host.Outcome State Fault Refusal := .next (s.answer (Word.ofBool s.eqActive) [])

end Sys2Proof.Machine
end

