-- ==== Sys2Proof/Machine/Filter.lean ====
section
/-!
DEFINITION. The equalizer's datapath (42_eq_process.md): Biquad, the cascade, SoftClip, Trunc16, and the buffer.
-/

namespace Sys2Proof.Machine

open Sys2Proof

/-- `Biquad(b, c, v)` on a band's coefficients and one channel's history: the output, and the history shifted. The nine
REAL operations are in the order of R233. -/
def biquad (k : Coef) (h : Hist) (v : F64) : F64 × Hist :=
  let y :=
    F64.sub
      (F64.sub (F64.add (F64.add (F64.mul k.b0 v) (F64.mul k.b1 h.x1)) (F64.mul k.b2 h.x2)) (F64.mul k.a1 h.y1))
      (F64.mul k.a2 h.y2)
  (y, { x1 := v, x2 := h.x1, y1 := y, y2 := h.y1 })

/-- The non-flat bands of a list applied one after the other to `v` on channel `c` (R232). A band with UNDEF set stops
with UndefState (R183), a NaN output with NonFinite (R240; log entry 9). Gains, coefficients and UNDEF are those of the
state at the transaction's start (R103); the histories are threaded through. -/
def cascade (s : State) (c : Channel) : List Band → F64 → Hists → Except Fault (F64 × Hists)
  | [], v, hs => .ok (v, hs)
  | b :: bs, v, hs =>
    if s.gain.get b = 0 then cascade s c bs v hs
    else if s.undef.get b then .error .undefState
    else
      match biquad (s.coef.get b) (hs.at b c) v with
      | (y, h) => if F64.isNaN y then .error .nonFinite else cascade s c bs y (hs.put b c h)

/-- CLIP_THRESHOLD as REAL: T of R236. -/
def clipT : F64 := F64.ofInt Config.clipThreshold

/-- CLIP_CEILING - CLIP_THRESHOLD as REAL: K of R236. -/
def clipK : F64 := F64.ofInt (Config.clipCeiling - Config.clipThreshold)

/-- `T + (K * TANH((m - T) / K))`: the compressed magnitude of an `m` above the threshold (R236). -/
def clipCurve (m : F64) : F64 := F64.add clipT (F64.mul clipK (F64.tanh (F64.div (F64.sub m clipT) clipK)))

/-- `SoftClip(v)` (R236). -/
def softClip (v : F64) : F64 :=
  if F64.lt clipT v then clipCurve v
  else if F64.lt v (F64.neg clipT) then F64.neg (clipCurve (F64.neg v))
  else v

/-- `Trunc16(r)`: rounded toward zero to an integer (R237, D13). -/
def trunc16 (r : F64) : Int := F64.truncInt r

/-- One output sample from the cascade's value, as two bytes (R236, R237, R238). -/
def sampleOut (v : F64) : List Byte := bytesLe (trunc16 (softClip v)) 2

/-- One sample: converted exactly (R235), cascaded in ascending band order, limited, truncated (R230). -/
def filterSample (s : State) (c : Channel) (b0 b1 : Byte) (hs : Hists) : Except Fault (List Byte × Hists) :=
  match cascade s c Band.all (F64.ofInt (le16s b0 b1)) hs with
  | .ok (v, hs') => .ok (sampleOut v, hs')
  | .error f => .error f

/-- One frame: channel 0, then channel 1 (R230, R234). -/
def filterFrame (s : State) (a0 a1 b0 b1 : Byte) (hs : Hists) : Except Fault (List Byte × Hists) :=
  match filterSample s .c0 a0 a1 hs with
  | .error f => .error f
  | .ok (out0, hs0) =>
    match filterSample s .c1 b0 b1 hs0 with
    | .error f => .error f
    | .ok (out1, hs1) => .ok (out0 ++ out1, hs1)

/-- A buffer frame by frame in order; the trailing bytes that are no whole frame are returned unchanged (R230, R239). -/
def filterBuffer (s : State) : List Byte → Hists → Except Fault (List Byte × Hists)
  | a0 :: a1 :: b0 :: b1 :: rest, hs =>
    match filterFrame s a0 a1 b0 b1 hs with
    | .error f => .error f
    | .ok (out, hs1) =>
      match filterBuffer s rest hs1 with
      | .error f => .error f
      | .ok (outs, hs2) => .ok (out ++ outs, hs2)
  | tail, hs => .ok (tail, hs)

end Sys2Proof.Machine
end

