-- ==== Sys2Proof/Machine/EqProcess.lean ====
section
/-!
DEFINITION. EQ.PROCESS (42_eq_process.md).
-/

namespace Sys2Proof.Machine

open Sys2Proof

/-- The filtering path of EQ.PROCESS: the buffer through the datapath, the histories it leaves written back (R230). -/
def processBuffer (pin : List Byte) (s : State) : Host.Outcome State Fault Refusal :=
  match filterBuffer s pin s.hist with
  | .ok (out, hs) => .next (State.answer { s with hist := hs } 0 out)
  | .error f => .fault f

/-- EQ.PROCESS (R230): detached or inactive, the payload comes back unchanged and nothing is written (R231). -/
def execEqProcess (pin : List Byte) (s : State) : Host.Outcome State Fault Refusal :=
  if s.attached && s.eqActive then processBuffer pin s else .next (s.answer 0 pin)

end Sys2Proof.Machine
end

