-- ==== Sys2Proof/Machine/FifoConsumer.lean ====
section
/-!
DEFINITION. The FIFO consumer transactions and queries (46_fifo_consumer.md).
-/

namespace Sys2Proof.Machine

open Sys2Proof

/-- The container of a chunk already read: header from the count delivered, then the data (R360, R362). -/
def State.answerChunk (s : State) (data : List Byte) : State :=
  s.answer (BitVec.ofNat 32 (Config.wavHeaderBytes + data.length)) (wavHeader data.length ++ data)

/-- FIFO.EXTRACT: "no data" when no whole frame is there, else the chunk behind its header (R360). -/
def execFifoExtract (s : State) : Host.Outcome State Fault Refusal :=
  if s.chunkBytes = 0 then .next (s.answer 0 [])
  else
    match s.fifoRead s.chunkBytes with
    | (data, t) => .next (t.answerChunk data)

/-- FIFO.READY (R365). -/
def execFifoReady (s : State) : Host.Outcome State Fault Refusal := .next (s.answer (Word.ofBool s.ready) [])

/-- FIFO.EOF (R367). -/
def execFifoEof (s : State) : Host.Outcome State Fault Refusal := .next (s.answer (Word.ofBool s.eofFlag) [])

/-- FIFO.RECV (R369). -/
def execFifoRecv (s : State) : Host.Outcome State Fault Refusal := .next (s.answer (Word.ofBool s.receiving) [])

/-- FIFO.AVAIL (R371). -/
def execFifoAvail (s : State) : Host.Outcome State Fault Refusal := .next (s.answer s.avail [])

/-- FIFO.TOTALLO: TOTAL_RX[31:0] (R373). -/
def execFifoTotalLo (s : State) : Host.Outcome State Fault Refusal := .next (s.answer (s.totalRx.extractLsb' 0 32) [])

/-- FIFO.TOTALHI: TOTAL_RX[63:32] (R375). -/
def execFifoTotalHi (s : State) : Host.Outcome State Fault Refusal := .next (s.answer (s.totalRx.extractLsb' 32 32) [])

/-- FIFO.STATE (R377). -/
def execFifoState (s : State) : Host.Outcome State Fault Refusal := .next (s.answer s.stateWord [])

/-- FIFO.CAP (R379). -/
def execFifoCap (s : State) : Host.Outcome State Fault Refusal :=
  .next (s.answer (BitVec.ofNat 32 s.cfg.fifoCapacity) [])

end Sys2Proof.Machine
end

