-- ==== Sys2Proof/Machine/FifoSession.lean ====
section
/-!
DEFINITION. The FIFO session transactions (44_fifo_session.md).
-/

namespace Sys2Proof.Machine

open Sys2Proof

/-- FIFO.START: nothing while running; else the clear and a running session (R300). -/
def execFifoStart (s : State) : Host.Outcome State Fault Refusal :=
  if s.session = .running then .next (s.answer 0 [])
  else .next (State.answer { s.clearFifo with session := .running } 0 [])

/-- FIFO.STOP: RUNNING and EOF go to STOPPED, everything else is kept (R303). -/
def execFifoStop (s : State) : Host.Outcome State Fault Refusal :=
  if s.session = .running ∨ s.session = .eof then .next (State.answer { s with session := .stopped } 0 [])
  else .next (s.answer 0 [])

/-- FIFO.RESET: the clear; SESSION goes to IDLE unless running (R306). -/
def execFifoReset (s : State) : Host.Outcome State Fault Refusal :=
  if s.session = .running then .next (s.clearFifo.answer 0 [])
  else .next (State.answer { s.clearFifo with session := .idle } 0 [])

end Sys2Proof.Machine
end

