-- ==== Sys2Proof/Machine/General.lean ====
section
/-!
DEFINITION. The general transactions (40_general.md): NOP, GETSTATUS, CLRERR.
-/

namespace Sys2Proof.Machine

open Sys2Proof

/-- NOP (R160). -/
def execNop (s : State) : Host.Outcome State Fault Refusal := .next (s.answer 0 [])

/-- GETSTATUS: the status word; nothing is cleared (R161). -/
def execGetStatus (s : State) : Host.Outcome State Fault Refusal := .next (s.answer s.statusWord [])

/-- CLRERR: CMD_ERR cleared (R162). -/
def execClrErr (s : State) : Host.Outcome State Fault Refusal := .next (s.clearCmdErr.answer 0 [])

end Sys2Proof.Machine
end

