-- ==== Sys2Proof/Machine/Producer.lean ====
section
/-!
DEFINITION. The producer port and the time base (45_fifo_producer.md).
-/

namespace Sys2Proof.Machine

open Sys2Proof

/-- SRC.READ: ignored outside a running session (R330); an empty payload is the producer's closure; data is stored as
far as it fits and counted whole (R331). -/
def execSrcRead (pin : List Byte) (s : State) : Host.Outcome State Fault Refusal :=
  if s.session ≠ .running then .next (s.answer 0 [])
  else if pin.isEmpty then .next ((s.endOfStream .closure).answer 0 [])
  else .next ((s.receive pin).answer 0 [])

/-- SRC.ERROR (R333). -/
def execSrcError (s : State) : Host.Outcome State Fault Refusal := .next ((s.endOfStream .readError).answer 0 [])

/-- SRC.OPENFAIL (R335). -/
def execSrcOpenFail (s : State) : Host.Outcome State Fault Refusal := .next ((s.endOfStream .openFailure).answer 0 [])

/-- SRC.WOULDBLOCK: no state change in any session state (R337). -/
def execSrcWouldBlock (s : State) : Host.Outcome State Fault Refusal := .next (s.answer 0 [])

/-- TIME.TICK (R338). -/
def execTimeTick (imm : Nat) (s : State) : Host.Outcome State Fault Refusal := .next ((s.advance imm).answer 0 [])

end Sys2Proof.Machine
end

