-- ==== Sys2Proof/Machine/Dispatch.lean ====
section
/-!
DEFINITION. exec: one arm per instruction, in the order of the opcode map (R126).
-/

namespace Sys2Proof.Machine

open Sys2Proof

/-- The meaning of a legal transaction (R130), one call per instruction. -/
def exec (i : Instr) (s : State) : Host.Outcome State Fault Refusal :=
  match i with
  | .nop => Sys2Proof.Machine.execNop s
  | .getStatus => Sys2Proof.Machine.execGetStatus s
  | .clrErr => Sys2Proof.Machine.execClrErr s
  | .eqInit => Sys2Proof.Machine.execEqInit s
  | .eqDetach => Sys2Proof.Machine.execEqDetach s
  | .eqSetGain band imm => Sys2Proof.Machine.execEqSetGain band imm s
  | .eqStepUp band => Sys2Proof.Machine.execEqStepUp band s
  | .eqStepDn band => Sys2Proof.Machine.execEqStepDn band s
  | .eqFlat => Sys2Proof.Machine.execEqFlat s
  | .eqGetGain band => Sys2Proof.Machine.execEqGetGain band s
  | .eqNBands => Sys2Proof.Machine.execEqNBands s
  | .eqGetFreq band => Sys2Proof.Machine.execEqGetFreq band s
  | .eqGetType band => Sys2Proof.Machine.execEqGetType band s
  | .eqActive => Sys2Proof.Machine.execEqActive s
  | .eqProcess pin => Sys2Proof.Machine.execEqProcess pin s
  | .fifoStart => Sys2Proof.Machine.execFifoStart s
  | .fifoStop => Sys2Proof.Machine.execFifoStop s
  | .fifoReset => Sys2Proof.Machine.execFifoReset s
  | .fifoExtract => Sys2Proof.Machine.execFifoExtract s
  | .fifoReady => Sys2Proof.Machine.execFifoReady s
  | .fifoEof => Sys2Proof.Machine.execFifoEof s
  | .fifoRecv => Sys2Proof.Machine.execFifoRecv s
  | .fifoAvail => Sys2Proof.Machine.execFifoAvail s
  | .fifoTotalLo => Sys2Proof.Machine.execFifoTotalLo s
  | .fifoTotalHi => Sys2Proof.Machine.execFifoTotalHi s
  | .fifoState => Sys2Proof.Machine.execFifoState s
  | .fifoCap => Sys2Proof.Machine.execFifoCap s
  | .srcRead pin => Sys2Proof.Machine.execSrcRead pin s
  | .srcError => Sys2Proof.Machine.execSrcError s
  | .srcOpenFail => Sys2Proof.Machine.execSrcOpenFail s
  | .srcWouldBlock => Sys2Proof.Machine.execSrcWouldBlock s
  | .timeTick imm => Sys2Proof.Machine.execTimeTick imm s

end Sys2Proof.Machine
end

