-- ==== Sys2Proof/Machine/Step.lean ====
section
/-!
DEFINITION. One step: the next transaction of the total order, decoded and executed whole (R100, R101).
-/

namespace Sys2Proof.Machine

open Sys2Proof

/-- One step. A legal transaction is executed; an illegal one raises CmdError (R130); with nothing pending the block
keeps all its state (R425). -/
def step (s : State) : Host.Outcome State Fault Refusal :=
  match s.takeTransaction with
  | none => .next s
  | some (t, s') =>
    match decode t with
    | .ok i => exec i s'
    | .error _ => .next s'.raiseCmdError

/-- The state with the transaction of a table word presented as the next to run (log entry 4). -/
def State.withFetchWord (s : State) (nbits w : Nat) : State := s.present (transactionOfTable nbits w)

end Sys2Proof.Machine
end

