-- ==== Sys2Proof/Safety.lean ====
section
/-!
DEFINITION. What counts as a safe run, in the terms the statements use: the invariants the spec states (R33, R40, R45,
R46, R48), the ones the pseudocode keeps (R183, R242, R240), which states differ in one unit only, and runs over a list
of transactions.
-/

namespace Sys2Proof

/-! ### Exact values and correct rounding (R13) -/

/-- The exact value of a finite pattern. -/
def F64.val (x : F64) : ℚ := (F64.num x : ℚ) / 2 ^ 1074

/-- A finite value of at most `X` in magnitude. -/
def F64.Bounded (X : ℚ) (x : F64) : Prop := F64.isFinite x = true ∧ |F64.val x| ≤ X

/-- The overflow threshold in units of 2^-1074: halfway from the greatest finite magnitude, (2^53 - 1) * 2^2045 units, to
2^2098 units, which would be the next one. -/
def F64.overflowUnits : Nat := (2 ^ 54 - 1) * 2 ^ 2044

/-- How far the finite magnitude `k` is from n / d units, times d. -/
def F64.distance (n d k : Nat) : Nat := ((F64.unitsOf k * d : Nat) - (n : Int)).natAbs

/-- The magnitude bits `m` are those of n / d units rounded to nearest, ties to even (R13): infinity exactly from the
overflow threshold on; else no finite magnitude is nearer, and where another is as near, `m` is the even one. -/
def F64.NearestEven (n d m : Nat) : Prop :=
  m ≤ F64.infBits ∧ (m = F64.infBits ↔ F64.overflowUnits * d ≤ n) ∧
    (m < F64.infBits → ∀ k : Nat, k < F64.infBits → k ≠ m →
      F64.distance n d m ≤ F64.distance n d k ∧ (F64.distance n d m = F64.distance n d k → m % 2 = 0))

end Sys2Proof

namespace Sys2Proof.Machine

open Sys2Proof

/-! ### Invariants -/

/-- Every gain lies in [-12, +12] (R33). -/
def State.GainsInRange (s : State) : Prop := ∀ b : Band, -12 ≤ (s.gain.get b).toInt ∧ (s.gain.get b).toInt ≤ 12

/-- The ring invariants (R45). -/
def State.RingOk (s : State) : Prop :=
  s.avail.toNat ≤ s.cfg.fifoCapacity ∧ s.wrPos.toNat < s.cfg.fifoCapacity ∧ s.rdPos.toNat < s.cfg.fifoCapacity ∧
    s.wrPos.toNat = (s.rdPos.toNat + s.avail.toNat) % s.cfg.fifoCapacity

/-- The storage is in its canonical form, at indices below FIFO_CAPACITY (R41, R95). -/
def State.MemoryOk (s : State) : Prop :=
  Memory.wf s.fifoMem = true ∧ Memory.inside s.cfg.fifoCapacity s.fifoMem = true

/-- A non-flat, defined band holds the ROM's coefficients for its gain (R40). -/
def State.CoefFollowsGain (s : State) : Prop :=
  ∀ b : Band, s.gain.get b ≠ 0 → s.undef.get b = false → s.coef.get b = coefRom s.cfg b (s.gain.get b).toInt

/-- While attached, no band is undefined (R183). -/
def State.AttachedDefined (s : State) : Prop := s.attached = true → ∀ b : Band, s.undef.get b = false

/-- EOF_FLAG is set exactly with a cause (R48), in EOF always, in IDLE and RUNNING never (R46, R300, R306, R377). -/
def State.EofCoherent (s : State) : Prop :=
  (s.eofFlag = true ↔ s.eofCause ≠ .none) ∧ (s.session = .eof → s.eofFlag = true) ∧
    (s.session = .idle ∨ s.session = .running → s.eofFlag = false)

/-- In IDLE there is no session's data: the FIFO is empty and the session's counters are clear (R46, R306). -/
def State.IdleEmpty (s : State) : Prop :=
  s.session = .idle → s.avail = 0 ∧ s.rxSeen = false ∧ s.totalRx = 0

/-- A flat band's histories are zero (R35, R242). -/
def State.FlatHistZero (s : State) : Prop := ∀ b : Band, s.gain.get b = 0 → s.hist.get b = zeroHists

/-- A history that holds no NaN. -/
def Hist.noNaN (h : Hist) : Bool := !F64.isNaN h.x1 && !F64.isNaN h.x2 && !F64.isNaN h.y1 && !F64.isNaN h.y2

/-- No stored history value is NaN (R240). -/
def State.HistNoNaN (s : State) : Prop := ∀ (b : Band) (c : Channel), (s.hist.at b c).noNaN = true

/-- The invariant every step keeps. -/
structure State.Inv (s : State) : Prop where
  cfg : s.cfg.Valid
  gains : s.GainsInRange
  ring : s.RingOk
  memory : s.MemoryOk
  coefs : s.CoefFollowsGain
  defined : s.AttachedDefined
  eof : s.EofCoherent
  idle : s.IdleEmpty
  flat : s.FlatHistZero
  noNaN : s.HistNoNaN

/-! ### Bounded filters (R240, R289) -/

/-- The form that the recursion of a row contracts: for a zero input it is multiplied by A2. -/
def energy (k : Coef) (u v : ℚ) : ℚ := u * u + F64.val k.a1 * u * v + F64.val k.a2 * v * v

/-- A band's history on one channel, as a stable row keeps it when no input exceeds `X`: the inputs at most `X`, the
outputs finite and bounded through the form (R289 (b)). -/
def BandBounded (k : Coef) (X : ℚ) (h : Hist) : Prop :=
  F64.Bounded X h.x1 ∧ F64.Bounded X h.x2 ∧ F64.isFinite h.y1 = true ∧ F64.isFinite h.y2 = true ∧
    energy k (F64.val h.y1) (F64.val h.y2) ≤ 2 ^ 23 * (X * X) ∧ |F64.val h.y2| ≤ 2 ^ 21 * X

/-- What bounds the input of a band in a run: samples are at most 2^15, and a band's output at most 2^21 times its
input. -/
def bandLimit (b : Band) : ℚ := 2 ^ (15 + 21 * b.index)

/-- The invariant under which no step stops: the invariant above, the default COEF_ROM (R240), and bounded histories in
every defined band that is not flat. -/
structure State.RunInv (s : State) : Prop where
  inv : s.Inv
  rom : s.cfg.coefRom = defaultRom
  bounded : ∀ (b : Band) (c : Channel), s.gain.get b ≠ 0 → s.undef.get b = false →
    BandBounded (s.coef.get b) (bandLimit b) (s.hist.at b c)

/-! ### Units (R1, R2) -/

/-- Two states with the same equalizer unit (R33 to R37). -/
def State.SameEq (s t : State) : Prop :=
  t.gain = s.gain ∧ t.coef = s.coef ∧ t.hist = s.hist ∧ t.undef = s.undef ∧ t.attached = s.attached

/-- Two states with the same streaming FIFO unit (R41 to R51): every byte of storage, as one canonical list. -/
def State.SameFifo (s t : State) : Prop :=
  t.fifoMem = s.fifoMem ∧ t.wrPos = s.wrPos ∧ t.rdPos = s.rdPos ∧ t.avail = s.avail ∧ t.session = s.session ∧
    t.eofFlag = s.eofFlag ∧ t.eofCause = s.eofCause ∧ t.rxSeen = s.rxSeen ∧ t.lastData = s.lastData ∧
    t.totalRx = s.totalRx

/-- Two states with the same parameters and the same pending transactions: the model's own fields but the answer. -/
def State.SameEnv (s t : State) : Prop := t.cfg = s.cfg ∧ t.pending = s.pending

/-- All but the equalizer unit and the answer is the same: every byte of storage, every session element, NOW, CMD_ERR. -/
def KeepsAllButEq (s t : State) : Prop := State.SameFifo s t ∧ t.now = s.now ∧ t.cmdErr = s.cmdErr ∧ State.SameEnv s t

/-- One band's elements are the same. -/
def SameBand (b : Band) (s t : State) : Prop :=
  t.gain.get b = s.gain.get b ∧ t.coef.get b = s.coef.get b ∧ t.hist.get b = s.hist.get b ∧
    t.undef.get b = s.undef.get b

/-- What SetGain does on the equalizer between two states, for a band index `n` and the gain `v` asked of the band it
names (R184): nothing for an index above 4 or a gain that is held already; else that band has the clamped gain, zero
histories and the ROM's row, is defined, and the other bands are as before. -/
def SetGainEffect (n : Nat) (v : Band → Int) (s t : State) : Prop :=
  t.attached = s.attached ∧ (4 < n → State.SameEq s t) ∧
    ∀ b : Band, b.index = n →
      (clamp (v b) (-12) 12 = (s.gain.get b).toInt → State.SameEq s t) ∧
        (clamp (v b) (-12) 12 ≠ (s.gain.get b).toInt →
          (t.gain.get b).toInt = clamp (v b) (-12) 12 ∧ t.hist.at b .c0 = Hist.zero ∧ t.hist.at b .c1 = Hist.zero ∧
            t.coef.get b = coefRom s.cfg b (clamp (v b) (-12) 12) ∧ t.undef.get b = false ∧
            ∀ b' : Band, b' ≠ b → SameBand b' s t)

/-- Two outcomes of one kind: next states in the relation, or the same fault, or the same refusal. -/
def OutcomesAgree (rel : State → State → Prop) (o o' : Host.Outcome State Fault Refusal) : Prop :=
  match o, o' with
  | .next t, .next t' => rel t t'
  | .fault f, .fault f' => f = f'
  | .refused r, .refused r' => r = r'
  | _, _ => False

/-- Two states with the same answer. -/
def SameAnswer (s t : State) : Prop := t.res = s.res ∧ t.pout = s.pout

/-- Two states that agree on all that one channel's samples pass through: gains, coefficients, UNDEF, ATTACHED, and that
channel's histories (R234). -/
def SameChannel (c : Channel) (s t : State) : Prop :=
  t.gain = s.gain ∧ t.coef = s.coef ∧ t.undef = s.undef ∧ t.attached = s.attached ∧
    ∀ b : Band, t.hist.at b c = s.hist.at b c

/-- Two states that differ at most in COEF of flat bands (R40). -/
def SameButFlatCoef (s t : State) : Prop :=
  t = { s with coef := t.coef } ∧ ∀ b : Band, s.gain.get b ≠ 0 → t.coef.get b = s.coef.get b

/-- Two states that differ at most in storage bytes that are not unread (R90), the storage canonical in both. -/
def SameButStale (s t : State) : Prop :=
  t = { s with fifoMem := t.fifoMem } ∧ t.unread = s.unread ∧ s.MemoryOk ∧ t.MemoryOk

/-- The instructions of the equalizer unit: opcode group 0x10 .. 0x1F (R126). -/
def isEqualizerInstr (i : Instr) : Bool :=
  decide (0x10 ≤ (cmdOp (encodeCmd i)).toNat) && decide ((cmdOp (encodeCmd i)).toNat ≤ 0x1F)

/-- The instructions of the FIFO unit and the time base: opcode groups 0x20 .. 0x3F (R126). -/
def isFifoInstr (i : Instr) : Bool := decide (0x20 ≤ (cmdOp (encodeCmd i)).toNat)

/-- The producer-port transactions (R330). -/
def isProducerInstr : Instr → Bool
  | .srcRead _ => true
  | .srcError => true
  | .srcOpenFail => true
  | .srcWouldBlock => true
  | _ => false

/-- The queries (R94): they only answer. -/
def isQueryInstr : Instr → Bool
  | .getStatus => true
  | .eqGetGain _ => true
  | .eqNBands => true
  | .eqGetFreq _ => true
  | .eqGetType _ => true
  | .eqActive => true
  | .fifoReady => true
  | .fifoEof => true
  | .fifoRecv => true
  | .fifoAvail => true
  | .fifoTotalLo => true
  | .fifoTotalHi => true
  | .fifoState => true
  | .fifoCap => true
  | _ => false

/-- The opcode values that R131 lists as reserved. -/
def reservedOpcodeValue (op : Nat) : Prop :=
  (0x03 ≤ op ∧ op ≤ 0x0F) ∨ (0x1B ≤ op ∧ op ≤ 0x1E) ∨ (0x2C ≤ op ∧ op ≤ 0x2F) ∨ (0x34 ≤ op ∧ op ≤ 0x37) ∨
    (0x39 ≤ op ∧ op ≤ 0xFF)

/-! ### The writers of each element (R58) -/

/-- The rows of R58's table. -/
inductive Element where
  | gain
  | coef
  | hist
  | undef
  | attached
  | fifoMem
  | wrPos
  | rdPos
  | avail
  | session
  | eofFlagCause
  | rxSeen
  | lastData
  | totalRx
  | now
  | cmdErr
deriving DecidableEq, Repr

/-- The four instructions that write a gain and, on a change, what follows from it (R58, R184). -/
def setsGain : Instr → Bool
  | .eqSetGain _ _ => true
  | .eqStepUp _ => true
  | .eqStepDn _ => true
  | .eqFlat => true
  | _ => false

/-- The instructions R58 lists as writers of an element. -/
def Element.writtenBy : Element → Instr → Bool
  | .gain, i => i == .eqInit || setsGain i
  | .coef, i => i == .eqInit || setsGain i
  | .hist, .eqProcess _ => true
  | .hist, i => i == .eqInit || setsGain i
  | .undef, i => i == .eqInit || i == .eqDetach || setsGain i
  | .attached, i => i == .eqInit || i == .eqDetach
  | .fifoMem, .srcRead _ => true
  | .fifoMem, _ => false
  | .wrPos, .srcRead _ => true
  | .wrPos, i => i == .fifoStart || i == .fifoReset
  | .rdPos, i => i == .fifoExtract || i == .fifoStart || i == .fifoReset
  | .avail, .srcRead _ => true
  | .avail, i => i == .fifoExtract || i == .fifoStart || i == .fifoReset
  | .session, .srcRead _ => true
  | .session, i => i == .fifoStart || i == .fifoStop || i == .fifoReset || i == .srcError || i == .srcOpenFail
  | .eofFlagCause, .srcRead _ => true
  | .eofFlagCause, i => i == .fifoStart || i == .fifoReset || i == .srcError || i == .srcOpenFail
  | .rxSeen, .srcRead _ => true
  | .rxSeen, i => i == .fifoStart || i == .fifoReset
  | .lastData, .srcRead _ => true
  | .lastData, _ => false
  | .totalRx, .srcRead _ => true
  | .totalRx, i => i == .fifoStart || i == .fifoReset
  | .now, .timeTick _ => true
  | .now, _ => false
  | .cmdErr, i => i == .clrErr

/-- An element is the same in two states. For the storage: every byte reads the same. -/
def Element.Same (e : Element) (s t : State) : Prop :=
  match e with
  | .gain => t.gain = s.gain
  | .coef => t.coef = s.coef
  | .hist => t.hist = s.hist
  | .undef => t.undef = s.undef
  | .attached => t.attached = s.attached
  | .fifoMem => ∀ a, Memory.read t.fifoMem a = Memory.read s.fifoMem a
  | .wrPos => t.wrPos = s.wrPos
  | .rdPos => t.rdPos = s.rdPos
  | .avail => t.avail = s.avail
  | .session => t.session = s.session
  | .eofFlagCause => t.eofFlag = s.eofFlag ∧ t.eofCause = s.eofCause
  | .rxSeen => t.rxSeen = s.rxSeen
  | .lastData => t.lastData = s.lastData
  | .totalRx => t.totalRx = s.totalRx
  | .now => t.now = s.now
  | .cmdErr => t.cmdErr = s.cmdErr

/-! ### The session table (R302) -/

/-- The next SESSION, as the table of R302 gives it for each transaction and state; a dash leaves it. -/
def sessionAfter : Instr → Session → Session
  | .fifoStart, .idle => .running
  | .fifoStart, .running => .running
  | .fifoStart, .eof => .running
  | .fifoStart, .stopped => .running
  | .fifoStop, .idle => .idle
  | .fifoStop, .running => .stopped
  | .fifoStop, .eof => .stopped
  | .fifoStop, .stopped => .stopped
  | .fifoReset, .idle => .idle
  | .fifoReset, .running => .running
  | .fifoReset, .eof => .idle
  | .fifoReset, .stopped => .idle
  | .srcRead [], .running => .eof
  | .srcError, .running => .eof
  | .srcOpenFail, .running => .eof
  | _, x => x

/-- The cause that R302 records when a transaction ends a running session. -/
def causeOf : Instr → EofCause
  | .srcRead [] => .closure
  | .srcError => .readError
  | .srcOpenFail => .openFailure
  | _ => .none

/-! ### One sample through the cascade, without the stops (R232, R233) -/

/-- The recurrence of R233: the nine REAL operations in its order. -/
def recurrence (k : Coef) (h : Hist) (v : F64) : F64 :=
  F64.sub
    (F64.sub (F64.add (F64.add (F64.mul k.b0 v) (F64.mul k.b1 h.x1)) (F64.mul k.b2 h.x2)) (F64.mul k.a1 h.y1))
    (F64.mul k.a2 h.y2)

/-- What band `b` makes of `v` on channel `c`: `v` itself when the band is flat. -/
def State.bandOut (s : State) (c : Channel) (b : Band) (v : F64) : F64 :=
  if s.gain.get b = 0 then v else recurrence (s.coef.get b) (s.hist.at b c) v

/-- The value that enters band `b` when the sample's value is `x`. -/
def State.bandIn (s : State) (c : Channel) (b : Band) (x : F64) : F64 :=
  match b with
  | .b0 => x
  | .b1 => s.bandOut c .b0 x
  | .b2 => s.bandOut c .b1 (s.bandOut c .b0 x)
  | .b3 => s.bandOut c .b2 (s.bandOut c .b1 (s.bandOut c .b0 x))
  | .b4 => s.bandOut c .b3 (s.bandOut c .b2 (s.bandOut c .b1 (s.bandOut c .b0 x)))

/-- The cascade's value for a sample's value `x`. -/
def State.cascadeOut (s : State) (c : Channel) (x : F64) : F64 := s.bandOut c .b4 (s.bandIn c .b4 x)

/-- |x| ≤ 2^k, and x is no NaN. -/
def within (k : Nat) (x : F64) : Bool := decide (F64.magBits x ≤ (k + 1023) * 2 ^ 52)

/-- Every non-flat band is defined, its coefficients are at most 2 in magnitude and its histories at most 2^900: far
wider than anything a run from reset holds (R289), and enough for one frame not to overflow. -/
def State.FilterBounded (s : State) : Prop :=
  ∀ b : Band, s.gain.get b ≠ 0 →
    s.undef.get b = false ∧
      (within 1 (s.coef.get b).b0 && within 1 (s.coef.get b).b1 && within 1 (s.coef.get b).b2 &&
        within 1 (s.coef.get b).a1 && within 1 (s.coef.get b).a2) = true ∧
      ∀ c : Channel, (within 900 (s.hist.at b c).x1 && within 900 (s.hist.at b c).x2 &&
        within 900 (s.hist.at b c).y1 && within 900 (s.hist.at b c).y2) = true

/-! ### Bytes -/

/-- A channel's number (R83). -/
def Channel.index : Channel → Nat
  | .c0 => 0
  | .c1 => 1

/-- The j-th 16-bit sample of a buffer, both channels counted (R83). -/
def sampleAt (bytes : List Byte) (j : Nat) : Int := le16s (bytes.getD (2 * j) 0) (bytes.getD (2 * j + 1) 0)

/-- The value of a little-endian byte list (R84). -/
def leNat : List Byte → Nat
  | [] => 0
  | b :: rest => b.toNat + 256 * leNat rest

/-- The `n` bytes of a list from `offset` on, as a little-endian number. -/
def leField (bytes : List Byte) (offset n : Nat) : Nat := leNat ((bytes.drop offset).take n)

/-! ### Runs -/

/-- Legal transactions executed in order; stops at the first that does not answer a next state. -/
def execAll : List Instr → State → Host.Outcome State Fault Refusal
  | [], s => .next s
  | i :: rest, s =>
    match exec i s with
    | .next t => execAll rest t
    | .fault f => .fault f
    | .refused r => .refused r

/-- The ticks a list of transactions adds up to (R338). -/
def ticksOf : List Instr → Nat
  | [] => 0
  | .timeTick n :: rest => n + ticksOf rest
  | _ :: rest => ticksOf rest

/-- Transactions that neither bring data nor start or clear a session: RX_SEEN and LAST_DATA stay (R58). -/
def keepsWindow : Instr → Bool
  | .srcRead pin => pin.isEmpty
  | .fifoStart => false
  | .fifoReset => false
  | _ => true

/-- Whether a transaction clears the FIFO in a state (R300, R306). -/
def clearsFifo (i : Instr) (s : State) : Bool :=
  i == .fifoReset || (i == .fifoStart && s.session != .running)

/-- What a SRC.READ stores in a state: the first bytes that fit, in a running session (R88, R330); else nothing. -/
def storedBy : Instr → State → List Byte
  | .srcRead pin, s => if s.session = .running then pin.take s.free else []
  | _, _ => []

/-- What a FIFO.EXTRACT delivered, seen in the state after it: its answer behind the 44-byte header (R360). Any other
transaction delivers nothing. -/
def deliveredBy : Instr → State → List Byte
  | .fifoExtract, t => t.pout.drop Config.wavHeaderBytes
  | _, _ => []

/-- A state with the bytes stored and the bytes delivered since the last clear. -/
structure Trace where
  state : State
  stored : List Byte
  delivered : List Byte
deriving DecidableEq, Repr

/-- A run that also collects the bytes stored and delivered, in order, and starts both anew at a clear. -/
def execTrace : List Instr → Trace → Option Trace
  | [], tr => some tr
  | i :: rest, tr =>
    match exec i tr.state with
    | .next t =>
      if clearsFifo i tr.state then execTrace rest ⟨t, [], []⟩
      else execTrace rest ⟨t, tr.stored ++ storedBy i tr.state, tr.delivered ++ deliveredBy i t⟩
    | .fault _ => none
    | .refused _ => none

/-- A list of transactions presented to a state and executed one step each (R100). -/
def State.runAll (s : State) (ts : List Transaction) : Host.Outcome State Fault Refusal :=
  Sys2Proof.core.run ts.length { s with pending := ts }

end Sys2Proof.Machine
end

