-- ==== Sys2Proof/Certificates/Slice0/Obligations.lean ====
section
/-!
DEFINITION. The statements for the provers. A statement names the rules of spec/ that it formalises; where it rests on
a choice of the model, its docstring names the log entry.
-/

open Sys2Proof Sys2Proof.Machine

/-! ### Encoding (30_encoding.md) -/

/-- Decoding an encoded well-formed instruction gives it back, whichever agent issues it (R120 to R126). -/
def Obligations.DecodeEncodeAgree : Prop :=
  ∀ i : Instr, i.wellFormed = true → ∀ a : Agent, decode { encode i with issuer := a } = .ok i

/-- The other direction: a transaction that decodes to an instruction is that instruction's encoding, and the
instruction is well-formed. So no two transactions of one issuer decode to one instruction. -/
def Obligations.DecodedTransactionIsTheEncoding : Prop :=
  ∀ (t : Transaction) (i : Instr), decode t = .ok i →
    i.wellFormed = true ∧ encodeCmd i = t.cmd ∧ encodePayload i = t.pin

/-- R130: a transaction is illegal exactly by one of the checks (a) to (d), the first that holds decides, it then does
`raise CmdError` and nothing else; and it is legal exactly when some row of R126 matches. -/
def Obligations.IllegalByTheFourChecks : Prop :=
  ∀ t : Transaction,
    (decode t = .error .reservedOpcode ↔ ∀ r ∈ opcodeMap, r.op ≠ cmdOp t.cmd) ∧
    (decode t = .error .rsvNotZero ↔ (∃ r ∈ opcodeMap, r.op = cmdOp t.cmd) ∧ cmdRsv t.cmd ≠ 0) ∧
    (decode t = .error .fieldNotZero ↔
      ∃ r ∈ opcodeMap, r.op = cmdOp t.cmd ∧ cmdRsv t.cmd = 0 ∧ zeroFieldsOk r.format t.cmd = false) ∧
    (decode t = .error .payloadNotAllowed ↔
      ∃ r ∈ opcodeMap, r.op = cmdOp t.cmd ∧ cmdRsv t.cmd = 0 ∧ zeroFieldsOk r.format t.cmd = true ∧
        r.format ≠ .p ∧ t.pin ≠ []) ∧
    ((∃ i, decode t = .ok i) ↔ ∃ r ∈ opcodeMap, rowMatches r t = true) ∧
    ∀ (e : Illegal) (s : State) (rest : List Transaction), decode t = .error e → s.pending = t :: rest →
      step s = .next { s with pending := rest, cmdErr := true, res := 0, pout := [] }

/-- The opcode map is R126's: every row's opcode, mnemonic, format, match and mask; a legal word is matched by exactly
one row and an illegal one by none; and the unassigned opcodes are those of R131. -/
def Obligations.OpcodeMapIsTheTable : Prop :=
  opcodeMap.map (fun r => (r.mnemonic, r.format, rowMatch r, formatMask r.format)) =
    [ ("NOP", .n, 0x00000000, 0xFFFFFFFF), ("GETSTATUS", .n, 0x01000000, 0xFFFFFFFF),
      ("CLRERR", .n, 0x02000000, 0xFFFFFFFF), ("EQ.INIT", .n, 0x10000000, 0xFFFFFFFF),
      ("EQ.DETACH", .n, 0x11000000, 0xFFFFFFFF), ("EQ.SETGAIN", .bi, 0x12000000, 0xFF0F0000),
      ("EQ.STEPUP", .b, 0x13000000, 0xFF0FFFFF), ("EQ.STEPDN", .b, 0x14000000, 0xFF0FFFFF),
      ("EQ.FLAT", .n, 0x15000000, 0xFFFFFFFF), ("EQ.GETGAIN", .b, 0x16000000, 0xFF0FFFFF),
      ("EQ.NBANDS", .n, 0x17000000, 0xFFFFFFFF), ("EQ.GETFREQ", .b, 0x18000000, 0xFF0FFFFF),
      ("EQ.GETTYPE", .b, 0x19000000, 0xFF0FFFFF), ("EQ.ACTIVE", .n, 0x1A000000, 0xFFFFFFFF),
      ("EQ.PROCESS", .p, 0x1F000000, 0xFFFFFFFF), ("FIFO.START", .n, 0x20000000, 0xFFFFFFFF),
      ("FIFO.STOP", .n, 0x21000000, 0xFFFFFFFF), ("FIFO.RESET", .n, 0x22000000, 0xFFFFFFFF),
      ("FIFO.EXTRACT", .n, 0x23000000, 0xFFFFFFFF), ("FIFO.READY", .n, 0x24000000, 0xFFFFFFFF),
      ("FIFO.EOF", .n, 0x25000000, 0xFFFFFFFF), ("FIFO.RECV", .n, 0x26000000, 0xFFFFFFFF),
      ("FIFO.AVAIL", .n, 0x27000000, 0xFFFFFFFF), ("FIFO.TOTALLO", .n, 0x28000000, 0xFFFFFFFF),
      ("FIFO.TOTALHI", .n, 0x29000000, 0xFFFFFFFF), ("FIFO.STATE", .n, 0x2A000000, 0xFFFFFFFF),
      ("FIFO.CAP", .n, 0x2B000000, 0xFFFFFFFF), ("SRC.READ", .p, 0x30000000, 0xFFFFFFFF),
      ("SRC.ERROR", .n, 0x31000000, 0xFFFFFFFF), ("SRC.OPENFAIL", .n, 0x32000000, 0xFFFFFFFF),
      ("SRC.WOULDBLOCK", .n, 0x33000000, 0xFFFFFFFF), ("TIME.TICK", .i, 0x38000000, 0xFFFF0000) ] ∧
  (∀ (t : Transaction) (i : Instr), decode t = .ok i →
    (opcodeMap.filter fun r => (t.cmd &&& formatMask r.format) == rowMatch r).length = 1) ∧
  (∀ t : Transaction,
    decode t = .error .reservedOpcode ∨ decode t = .error .rsvNotZero ∨ decode t = .error .fieldNotZero →
      (opcodeMap.filter fun r => (t.cmd &&& formatMask r.format) == rowMatch r) = []) ∧
  ∀ t : Transaction, decode t = .error .reservedOpcode ↔ reservedOpcodeValue (cmdOp t.cmd).toNat

/-- The encoding examples of R135, with R130's reason for each illegal one. A sanity statement. -/
def Obligations.ExampleWordsDecode : Prop :=
  ∀ a : Agent,
    decode ⟨a, 0x00000000, []⟩ = .ok .nop ∧
    decode ⟨a, 0x1220FFFA, []⟩ = .ok (.eqSetGain 2 (-6)) ∧
    decode ⟨a, 0x120003E7, []⟩ = .ok (.eqSetGain 0 999) ∧
    decode ⟨a, 0x1240FC19, []⟩ = .ok (.eqSetGain 4 (-999)) ∧
    decode ⟨a, 0x13000000, []⟩ = .ok (.eqStepUp 0) ∧
    decode ⟨a, 0x14300000, []⟩ = .ok (.eqStepDn 3) ∧
    decode ⟨a, 0x16700000, []⟩ = .ok (.eqGetGain 7) ∧
    (∀ s : State, exec (.eqGetGain 7) s = .next { s with res := 0, pout := [] }) ∧
    decode ⟨a, 0x38000BB8, []⟩ = .ok (.timeTick 3000) ∧
    decode ⟨a, 0x23000000, []⟩ = .ok .fifoExtract ∧
    decode ⟨a, 0x30000000, [0x01, 0x02]⟩ = .ok (.srcRead [0x01, 0x02]) ∧
    decode ⟨a, 0x12010000, []⟩ = .error .rsvNotZero ∧
    decode ⟨a, 0x13000001, []⟩ = .error .fieldNotZero ∧
    decode ⟨a, 0x20100000, []⟩ = .error .fieldNotZero ∧
    decode ⟨a, 0x03000000, []⟩ = .error .reservedOpcode ∧
    decode ⟨a, 0x21000000, [0x00]⟩ = .error .payloadNotAllowed

/-- R123: the band is bits 23:20, EQ.SETGAIN's value the sign-extended bits 15:0, TIME.TICK's count the zero-extended
bits 15:0; a gain wider than the field, saturated by the issuer, stores what the wider value would store. -/
def Obligations.OperandsAreTheirFields : Prop :=
  (∀ (t : Transaction) (band : Nat) (v : Int), decode t = .ok (.eqSetGain band v) →
    band = t.cmd.toNat / 2 ^ 20 % 16 ∧
      v = if t.cmd.toNat % 65536 < 32768 then (t.cmd.toNat % 65536 : Int) else (t.cmd.toNat % 65536 : Int) - 65536) ∧
  (∀ (t : Transaction) (band : Nat),
    decode t = .ok (.eqStepUp band) ∨ decode t = .ok (.eqStepDn band) ∨ decode t = .ok (.eqGetGain band) ∨
      decode t = .ok (.eqGetFreq band) ∨ decode t = .ok (.eqGetType band) →
    band = t.cmd.toNat / 2 ^ 20 % 16) ∧
  (∀ (t : Transaction) (n : Nat), decode t = .ok (.timeTick n) → n = t.cmd.toNat % 65536) ∧
  ∀ (band : Nat) (v : Int) (s : State), band < 16 →
    ∃ i, decode (encode (.eqSetGain band v)) = .ok i ∧ exec i s = exec (.eqSetGain band v) s

/-- R124: a band field of 0 .. 4 names that band; 5 .. 15 is legal, changes nothing in a write, reads as 0 in a query,
and sets no CMD_ERR. -/
def Obligations.OutOfRangeBandIsIgnored : Prop :=
  (∀ b : Band, Band.ofIndex b.index = some b) ∧
  ∀ n : Nat, 4 < n → n < 16 →
    (∀ v : Int, -32768 ≤ v → v ≤ 32767 → decode (encode (.eqSetGain n v)) = .ok (.eqSetGain n v)) ∧
    decode (encode (.eqStepUp n)) = .ok (.eqStepUp n) ∧ decode (encode (.eqStepDn n)) = .ok (.eqStepDn n) ∧
    decode (encode (.eqGetGain n)) = .ok (.eqGetGain n) ∧ decode (encode (.eqGetFreq n)) = .ok (.eqGetFreq n) ∧
    decode (encode (.eqGetType n)) = .ok (.eqGetType n) ∧
    ∀ s : State,
      (∀ v : Int, exec (.eqSetGain n v) s = .next { s with res := 0, pout := [] }) ∧
      exec (.eqStepUp n) s = .next { s with res := 0, pout := [] } ∧
      exec (.eqStepDn n) s = .next { s with res := 0, pout := [] } ∧
      exec (.eqGetGain n) s = .next { s with res := 0, pout := [] } ∧
      exec (.eqGetFreq n) s = .next { s with res := 0, pout := [] } ∧
      exec (.eqGetType n) s = .next { s with res := 0, pout := [] }

/-! ### The step (R100, R130) -/

/-- A step executes the first pending transaction's instruction on the state without that transaction, and nothing
else: the block adds nothing around it (R100, R101; `pending` is the model's form of the total order, log entry 4). -/
def Obligations.StepRunsTheDecodedInstruction : Prop :=
  ∀ (s : State) (t : Transaction) (rest : List Transaction) (i : Instr),
    s.pending = t :: rest → decode t = .ok i → step s = exec i { s with pending := rest }

/-- The block does not check who issues a transaction (R420, R415); and with nothing pending, a step of the model
changes nothing (the model's choice, log entry 4: R425 says the block keeps its state across any idle interval). -/
def Obligations.IssuerAndIdleChangeNothing : Prop :=
  (∀ (s : State) (t : Transaction) (a : Agent) (rest : List Transaction),
    step { s with pending := { t with issuer := a } :: rest } = step { s with pending := t :: rest }) ∧
  ∀ s : State, s.pending = [] → step s = .next s

/-! ### General transactions (40_general.md) -/

/-- NOP and SRC.WOULDBLOCK complete in every state and change nothing but the answer (R160, R337). -/
def Obligations.NopAndWouldBlockChangeNothing : Prop :=
  ∀ s : State, exec .nop s = .next { s with res := 0, pout := [] } ∧
    exec .srcWouldBlock s = .next { s with res := 0, pout := [] }

/-- R56: the bits of the status word; GETSTATUS changes nothing but the answer. -/
def Obligations.StatusWordBits : Prop :=
  ∀ s : State, ∃ t, exec .getStatus s = .next t ∧ t = { s with res := t.res, pout := [] } ∧
    (t.res.getLsbD 0 = s.attached) ∧
    (t.res.getLsbD 1 = true ↔ ∃ b : Band, s.gain.get b ≠ 0) ∧
    (t.res.getLsbD 2 = s.eofFlag) ∧
    (t.res.getLsbD 3 = true ↔ s.rxSeen = true ∧ (s.now - s.lastData).toNat < 3 * s.cfg.ticksPerSecond) ∧
    (t.res.getLsbD 4 = true ↔ s.cfg.prebufferBytes ≤ s.avail.toNat) ∧
    (t.res.toNat / 2 ^ 5 % 4 =
      match s.session with
      | .idle => 0
      | .running => 1
      | .eof => 2
      | .stopped => 3) ∧
    (t.res.toNat / 2 ^ 7 % 8 =
      match s.eofCause with
      | .none => 0
      | .closure => 1
      | .readError => 2
      | .openFailure => 3) ∧
    (t.res.getLsbD 10 = s.cmdErr) ∧ t.res.toNat < 2 ^ 11

/-- CLRERR clears CMD_ERR and changes nothing else but the answer (R162). -/
def Obligations.ClrErrClearsOnlyCmdErr : Prop :=
  ∀ s : State, exec .clrErr s = .next { s with cmdErr := false, res := 0, pout := [] }

/-- R401: an illegal transaction sets CMD_ERR, has no other effect and answers (0, []); CMD_ERR is sticky: no legal
transaction but CLRERR changes it; CLRERR and reset clear it. -/
def Obligations.CmdErrIsSticky : Prop :=
  (∀ (s : State) (t : Transaction) (rest : List Transaction) (e : Illegal),
    s.pending = t :: rest → decode t = .error e →
      step s = .next { s with pending := rest, cmdErr := true, res := 0, pout := [] }) ∧
  (∀ (i : Instr) (s t : State), i ≠ .clrErr → exec i s = .next t → t.cmdErr = s.cmdErr) ∧
  (∀ s : State, ∃ t, exec .clrErr s = .next t ∧ t.cmdErr = false) ∧ State.reset.cmdErr = false

/-! ### Equalizer control (41_eq_control.md) -/

/-- EQ.INIT: every gain 0, every filter passthrough with zero history and defined, attached; all else is kept (R180);
and the next EQ.PROCESS returns its buffer bit for bit (R181). -/
def Obligations.EqInitAttachesFlat : Prop :=
  ∀ s : State, ∃ t, exec .eqInit s = .next t ∧ t.res = 0 ∧ t.pout = [] ∧ t.attached = true ∧
    (∀ b : Band, t.gain.get b = 0 ∧ t.coef.get b = ⟨F64.ofInt 1, 0, 0, 0, 0⟩ ∧
      (∀ c : Channel, t.hist.at b c = ⟨0, 0, 0, 0⟩) ∧ t.undef.get b = false) ∧
    KeepsAllButEq s t ∧ ∀ pin : List Byte, exec (.eqProcess pin) t = .next { t with res := 0, pout := pin }

/-- EQ.DETACH: detached, every band's filter state undefined, the gains kept; all else is kept (R183). COEF and HIST
keep their values behind UNDEF in the model (log entry 7); no statement reads them there. -/
def Obligations.EqDetachKeepsTheGains : Prop :=
  ∀ s : State, ∃ t, exec .eqDetach s = .next t ∧ t.res = 0 ∧ t.pout = [] ∧ t.attached = false ∧
    t.gain = s.gain ∧ (∀ b : Band, t.undef.get b = true) ∧ KeepsAllButEq s t

/-- R184, for the three transactions that set one band: EQ.SETGAIN to its value, EQ.STEPUP and EQ.STEPDN to the held
gain plus and minus 2; for every band index, in or out of range. All else is kept. -/
def Obligations.SetGainRule : Prop :=
  ∀ (s : State) (n : Nat),
    (∀ v : Int, ∃ t, exec (.eqSetGain n v) s = .next t ∧ t.res = 0 ∧ t.pout = [] ∧ KeepsAllButEq s t ∧
      SetGainEffect n (fun _ => v) s t) ∧
    (∃ t, exec (.eqStepUp n) s = .next t ∧ t.res = 0 ∧ t.pout = [] ∧ KeepsAllButEq s t ∧
      SetGainEffect n (fun b => (s.gain.get b).toInt + 2) s t) ∧
    ∃ t, exec (.eqStepDn n) s = .next t ∧ t.res = 0 ∧ t.pout = [] ∧ KeepsAllButEq s t ∧
      SetGainEffect n (fun b => (s.gain.get b).toInt - 2) s t

/-- EQ.FLAT: every gain 0; a band already at 0 is kept as it is, every other gets zero histories and the gain-0 row and
is defined; ATTACHED and all else is kept; the next EQ.PROCESS returns its buffer (R192). -/
def Obligations.EqFlatFlattensEveryBand : Prop :=
  ∀ s : State, ∃ t, exec .eqFlat s = .next t ∧ t.res = 0 ∧ t.pout = [] ∧ t.attached = s.attached ∧
    KeepsAllButEq s t ∧
    (∀ b : Band, t.gain.get b = 0 ∧
      (s.gain.get b = 0 → SameBand b s t) ∧
      (s.gain.get b ≠ 0 → t.hist.at b .c0 = Hist.zero ∧ t.hist.at b .c1 = Hist.zero ∧
        t.coef.get b = coefRom s.cfg b 0 ∧ t.undef.get b = false)) ∧
    ∀ pin : List Byte, exec (.eqProcess pin) t = .next { t with res := 0, pout := pin }

/-- The equalizer's queries, in range: the gain sign-extended, the band's frequency and type code, the band count, and
whether some band is non-flat; nothing but the answer changes (R194, R196, R198, R200, R202, R38, R127). -/
def Obligations.EqualizerQueryResults : Prop :=
  ∀ s : State,
    (∀ b : Band,
      exec (.eqGetGain b.index) s = .next { s with res := BitVec.ofInt 32 (s.gain.get b).toInt, pout := [] } ∧
      exec (.eqGetFreq b.index) s =
        .next { s with
          res := match b with
            | .b0 => 60
            | .b1 => 250
            | .b2 => 1000
            | .b3 => 4000
            | .b4 => 16000
          pout := [] } ∧
      exec (.eqGetType b.index) s =
        .next { s with
          res := match b with
            | .b0 => 1
            | .b1 => 2
            | .b2 => 2
            | .b3 => 2
            | .b4 => 3
          pout := [] }) ∧
    exec .eqNBands s = .next { s with res := 5, pout := [] } ∧
    ((∀ b : Band, s.gain.get b = 0) → exec .eqActive s = .next { s with res := 0, pout := [] }) ∧
    ((∃ b : Band, s.gain.get b ≠ 0) → exec .eqActive s = .next { s with res := 1, pout := [] })

/-- The default coefficient table is stable (R289 (a), (b)): both poles of every row are complex (A1² < 4·A2) and inside the unit
circle (A2 < 1), the largest radius being band 0's at +12 dB; at gain 0 the numerator is the denominator. Exact, in
units of 2^-1074. -/
def Obligations.CoefficientTableIsStable : Prop :=
  ∀ (b : Band) (g : Int), -12 ≤ g → g ≤ 12 →
    F64.num (coefRom Params.default b g).a1 * F64.num (coefRom Params.default b g).a1 < 4 * F64.num (coefRom Params.default b g).a2 * (F64.unitsPerOne : Int) ∧
    F64.num (coefRom Params.default b g).a2 ≤ F64.num (coefRom Params.default .b0 12).a2 ∧ F64.num (coefRom Params.default b g).a2 < (F64.unitsPerOne : Int) ∧
    (g = 0 → (coefRom Params.default b g).b0 = F64.ofInt 1 ∧ (coefRom Params.default b g).b1 = (coefRom Params.default b g).a1 ∧
      (coefRom Params.default b g).b2 = (coefRom Params.default b g).a2)

/-! ### Equalizer processing (42_eq_process.md) -/

/-- R231: attached with every gain 0, EQ.PROCESS returns its buffer bit for bit and writes no state but the answer. -/
def Obligations.FastPathReturnsTheBuffer : Prop :=
  ∀ (s : State) (pin : List Byte), s.attached = true → (∀ b : Band, s.gain.get b = 0) →
    exec (.eqProcess pin) s = .next { s with res := 0, pout := pin }

/-- Detached, EQ.PROCESS returns its buffer and changes nothing else (R230); and from EQ.DETACH on it stays so until the
next EQ.INIT, whatever other transactions run between (R104, R452). -/
def Obligations.DetachedUntilInit : Prop :=
  (∀ (s : State) (pin : List Byte), s.attached = false →
    exec (.eqProcess pin) s = .next { s with res := 0, pout := pin }) ∧
  ∀ (s t u : State) (is : List Instr) (pin : List Byte),
    exec .eqDetach s = .next t → .eqInit ∉ is → execAll is t = .next u →
      exec (.eqProcess pin) u = .next { u with res := 0, pout := pin }

/-- One frame, attached and active, with bounded filter state: EQ.PROCESS completes; each channel's sample is the
cascade's value, limited and truncated (R230, R232, R235 to R238); every non-flat band's history is shifted by one
(R233), a flat band's is kept; nothing else changes. -/
def Obligations.OneFrameIsFiltered : Prop :=
  ∀ (s : State) (a0 a1 b0 b1 : Byte), s.attached = true → (∃ b : Band, s.gain.get b ≠ 0) → s.FilterBounded →
    ∃ t, exec (.eqProcess [a0, a1, b0, b1]) s = .next t ∧
      t = { s with hist := t.hist, res := 0, pout := t.pout } ∧
      t.pout = bytesLe (trunc16 (softClip (s.cascadeOut .c0 (F64.ofInt (le16s a0 a1))))) 2 ++
        bytesLe (trunc16 (softClip (s.cascadeOut .c1 (F64.ofInt (le16s b0 b1))))) 2 ∧
      ∀ b : Band,
        (s.gain.get b = 0 → t.hist.get b = s.hist.get b) ∧
        (s.gain.get b ≠ 0 →
          t.hist.at b .c0 =
            ⟨s.bandIn .c0 b (F64.ofInt (le16s a0 a1)), (s.hist.at b .c0).x1,
              recurrence (s.coef.get b) (s.hist.at b .c0) (s.bandIn .c0 b (F64.ofInt (le16s a0 a1))),
              (s.hist.at b .c0).y1⟩ ∧
          t.hist.at b .c1 =
            ⟨s.bandIn .c1 b (F64.ofInt (le16s b0 b1)), (s.hist.at b .c1).x1,
              recurrence (s.coef.get b) (s.hist.at b .c1) (s.bandIn .c1 b (F64.ofInt (le16s b0 b1))),
              (s.hist.at b .c1).y1⟩)

/-- R241: a buffer of whole frames followed by another, with no transaction between, gives what the two together give:
the same state, the outputs one after the other, and a stop where and as the parts stop. -/
def Obligations.SplitBuffersGiveTheSame : Prop :=
  ∀ (s : State) (a b : List Byte), a.length % 4 = 0 →
    exec (.eqProcess (a ++ b)) s =
      match exec (.eqProcess a) s with
      | .next t =>
        match exec (.eqProcess b) t with
        | .next u => .next { u with pout := t.pout ++ u.pout }
        | .fault f => .fault f
        | .refused r => .refused r
      | .fault f => .fault f
      | .refused r => .refused r

/-- R239: the last n mod 4 bytes are returned unchanged and enter no filter: the whole frames are processed as if those
bytes were not there. A buffer of fewer than 4 bytes completes in every state and changes nothing but the answer. -/
def Obligations.PartialFrameIsUntouched : Prop :=
  ∀ (s : State) (frames tail : List Byte), frames.length % 4 = 0 → tail.length < 4 →
    (exec (.eqProcess (frames ++ tail)) s =
      match exec (.eqProcess frames) s with
      | .next t => .next { t with pout := t.pout ++ tail }
      | .fault f => .fault f
      | .refused r => .refused r) ∧
    exec (.eqProcess tail) s = .next { s with res := 0, pout := tail }

/-- EQ.PROCESS writes HIST of non-flat bands and its answer, nothing else; its output has its input's length and ends
with the bytes that are no whole frame; and when it filters, every sample lies in [-32767, 32767] (R230, R237, R239). -/
def Obligations.ProcessFrameAndRange : Prop :=
  ∀ (s t : State) (pin : List Byte), exec (.eqProcess pin) s = .next t →
    t = { s with hist := t.hist, res := 0, pout := t.pout } ∧ t.pout.length = pin.length ∧
    (∀ b : Band, s.gain.get b = 0 → t.hist.get b = s.hist.get b) ∧
    t.pout.drop (pin.length - pin.length % 4) = pin.drop (pin.length - pin.length % 4) ∧
    (s.attached = true → (∃ b : Band, s.gain.get b ≠ 0) →
      ∀ j : Nat, 2 * j + 1 < pin.length - pin.length % 4 →
        -32767 ≤ sampleAt t.pout j ∧ sampleAt t.pout j ≤ 32767)

/-- R13: each REAL operation on finite operands is the exact result rounded once, to nearest, ties to even, with infinity
from the overflow threshold on; the sign of a sum is that of the exact one, of an exact zero sum negative only where both
terms are; the sign of a product or a quotient is negative where the operands' signs differ. `real(n)` is exact, and
comparison is that of the exact values. REAL is binary64 (log entry 16). -/
def Obligations.RealOperationsAreCorrectlyRounded : Prop :=
  (∀ x y : F64, F64.isFinite x = true → F64.isFinite y = true →
    (F64.NearestEven (F64.num x + F64.num y).natAbs 1 (F64.magBits (F64.add x y)) ∧
      F64.sign (F64.add x y) =
        if F64.num x + F64.num y = 0 then F64.sign x && F64.sign y else decide (F64.num x + F64.num y < 0)) ∧
    (F64.NearestEven (F64.num x - F64.num y).natAbs 1 (F64.magBits (F64.sub x y)) ∧
      F64.sign (F64.sub x y) =
        if F64.num x - F64.num y = 0 then F64.sign x && !F64.sign y else decide (F64.num x - F64.num y < 0)) ∧
    (F64.NearestEven (F64.num x * F64.num y).natAbs F64.unitsPerOne (F64.magBits (F64.mul x y)) ∧
      F64.sign (F64.mul x y) = (F64.sign x != F64.sign y)) ∧
    (F64.num y ≠ 0 →
      F64.NearestEven ((F64.num x).natAbs * F64.unitsPerOne) (F64.num y).natAbs (F64.magBits (F64.div x y)) ∧
        F64.sign (F64.div x y) = (F64.sign x != F64.sign y)) ∧
    (F64.lt x y = true ↔ F64.num x < F64.num y) ∧ (F64.le x y = true ↔ F64.num x ≤ F64.num y)) ∧
  ∀ n : Int, n.natAbs < 2 ^ 53 →
    F64.isFinite (F64.ofInt n) = true ∧ F64.num (F64.ofInt n) = n * F64.unitsPerOne ∧
      F64.sign (F64.ofInt n) = decide (n < 0)

/-- R236: SoftClip leaves |v| ≤ 31000 alone, compresses beyond it by its formula on either side, and TANH meets its three
requirements on u ≥ 0. -/
def Obligations.SoftClipRule : Prop :=
  (∀ v : F64, F64.lt (F64.ofInt 31000) v = true →
    softClip v = F64.add (F64.ofInt 31000)
      (F64.mul (F64.ofInt 1767) (F64.tanh (F64.div (F64.sub v (F64.ofInt 31000)) (F64.ofInt 1767))))) ∧
  (∀ v : F64, F64.lt v (F64.neg (F64.ofInt 31000)) = true →
    softClip v = F64.neg (F64.add (F64.ofInt 31000)
      (F64.mul (F64.ofInt 1767) (F64.tanh (F64.div (F64.sub (F64.neg v) (F64.ofInt 31000)) (F64.ofInt 1767)))))) ∧
  (∀ v : F64, F64.le (F64.neg (F64.ofInt 31000)) v = true → F64.le v (F64.ofInt 31000) = true → softClip v = v) ∧
  (∀ u : F64, F64.le F64.zero u = true →
    F64.le F64.zero (F64.tanh u) = true ∧ F64.le (F64.tanh u) (F64.ofInt 1) = true) ∧
  (∀ u u' : F64, F64.le F64.zero u = true → F64.le u u' = true → F64.le (F64.tanh u) (F64.tanh u') = true) ∧
  F64.tanh (F64.pack false F64.infBits) = F64.ofInt 1

/-- The limiter is odd and non-decreasing, and takes the infinities to ±32767 (from R236, R240). -/
def Obligations.SoftClipIsOddAndMonotone : Prop :=
  (∀ v : F64, F64.isNaN v = false → softClip (F64.neg v) = F64.neg (softClip v)) ∧
  (∀ v w : F64, F64.le v w = true → F64.le (softClip v) (softClip w) = true) ∧
  softClip (F64.pack false F64.infBits) = F64.ofInt 32767 ∧ softClip (F64.pack true F64.infBits) = F64.ofInt (-32767)

/-- R237: Trunc16 rounds toward zero; the limited value lies in [-32767.0, 32767.0] and the truncated one in
[-32767, 32767] for every v that is not NaN, so it fits 16 bits; and the rule's examples. -/
def Obligations.TruncatedOutputFits16Bits : Prop :=
  (∀ r : F64, F64.isNaN r = false → F64.isInf r = false →
    (trunc16 r).natAbs * F64.unitsPerOne ≤ F64.unitsOf (F64.magBits r) ∧
    F64.unitsOf (F64.magBits r) < ((trunc16 r).natAbs + 1) * F64.unitsPerOne ∧
    (F64.sign r = false → 0 ≤ trunc16 r) ∧ (F64.sign r = true → trunc16 r ≤ 0)) ∧
  (∀ v : F64, F64.isNaN v = false →
    F64.le (F64.ofInt (-32767)) (softClip v) = true ∧ F64.le (softClip v) (F64.ofInt 32767) = true ∧
    -32767 ≤ trunc16 (softClip v) ∧ trunc16 (softClip v) ≤ 32767 ∧
    sampleAt (bytesLe (trunc16 (softClip v)) 2) 0 = trunc16 (softClip v)) ∧
  trunc16 0x40DE45F99999999A = 30999 ∧ trunc16 0xBFF8000000000000 = -1 ∧ trunc16 0x40DE463FFFFF8D5E = 31000

/-- The channels never cross (R234): two EQ.PROCESS that agree on one channel's samples, from states that agree on what
that channel passes through, agree on that channel's output and histories, whatever the other channel holds; and every
instruction, in two instances with the same COEF_ROM, keeps that agreement. -/
def Obligations.ChannelsNeverCross : Prop :=
  (∀ (c : Channel) (s s' t t' : State) (pin pin' : List Byte), SameChannel c s s' → pin'.length = pin.length →
    (∀ j : Nat, j % 4 / 2 = c.index → pin'[j]? = pin[j]?) →
    exec (.eqProcess pin) s = .next t → exec (.eqProcess pin') s' = .next t' →
      (∀ j : Nat, j % 4 / 2 = c.index → t'.pout[j]? = t.pout[j]?) ∧ SameChannel c t t') ∧
  ∀ (c : Channel) (i : Instr) (s s' t t' : State), SameChannel c s s' → s'.cfg.coefRom = s.cfg.coefRom →
    exec i s = .next t → exec i s' = .next t' → SameChannel c t t' ∧ t'.cfg.coefRom = t.cfg.coefRom

/-- R242: a band that goes from 0 to a non-zero gain, filters any buffers, and goes back to 0 is flat with zero
histories; if every other band is flat too, EQ.PROCESS returns its buffer; and when the band next becomes non-flat it
starts from zero. -/
def Obligations.FlatAgainStartsFromZero : Prop :=
  ∀ (s t t' u : State) (b : Band) (v : Int) (buffers : List (List Byte)),
    s.gain.get b = 0 → clamp v (-12) 12 ≠ 0 → exec (.eqSetGain b.index v) s = .next t →
    execAll (buffers.map .eqProcess) t = .next t' → exec (.eqSetGain b.index 0) t' = .next u →
      u.gain.get b = 0 ∧ (∀ c : Channel, u.hist.at b c = Hist.zero) ∧
      ((∀ b' : Band, b' ≠ b → s.gain.get b' = 0) → ∀ pin : List Byte,
        exec (.eqProcess pin) u = .next { u with res := 0, pout := pin }) ∧
      ∀ v' : Int, clamp v' (-12) 12 ≠ 0 → ∃ w, exec (.eqSetGain b.index v') u = .next w ∧
        ∀ c : Channel, w.hist.at b c = Hist.zero

/-- R40: with a non-zero gain and UNDEF clear, COEF is the ROM's row for the gain, at reset and after every step; and
COEF of a flat band is unobservable: states that differ in nothing else answer every instruction alike and go on so. -/
def Obligations.CoefFollowsTheGain : Prop :=
  State.reset.CoefFollowsGain ∧
  (∀ s t : State, s.CoefFollowsGain → step s = .next t → t.CoefFollowsGain) ∧
  ∀ (i : Instr) (s s' : State), SameButFlatCoef s s' → OutcomesAgree SameButFlatCoef (exec i s) (exec i s')

/-- The two model-only stops, exactly where the spec names them: attached, a whole frame, the first non-flat band
undefined is UndefState (R183); that band defined with a NaN output is NonFinite (R240). -/
def Obligations.ProcessStopsByName : Prop :=
  ∀ (s : State) (b : Band) (a0 a1 b0 b1 : Byte) (rest : List Byte), s.attached = true → s.gain.get b ≠ 0 →
    (∀ b' : Band, b'.index < b.index → s.gain.get b' = 0) →
    (s.undef.get b = true → exec (.eqProcess (a0 :: a1 :: b0 :: b1 :: rest)) s = .fault .undefState) ∧
    (s.undef.get b = false →
      F64.isNaN (recurrence (s.coef.get b) (s.hist.at b .c0) (F64.ofInt (le16s a0 a1))) = true →
        exec (.eqProcess (a0 :: a1 :: b0 :: b1 :: rest)) s = .fault .nonFinite)

/-! ### The whole block -/

/-- The invariant holds at reset, with any parameters that meet R9's constraints. -/
def Obligations.InvariantHoldsAtReset : Prop :=
  State.reset.Inv ∧ ∀ p : Params, p.Valid → State.Inv { State.reset with cfg := p }

/-- Every step keeps the invariant: gains in range (R33), the ring (R45), canonical storage, COEF by the ROM (R40), no
undefined band while attached (R183), flag, cause and session in step (R46 to R48), an empty FIFO when idle, zero
histories in flat bands (R242), no NaN in a history (R240). -/
def Obligations.InvariantKeptByEveryStep : Prop :=
  ∀ s t : State, s.Inv → step s = .next t → t.Inv

/-- Only EQ.PROCESS can stop: every other transaction answers a next state in every state. EQ.PROCESS answers one too, or
stops with one of the two model-only faults, and only with NonFinite where no band is undefined while attached, as every
run keeps it (R183). Nothing is refused (R105). -/
def Obligations.OnlyEqProcessCanStop : Prop :=
  (∀ (i : Instr) (s : State), (∀ pin : List Byte, i ≠ .eqProcess pin) → ∃ t, exec i s = .next t) ∧
  (∀ (s : State) (pin : List Byte), s.AttachedDefined →
    (∃ t, exec (.eqProcess pin) s = .next t) ∨ exec (.eqProcess pin) s = .fault .nonFinite) ∧
  ∀ (s : State) (pin : List Byte),
    (∃ t, exec (.eqProcess pin) s = .next t) ∨ exec (.eqProcess pin) s = .fault .undefState ∨
      exec (.eqProcess pin) s = .fault .nonFinite

/-- No run from reset stops, whatever transactions are presented: with the default COEF_ROM no value of the datapath
overflows or becomes NaN (R240, R289), and no undefined filter state is read (R183). Step by step: the invariant with
bounded histories holds at reset, and from every state that meets it a step answers a next state that meets it. -/
def Obligations.NoRunFromResetStops : Prop :=
  (∀ p : Params, p.Valid → p.coefRom = defaultRom → State.RunInv { State.reset with cfg := p }) ∧
  (∀ s : State, s.RunInv → ∃ t, step s = .next t ∧ t.RunInv) ∧
  ∀ (p : Params) (ts : List Transaction), p.Valid → p.coefRom = defaultRom →
    ∃ t, State.runAll { State.reset with cfg := p } ts = .next t

/-- R2: the units share no data. An equalizer transaction leaves the FIFO unit alone and its effect and answer depend on
the equalizer and COEF_ROM only; a FIFO or time transaction leaves the equalizer alone and its effect and answer depend on the FIFO
unit, NOW and the parameters only; the general ones, which alone touch CMD_ERR, leave both alone. -/
def Obligations.UnitsShareNoData : Prop :=
  (∀ (i : Instr) (s s' : State), isEqualizerInstr i = true → s.SameEq s' → s'.cfg.coefRom = s.cfg.coefRom →
    OutcomesAgree (fun t t' => t.SameEq t' ∧ SameAnswer t t') (exec i s) (exec i s')) ∧
  (∀ (i : Instr) (s t : State), isEqualizerInstr i = true → exec i s = .next t → KeepsAllButEq s t) ∧
  (∀ (i : Instr) (s s' : State), isFifoInstr i = true → s.SameFifo s' → s'.now = s.now → s'.cfg = s.cfg →
    OutcomesAgree (fun t t' => t.SameFifo t' ∧ t'.now = t.now ∧ SameAnswer t t') (exec i s) (exec i s')) ∧
  (∀ (i : Instr) (s t : State), isFifoInstr i = true → exec i s = .next t →
    s.SameEq t ∧ t.cmdErr = s.cmdErr ∧ s.SameEnv t) ∧
  ∀ (i : Instr) (s t : State), isEqualizerInstr i = false → isFifoInstr i = false → exec i s = .next t →
    s.SameEq t ∧ s.SameFifo t ∧ t.now = s.now

/-- R58: a transaction that is not listed for an element leaves it unchanged, every byte of storage included; COEF, HIST
and UNDEF of a band follow a gain-setting transaction only when it changes that band's gain; an illegal transaction
writes CMD_ERR only; and no transaction writes the parameters or the pending ones. -/
def Obligations.WritersOfEachElement : Prop :=
  (∀ (e : Element) (i : Instr) (s t : State), e.writtenBy i = false → exec i s = .next t → e.Same s t) ∧
  (∀ (i : Instr) (b : Band) (s t : State), setsGain i = true → exec i s = .next t →
    t.gain.get b = s.gain.get b → SameBand b s t) ∧
  (∀ (e : Element) (s t : State) (tr : Transaction) (rest : List Transaction) (x : Illegal), e ≠ .cmdErr →
    s.pending = tr :: rest → decode tr = .error x → step s = .next t → e.Same s t) ∧
  ∀ (i : Instr) (s t : State), exec i s = .next t → s.SameEnv t

/-- The queries change nothing but the answer and are idempotent; FIFO.START while running, FIFO.STOP while neither
running nor at end-of-stream and EQ.SETGAIN to the held value change nothing but the answer either (from R94). -/
def Obligations.QueriesHaveNoSideEffect : Prop :=
  (∀ (i : Instr) (s : State), isQueryInstr i = true →
    ∃ t, exec i s = .next t ∧ t = { s with res := t.res, pout := [] } ∧ exec i t = .next t) ∧
  (∀ s : State, s.session = .running → exec .fifoStart s = .next { s with res := 0, pout := [] }) ∧
  (∀ s : State, s.session = .idle ∨ s.session = .stopped →
    exec .fifoStop s = .next { s with res := 0, pout := [] }) ∧
  ∀ (s : State) (b : Band), s.GainsInRange →
    exec (.eqSetGain b.index (s.gain.get b).toInt) s = .next { s with res := 0, pout := [] }

/-! ### The streaming FIFO (20_memory.md, 44_fifo_session.md, 45_fifo_producer.md, 46_fifo_consumer.md) -/

/-- R45: every step keeps the ring's invariants, with parameters that meet R9's constraints. -/
def Obligations.RingInvariantKept : Prop :=
  ∀ s t : State, s.cfg.Valid → s.RingOk → step s = .next t → t.RingOk

/-- The session transactions complete in every state (R300, R303, R306), and so do the end conditions of a running
session (R331, R333, R335): each with exactly these writes. -/
def Obligations.SessionTransactionResults : Prop :=
  ∀ s : State,
    (s.session = .running → exec .fifoStart s = .next { s with res := 0, pout := [] }) ∧
    (s.session ≠ .running → exec .fifoStart s =
      .next { s with
        avail := 0, wrPos := 0, rdPos := 0, eofFlag := false, eofCause := .none, rxSeen := false, totalRx := 0,
        session := .running, res := 0, pout := [] }) ∧
    (s.session = .running ∨ s.session = .eof → exec .fifoStop s =
      .next { s with session := .stopped, res := 0, pout := [] }) ∧
    (s.session = .idle ∨ s.session = .stopped → exec .fifoStop s = .next { s with res := 0, pout := [] }) ∧
    (exec .fifoReset s =
      .next { s with
        avail := 0, wrPos := 0, rdPos := 0, eofFlag := false, eofCause := .none, rxSeen := false, totalRx := 0,
        session := if s.session = .running then .running else .idle, res := 0, pout := [] }) ∧
    (s.session = .running →
      exec (.srcRead []) s =
        .next { s with session := .eof, eofFlag := true, eofCause := .closure, res := 0, pout := [] } ∧
      exec .srcError s =
        .next { s with session := .eof, eofFlag := true, eofCause := .readError, res := 0, pout := [] } ∧
      exec .srcOpenFail s =
        .next { s with session := .eof, eofFlag := true, eofCause := .openFailure, res := 0, pout := [] })

/-- R302: the next SESSION of every transaction from every state is the table's, with the cause it gives for the end of
a running session. -/
def Obligations.SessionTransitionTable : Prop :=
  ∀ (i : Instr) (s t : State), exec i s = .next t →
    t.session = sessionAfter i s.session ∧
    (s.session = .running → t.session = .eof → t.eofFlag = true ∧ t.eofCause = causeOf i)

/-- R330: outside a running session a producer-port transaction is accepted, changes nothing and answers 0. -/
def Obligations.ProducerIgnoredOutsideRunning : Prop :=
  ∀ (i : Instr) (s : State), isProducerInstr i = true → s.session ≠ .running →
    exec i s = .next { s with res := 0, pout := [] }

/-- R304: after FIFO.STOP no producer-port transaction changes any state until the next FIFO.START, whatever else runs
between. -/
def Obligations.StopSilencesTheProducer : Prop :=
  ∀ (s t u : State) (is : List Instr) (i : Instr),
    exec .fifoStop s = .next t → .fifoStart ∉ is → execAll is t = .next u → isProducerInstr i = true →
      exec i u = .next { u with res := 0, pout := [] }

/-- The first cause wins (R407, R411): once a session is no longer running, no transaction but FIFO.START and FIFO.RESET
changes EOF_FLAG or EOF_CAUSE. -/
def Obligations.FirstCauseWins : Prop :=
  ∀ (s t : State) (is : List Instr), s.session ≠ .running → .fifoStart ∉ is → .fifoReset ∉ is →
    execAll is s = .next t → t.eofFlag = s.eofFlag ∧ t.eofCause = s.eofCause

/-- R88, through SRC.READ of data in a running session: the first k bytes that fit are stored at WR_POS on, index
FIFO_CAPACITY - 1 followed by index 0; every other byte of storage reads as before; the cursor and the count advance by
k. TOTAL_RX counts every byte, LAST_DATA is NOW and RX_SEEN is set (R331); nothing else changes. -/
def Obligations.SrcReadStoresWhatFits : Prop :=
  ∀ (s : State) (pin : List Byte), s.cfg.Valid → s.RingOk → s.MemoryOk → s.session = .running → pin ≠ [] →
    ∃ t, exec (.srcRead pin) s = .next t ∧
      t = { s with
        fifoMem := t.fifoMem, wrPos := t.wrPos, avail := t.avail, totalRx := s.totalRx + BitVec.ofNat 64 pin.length,
        lastData := s.now, rxSeen := true, res := 0, pout := [] } ∧
      ∃ k, k = min pin.length (s.cfg.fifoCapacity - s.avail.toNat) ∧
        (∀ j, j < k → some (Memory.read t.fifoMem ((s.wrPos.toNat + j) % s.cfg.fifoCapacity)) = pin[j]?) ∧
        (∀ a, (∀ j, j < k → a ≠ (s.wrPos.toNat + j) % s.cfg.fifoCapacity) →
          Memory.read t.fifoMem a = Memory.read s.fifoMem a) ∧
        t.wrPos.toNat = (s.wrPos.toNat + k) % s.cfg.fifoCapacity ∧ t.avail.toNat = s.avail.toNat + k

/-- R332: SRC.READ of a and then of b, both non-empty, leaves the state that SRC.READ of both together leaves. -/
def Obligations.SplitReadIsOneRead : Prop :=
  ∀ (s t : State) (a b : List Byte), s.cfg.Valid → s.RingOk → a ≠ [] → b ≠ [] →
    exec (.srcRead a) s = .next t → exec (.srcRead b) t = exec (.srcRead (a ++ b)) s

/-- FIFO.EXTRACT (R360, R89): no whole frame, no data and no change; else the oldest m bytes, m the lesser of AVAIL and
MAX_CHUNK_BYTES down to whole frames, behind their header; those bytes leave the FIFO, the storage and all else stay.
The unread bytes are those from RD_POS on, with wrap. Where 44 + m does not fit 32 bits, for which R360 has no word, the
result word is that length modulo 2^32: the model's reading, log entry 18. -/
def Obligations.ExtractTakesTheOldestFrames : Prop :=
  ∀ (s : State) (k m : Nat), k = min s.avail.toNat s.cfg.maxChunkBytes → m = k - k % 4 →
    s.unread = (List.range s.avail.toNat).map
      (fun j => Memory.read s.fifoMem ((s.rdPos.toNat + j) % s.cfg.fifoCapacity)) ∧
    (m = 0 → exec .fifoExtract s = .next { s with res := 0, pout := [] }) ∧
    (m ≠ 0 → s.cfg.Valid →
      ∃ t, exec .fifoExtract s = .next t ∧
        t = { s with avail := t.avail, rdPos := t.rdPos, res := BitVec.ofNat 32 (44 + m), pout := t.pout } ∧
        t.pout = wavHeader m ++ s.unread.take m ∧ (s.unread.take m).length = m ∧ t.unread = s.unread.drop m ∧
        t.avail.toNat = s.avail.toNat - m ∧ t.rdPos.toNat = (s.rdPos.toNat + m) % s.cfg.fifoCapacity)

/-- R363: an extracted payload's length is a positive multiple of 4 and at most MAX_CHUNK_BYTES, and the "no data"
answer has no container. -/
def Obligations.ExtractedPayloadsAreWholeFrames : Prop :=
  ∀ s : State, ∃ t, exec .fifoExtract s = .next t ∧
    ((t.res = 0 ∧ t.pout = []) ∨
      ∃ data, t.pout = wavHeader data.length ++ data ∧ data.length % 4 = 0 ∧ 0 < data.length ∧
        data.length ≤ s.cfg.maxChunkBytes)

/-- R361: the layout of the container header, field by field, each little-endian. A length that does not fit its field
is taken modulo 2^32 (R15's bytes_le; log entry 18). -/
def Obligations.WavHeaderLayout : Prop :=
  (∀ k : Nat, (wavHeader k).length = 44 ∧
    (wavHeader k).take 4 = [0x52, 0x49, 0x46, 0x46] ∧ leField (wavHeader k) 4 4 = (36 + k) % 2 ^ 32 ∧
    ((wavHeader k).drop 8).take 4 = [0x57, 0x41, 0x56, 0x45] ∧
    ((wavHeader k).drop 12).take 4 = [0x66, 0x6D, 0x74, 0x20] ∧ leField (wavHeader k) 16 4 = 16 ∧
    leField (wavHeader k) 20 2 = 1 ∧ leField (wavHeader k) 22 2 = 2 ∧ leField (wavHeader k) 24 4 = 44100 ∧
    leField (wavHeader k) 28 4 = 176400 ∧ leField (wavHeader k) 32 2 = 4 ∧ leField (wavHeader k) 34 2 = 16 ∧
    ((wavHeader k).drop 36).take 4 = [0x64, 0x61, 0x74, 0x61] ∧ leField (wavHeader k) 40 4 = k % 2 ^ 32) ∧
  wavHeader 50000 =
    [0x52, 0x49, 0x46, 0x46, 0x74, 0xC3, 0x00, 0x00, 0x57, 0x41, 0x56, 0x45, 0x66, 0x6D, 0x74, 0x20, 0x10, 0x00, 0x00,
      0x00, 0x01, 0x00, 0x02, 0x00, 0x44, 0xAC, 0x00, 0x00, 0x10, 0xB1, 0x02, 0x00, 0x04, 0x00, 0x10, 0x00, 0x64, 0x61,
      0x74, 0x61, 0x50, 0xC3, 0x00, 0x00]

/-- R91: from any state with an empty FIFO, over any run, the bytes stored since the last clear are the bytes delivered
since then followed by the unread ones: what is delivered is a prefix of what was stored, in order. And N bytes written
into an empty FIFO, N at most the capacity, are what reading N bytes returns. -/
def Obligations.FifoOrder : Prop :=
  (∀ (s : State) (is : List Instr) (tr : Trace), s.cfg.Valid → s.RingOk → s.MemoryOk → s.avail = 0 →
    execTrace is ⟨s, [], []⟩ = some tr → tr.stored = tr.delivered ++ tr.state.unread) ∧
  ∀ (s : State) (data : List Byte), s.cfg.Valid → s.RingOk → s.MemoryOk → s.avail = 0 →
    data.length ≤ s.cfg.fifoCapacity → ((s.fifoWrite data).fifoRead data.length).1 = data

/-- R364: repeated FIFO.EXTRACT delivers every whole frame of the unread bytes and then answers "no data"; so when a
producer delivers its reads in a new session and closes, what is extracted is what the FIFO kept of them, down to whole
frames. -/
def Obligations.DrainAfterEndOfStream : Prop :=
  (∀ s : State, s.cfg.Valid → s.RingOk → s.MemoryOk →
    ∃ (n : Nat) (tr : Trace), execTrace (List.replicate n .fifoExtract) ⟨s, [], []⟩ = some tr ∧
      tr.delivered = s.unread.take (s.avail.toNat - s.avail.toNat % 4) ∧
      exec .fifoExtract tr.state = .next { tr.state with res := 0, pout := [] }) ∧
  ∀ (s : State) (reads : List (List Byte)) (kept : List Byte), s.cfg.Valid → s.RingOk → s.MemoryOk →
    s.session ≠ .running → (∀ r ∈ reads, r ≠ []) → kept = reads.flatten.take s.cfg.fifoCapacity →
    ∃ (n : Nat) (tr : Trace),
      execTrace ([.fifoStart] ++ reads.map .srcRead ++ [.srcRead []] ++ List.replicate n .fifoExtract)
        ⟨s, [], []⟩ = some tr ∧
      tr.state.eofCause = .closure ∧ tr.delivered = kept.take (kept.length - kept.length % 4) ∧
      exec .fifoExtract tr.state = .next { tr.state with res := 0, pout := [] }

/-- R90: what FIFO_MEM holds besides the unread bytes is unobservable. States that differ in nothing else answer every
instruction alike and go on so; runs from reset answer alike whatever the storage held; and every byte delivered was
stored since the last clear. -/
def Obligations.StaleStorageIsUnobservable : Prop :=
  (∀ (i : Instr) (s s' : State), s.cfg.Valid → s.RingOk → SameButStale s s' →
    OutcomesAgree SameButStale (exec i s) (exec i s')) ∧
  (∀ (m m' : Memory) (ts : List Transaction), Memory.wf m = true → Memory.wf m' = true →
    Memory.inside 882000 m = true → Memory.inside 882000 m' = true →
    OutcomesAgree SameAnswer (State.runAll { State.reset with fifoMem := m } ts)
      (State.runAll { State.reset with fifoMem := m' } ts)) ∧
  ∀ (s : State) (is : List Instr) (tr : Trace), s.cfg.Valid → s.RingOk → s.MemoryOk → s.avail = 0 →
    execTrace is ⟨s, [], []⟩ = some tr → tr.delivered <+: tr.stored

/-- The FIFO's queries: each answers its value and changes nothing else (R365 to R379, R52, R53). -/
def Obligations.FifoQueryResults : Prop :=
  ∀ s : State,
    (s.cfg.prebufferBytes ≤ s.avail.toNat → exec .fifoReady s = .next { s with res := 1, pout := [] }) ∧
    (s.avail.toNat < s.cfg.prebufferBytes → exec .fifoReady s = .next { s with res := 0, pout := [] }) ∧
    exec .fifoEof s = .next { s with res := if s.eofFlag then 1 else 0, pout := [] } ∧
    exec .fifoRecv s =
      .next { s with
        res := if s.rxSeen = true ∧ (s.now - s.lastData).toNat < 3 * s.cfg.ticksPerSecond then 1 else 0, pout := [] } ∧
    exec .fifoAvail s = .next { s with res := s.avail, pout := [] } ∧
    exec .fifoTotalLo s = .next { s with res := BitVec.ofNat 32 (s.totalRx.toNat % 2 ^ 32), pout := [] } ∧
    exec .fifoTotalHi s = .next { s with res := BitVec.ofNat 32 (s.totalRx.toNat / 2 ^ 32), pout := [] } ∧
    exec .fifoState s =
      .next { s with
        res :=
          (match s.session with
            | .idle => 0
            | .running => 1
            | .eof => 2
            | .stopped => 3) +
          (match s.eofCause with
            | .none => 0x00
            | .closure => 0x10
            | .readError => 0x20
            | .openFailure => 0x30)
        pout := [] } ∧
    exec .fifoCap s = .next { s with res := BitVec.ofNat 32 s.cfg.fifoCapacity, pout := [] }

/-- The possible answers of FIFO.STATE under the session invariant are R377's nine. -/
def Obligations.FifoStateAnswers : Prop :=
  ∀ s : State, s.EofCoherent → ∃ t, exec .fifoState s = .next t ∧
    t.res ∈ ([0x00, 0x01, 0x12, 0x22, 0x32, 0x03, 0x13, 0x23, 0x33] : List Word)

/-- TIME.TICK adds its count to NOW modulo 2^64 and changes nothing else (R338, R54). -/
def Obligations.TimeTickAdvancesNow : Prop :=
  ∀ (s : State) (n : Nat), ∃ t, exec (.timeTick n) s = .next t ∧
    t = { s with now := t.now, res := 0, pout := [] } ∧ t.now.toNat = (s.now.toNat + n) % 2 ^ 64

/-- The receiving window (R339, R52): after data in a running session, and over any later transactions that bring no data
and start or clear no session, FIFO.RECV answers 1 exactly while fewer than RX_WINDOW_TICKS ticks have passed; with no
data in the session it answers 0. -/
def Obligations.ReceivingWindow : Prop :=
  (∀ (s t u : State) (pin : List Byte) (is : List Instr), s.session = .running → pin ≠ [] →
    exec (.srcRead pin) s = .next t → is.all keepsWindow = true → execAll is t = .next u → ticksOf is < 2 ^ 64 →
      exec .fifoRecv u =
        .next { u with res := if ticksOf is < 3 * s.cfg.ticksPerSecond then 1 else 0, pout := [] }) ∧
  ∀ s : State, s.rxSeen = false → exec .fifoRecv s = .next { s with res := 0, pout := [] }

/-! ### Reset (70_reset_and_hazards.md) -/

/-- R441: the value of every element after reset; FIFO_MEM is unspecified there and has no clause. -/
def Obligations.ResetValues : Prop :=
  (∀ b : Band, State.reset.gain.get b = 0 ∧ State.reset.coef.get b = ⟨F64.ofInt 1, 0, 0, 0, 0⟩ ∧
    (∀ c : Channel, State.reset.hist.at b c = ⟨0, 0, 0, 0⟩) ∧ State.reset.undef.get b = false) ∧
  State.reset.attached = false ∧ State.reset.eqActive = false ∧ State.reset.wrPos = 0 ∧ State.reset.rdPos = 0 ∧
  State.reset.avail = 0 ∧ State.reset.session = .idle ∧ State.reset.eofFlag = false ∧
  State.reset.eofCause = .none ∧ State.reset.rxSeen = false ∧ State.reset.lastData = 0 ∧
  State.reset.totalRx = 0 ∧ State.reset.receiving = false ∧ State.reset.ready = false ∧ State.reset.now = 0 ∧
  State.reset.cmdErr = false ∧ State.reset.statusWord = 0

/-- R442: what every query, EQ.PROCESS and FIFO.EXTRACT answer right after reset, with any parameters that meet R9's
constraints. -/
def Obligations.QueriesAfterReset : Prop :=
  ∀ (p : Params) (s : State), p.Valid → s = { State.reset with cfg := p } →
    exec .getStatus s = .next { s with res := 0, pout := [] } ∧
    (∀ n : Nat, exec (.eqGetGain n) s = .next { s with res := 0, pout := [] }) ∧
    exec .eqActive s = .next { s with res := 0, pout := [] } ∧
    exec .eqNBands s = .next { s with res := 5, pout := [] } ∧
    exec .fifoReady s = .next { s with res := 0, pout := [] } ∧
    exec .fifoEof s = .next { s with res := 0, pout := [] } ∧
    exec .fifoRecv s = .next { s with res := 0, pout := [] } ∧
    exec .fifoAvail s = .next { s with res := 0, pout := [] } ∧
    exec .fifoTotalLo s = .next { s with res := 0, pout := [] } ∧
    exec .fifoTotalHi s = .next { s with res := 0, pout := [] } ∧
    exec .fifoState s = .next { s with res := 0, pout := [] } ∧
    exec .fifoCap s = .next { s with res := BitVec.ofNat 32 p.fifoCapacity, pout := [] } ∧
    (∀ pin : List Byte, exec (.eqProcess pin) s = .next { s with res := 0, pout := pin }) ∧
    exec .fifoExtract s = .next { s with res := 0, pout := [] }
end

