-- ==== Sys2Proof/Laws/Access.lean ====
section
/-!
SUPPORT. The lemmas of the element accessors: a band's and a channel's element after a write, and the band index.
-/

namespace Sys2Proof.Machine

open Sys2Proof

@[simp] theorem PerBand.get_all {α : Type} (x : α) (b : Band) : (PerBand.all x).get b = x := by cases b <;> rfl

@[simp] theorem PerBand.get_set_same {α : Type} (p : PerBand α) (b : Band) (x : α) : (p.set b x).get b = x := by
  cases b <;> rfl

@[simp] theorem PerBand.get_set_other {α : Type} (p : PerBand α) {b b' : Band} (x : α) (h : b' ≠ b) :
    (p.set b x).get b' = p.get b' := by
  cases b <;> cases b' <;> first | rfl | exact absurd rfl h

theorem PerBand.get_set {α : Type} (p : PerBand α) (b b' : Band) (x : α) :
    (p.set b x).get b' = if b' = b then x else p.get b' := by
  cases b <;> cases b' <;> rfl

theorem PerBand.ext_get {α : Type} {p q : PerBand α} (h : ∀ b, p.get b = q.get b) : p = q := by
  have h0 := h .b0; have h1 := h .b1; have h2 := h .b2; have h3 := h .b3; have h4 := h .b4
  cases p; cases q
  simp_all [PerBand.get]

@[simp] theorem PerChannel.get_set_same {α : Type} (p : PerChannel α) (c : Channel) (x : α) :
    (p.set c x).get c = x := by cases c <;> rfl

@[simp] theorem PerChannel.get_set_other {α : Type} (p : PerChannel α) {c c' : Channel} (x : α) (h : c' ≠ c) :
    (p.set c x).get c' = p.get c' := by
  cases c <;> cases c' <;> first | rfl | exact absurd rfl h

@[simp] theorem Hists.at_put_same (h : Hists) (b : Band) (c : Channel) (x : Hist) : (h.put b c x).at b c = x := by
  simp [Hists.at, Hists.put]

/-- A write to one band's history on one channel leaves every other (band, channel) alone. -/
theorem Hists.at_put_other (h : Hists) {b b' : Band} {c c' : Channel} (x : Hist) (hne : b' ≠ b ∨ c' ≠ c) :
    (h.put b c x).at b' c' = h.at b' c' := by
  cases b <;> cases b' <;> cases c <;> cases c' <;> first | rfl | simp at hne

@[simp] theorem Hists.at_zero (b : Band) (c : Channel) : Hists.at (PerBand.all zeroHists) b c = Hist.zero := by
  cases b <;> cases c <;> rfl

@[simp] theorem Band.ofIndex_index (b : Band) : Band.ofIndex b.index = some b := by cases b <;> rfl

/-- An index names a band exactly when it is at most 4, and then its own (R124). -/
theorem Band.ofIndex_eq_some {i : Nat} {b : Band} : Band.ofIndex i = some b ↔ i = b.index := by
  constructor
  · intro h
    match i with
    | 0 | 1 | 2 | 3 | 4 => cases b <;> simp_all [Band.ofIndex, Band.index]
    | _ + 5 => simp [Band.ofIndex] at h
  · rintro rfl; simp

theorem Band.ofIndex_eq_none {i : Nat} : Band.ofIndex i = none ↔ 4 < i := by
  match i with
  | 0 | 1 | 2 | 3 | 4 => simp [Band.ofIndex]
  | _ + 5 => simp [Band.ofIndex]

theorem Band.mem_all (b : Band) : b ∈ Band.all := by cases b <;> simp [Band.all]

/-- A read of COEF_ROM gives one of the band's rows. -/
theorem coefRom_mem {p : Params} (hp : p.RomValid) (b : Band) {g : Int} (h : g ≤ 12) :
    coefRom p b g ∈ p.coefRom.get b := by
  have hi : (g + 12).toNat < (p.coefRom.get b).length := by
    obtain ⟨h0, h1, h2, h3, h4⟩ := hp
    cases b <;> simp only [PerBand.get] <;> omega
  rw [coefRom, List.getD_eq_getElem _ _ hi]
  exact List.getElem_mem hi

/-- The clamp's result lies in the gain range (R184). -/
theorem clampGain_range (v : Int) : -12 ≤ clampGain v ∧ clampGain v ≤ 12 := by
  simp only [clampGain, clamp, Config.gainMin, Config.gainMax]
  split_ifs <;> omega

/-- The clamp leaves a gain in range as it is (R12). -/
theorem clampGain_of_range {v : Int} (h : -12 ≤ v ∧ v ≤ 12) : clampGain v = v := by
  simp only [clampGain, clamp, Config.gainMin, Config.gainMax]
  split_ifs <;> omega

/-- A gain in range survives its 5-bit field (R33). -/
theorem gain_field_toInt {g : Int} (h : -12 ≤ g ∧ g ≤ 12) : (BitVec.ofInt 5 g).toInt = g := by
  rw [BitVec.toInt_ofInt]
  simp only [Int.bmod]
  split <;> omega

@[simp] theorem bytesLe_length (v : Int) (n : Nat) : (bytesLe v n).length = n := by simp [bytesLe]

/-- A 16-bit integer stored little-endian reads back (R15, R238). -/
theorem le16s_bytesLe {n : Int} (h : -32768 ≤ n ∧ n < 32768) :
    ∃ b0 b1, bytesLe n 2 = [b0, b1] ∧ le16s b0 b1 = n := by
  obtain ⟨w, hw⟩ : ∃ w : Nat, w = (n % 65536).toNat := ⟨_, rfl⟩
  refine ⟨BitVec.ofNat 8 w, BitVec.ofNat 8 (w / 256), ?_, ?_⟩
  · rw [hw]; simp [bytesLe, List.range_succ, Nat.shiftRight_eq_div_pow]
  · simp [le16s, le16, BitVec.toInt]
    omega

end Sys2Proof.Machine
end

