-- ==== Sys2Proof/Laws/Decode.lean ====
section
/-!
SUPPORT. The fields of an encoded command word, and the legality of what the encoder writes.
-/

namespace Sys2Proof

@[simp] theorem cmdOp_encodeWord (op : BitVec 8) (band : BitVec 4) (imm : BitVec 16) :
    cmdOp (encodeWord op band imm) = op := by
  apply BitVec.eq_of_getLsbD_eq
  intro i hi
  simp only [cmdOp, encodeWord, BitVec.getLsbD_extractLsb', BitVec.getLsbD_append]
  have h1 : ¬ (24 + i < 16) := by omega
  have h2 : ¬ (24 + i - 16 < 4) := by omega
  have h3 : ¬ (24 + i - 16 - 4 < 4) := by omega
  simp [h1, h2, h3, hi, show 24 + i - 16 - 4 - 4 = i by omega]

@[simp] theorem cmdBand_encodeWord (op : BitVec 8) (band : BitVec 4) (imm : BitVec 16) :
    cmdBand (encodeWord op band imm) = band := by
  apply BitVec.eq_of_getLsbD_eq
  intro i hi
  simp only [cmdBand, encodeWord, BitVec.getLsbD_extractLsb', BitVec.getLsbD_append]
  have h1 : ¬ (20 + i < 16) := by omega
  have h2 : ¬ (20 + i - 16 < 4) := by omega
  have h3 : 20 + i - 16 - 4 < 4 := by omega
  simp [h1, h2, hi, show 20 + i - 16 - 4 = i by omega]

@[simp] theorem cmdRsv_encodeWord (op : BitVec 8) (band : BitVec 4) (imm : BitVec 16) :
    cmdRsv (encodeWord op band imm) = 0 := by
  apply BitVec.eq_of_getLsbD_eq
  intro i hi
  simp only [cmdRsv, encodeWord, BitVec.getLsbD_extractLsb', BitVec.getLsbD_append]
  simp [hi]

@[simp] theorem cmdImm_encodeWord (op : BitVec 8) (band : BitVec 4) (imm : BitVec 16) :
    cmdImm (encodeWord op band imm) = imm := by
  apply BitVec.eq_of_getLsbD_eq
  intro i hi
  simp only [cmdImm, encodeWord, BitVec.getLsbD_extractLsb', BitVec.getLsbD_append]
  simp [hi]

/-- A band index that fits its field survives it (R123). -/
theorem bandField_toNat {band : Nat} (h : bandFits band = true) : (BitVec.ofNat 4 band).toNat = band := by
  simp only [bandFits, decide_eq_true_eq] at h
  rw [BitVec.toNat_ofNat]; exact Nat.mod_eq_of_lt h

/-- A gain that fits the immediate survives it (R123). -/
theorem gainImmField_toInt {imm : Int} (h : gainImmFits imm = true) :
    (BitVec.ofInt 16 (saturateImm imm)).toInt = imm := by
  simp only [gainImmFits, Bool.and_eq_true, decide_eq_true_eq] at h
  rw [BitVec.toInt_ofInt]
  simp only [saturateImm, Int.bmod]
  split_ifs <;> omega

/-- A tick count that fits the immediate survives it (R123). -/
theorem tickImmField_toNat {imm : Nat} (h : tickImmFits imm = true) : (BitVec.ofNat 16 imm).toNat = imm := by
  simp only [tickImmFits, decide_eq_true_eq] at h
  rw [BitVec.toNat_ofNat]; exact Nat.mod_eq_of_lt h

/-! ### What the decoder can answer (R130) -/

/-- Every row of the opcode map is the row found for its opcode: the opcodes are pairwise different. -/
theorem opcodeRow_of_mem : ∀ r ∈ opcodeMap, opcodeRow r.op = some r := by
  intro r hr
  simp only [opcodeMap, generalRows, equalizerRows, fifoRows, producerRows, List.cons_append, List.nil_append,
    List.mem_cons, List.not_mem_nil, or_false] at hr
  rcases hr with rfl | rfl | rfl | rfl | rfl | rfl | rfl | rfl | rfl | rfl | rfl | rfl | rfl | rfl | rfl | rfl | rfl |
    rfl | rfl | rfl | rfl | rfl | rfl | rfl | rfl | rfl | rfl | rfl | rfl | rfl | rfl | rfl <;> rfl

theorem opcodeRow_eq_none {op : BitVec 8} : opcodeRow op = none ↔ ∀ r ∈ opcodeMap, r.op ≠ op := by
  simp [opcodeRow, List.find?_eq_none]

theorem opcodeRow_eq_some {op : BitVec 8} {r : OpRow} : opcodeRow op = some r ↔ r ∈ opcodeMap ∧ r.op = op := by
  constructor
  · intro h; exact ⟨List.mem_of_find?_eq_some h, by simpa using List.find?_some h⟩
  · rintro ⟨h, rfl⟩; exact opcodeRow_of_mem r h

/-- The decoder's answer: no row; or the opcode's one row with the first check that fails, or its instruction. -/
theorem decode_cases (t : Transaction) :
    (opcodeRow (cmdOp t.cmd) = none ∧ decode t = .error .reservedOpcode) ∨
      ∃ r, opcodeRow (cmdOp t.cmd) = some r ∧
        ((cmdRsv t.cmd ≠ 0 ∧ decode t = .error .rsvNotZero) ∨
          (cmdRsv t.cmd = 0 ∧ zeroFieldsOk r.format t.cmd = false ∧ decode t = .error .fieldNotZero) ∨
          (cmdRsv t.cmd = 0 ∧ zeroFieldsOk r.format t.cmd = true ∧ payloadOk r.format t.pin = false ∧
            decode t = .error .payloadNotAllowed) ∨
          (cmdRsv t.cmd = 0 ∧ zeroFieldsOk r.format t.cmd = true ∧ payloadOk r.format t.pin = true ∧
            decode t = .ok (r.build (operandsOf t)))) := by
  cases h : opcodeRow (cmdOp t.cmd) with
  | none => exact .inl ⟨rfl, by simp [decode, h]⟩
  | some r =>
    refine .inr ⟨r, rfl, ?_⟩
    by_cases hr : cmdRsv t.cmd = 0
    · cases hz : zeroFieldsOk r.format t.cmd <;> cases hp : payloadOk r.format t.pin <;> simp [decode, h, hr, hz, hp]
    · exact .inl ⟨hr, by simp only [decode, h, ne_eq, hr, not_false_eq_true, if_true]⟩

end Sys2Proof
end

