-- ==== Sys2Proof/Laws/Real.lean ====
section
/-!
SUPPORT. What the REAL operations rest on: packing and unpacking, the rounding of a quotient of units (exact on
representable magnitudes, monotone, within half a last place), and TANH's three requirements (R13, R236).
-/

namespace Sys2Proof

/-! ### Packing -/

theorem F64.magBits_lt (x : F64) : F64.magBits x < 2 ^ 63 := by
  have := Nat.mod_lt x.toNat (show 0 < 0x8000000000000000 by decide)
  simpa [F64.magBits] using this

theorem F64.toNat_pack (neg : Bool) {mag : Nat} (h : mag < 2 ^ 63) :
    (F64.pack neg mag).toNat = (if neg then 2 ^ 63 else 0) + mag := by
  cases neg <;> (simp [F64.pack]; omega)

@[simp] theorem F64.magBits_pack (neg : Bool) {mag : Nat} (h : mag < 2 ^ 63) : F64.magBits (F64.pack neg mag) = mag := by
  rw [F64.magBits, F64.toNat_pack neg h]
  cases neg <;> (simp; try omega)

@[simp] theorem F64.sign_pack (neg : Bool) {mag : Nat} (h : mag < 2 ^ 63) : F64.sign (F64.pack neg mag) = neg := by
  rw [F64.sign, BitVec.msb_eq_decide, F64.toNat_pack neg h]
  cases neg <;> (simp; try omega)

theorem F64.infBits_lt : F64.infBits < 2 ^ 63 := by decide

/-- A value is its sign and its magnitude. -/
theorem F64.pack_self (x : F64) : F64.pack (F64.sign x) (F64.magBits x) = x := by
  apply BitVec.eq_of_toNat_eq
  rw [F64.toNat_pack _ (F64.magBits_lt x), F64.sign, BitVec.msb_eq_decide, F64.magBits]
  have := x.isLt
  simp only [decide_eq_true_eq]
  split_ifs <;> omega

@[simp] theorem F64.magBits_neg (x : F64) : F64.magBits (F64.neg x) = F64.magBits x :=
  F64.magBits_pack _ (F64.magBits_lt x)

@[simp] theorem F64.sign_neg (x : F64) : F64.sign (F64.neg x) = !F64.sign x := F64.sign_pack _ (F64.magBits_lt x)

@[simp] theorem F64.isNaN_neg (x : F64) : F64.isNaN (F64.neg x) = F64.isNaN x := by simp [F64.isNaN]

/-- A packed magnitude up to infinity is no NaN. -/
theorem F64.isNaN_pack (neg : Bool) {mag : Nat} (h : mag ≤ F64.infBits) : F64.isNaN (F64.pack neg mag) = false := by
  rw [F64.isNaN, F64.magBits_pack neg (lt_of_le_of_lt h F64.infBits_lt)]
  simpa using h

/-! ### Rounding a quotient to an integer -/

theorem roundHalfEven_ge (n d : Nat) : n / d ≤ roundHalfEven n d := by
  simp only [roundHalfEven]; split_ifs <;> omega

theorem roundHalfEven_le (n d : Nat) : roundHalfEven n d ≤ n / d + 1 := by
  simp only [roundHalfEven]; split_ifs <;> omega

/-- The rounded quotient is within half of the exact one. -/
theorem roundHalfEven_error (n : Nat) {d : Nat} (hd : 0 < d) :
    2 * n ≤ 2 * (roundHalfEven n d * d) + d ∧ 2 * (roundHalfEven n d * d) ≤ 2 * n + d := by
  have hn := Nat.div_add_mod n d
  have hr := Nat.mod_lt n hd
  rw [Nat.mul_comm] at hn
  have h1 : (n / d + 1) * d = n / d * d + d := by ring
  simp only [roundHalfEven]
  split_ifs with ha hb
  · rw [h1]; omega
  · rcases Nat.mod_two_eq_zero_or_one (n / d) with h | h <;> rw [h]
    · simp only [Nat.add_zero]; omega
    · rw [h1]; omega
  · omega

theorem roundHalfEven_mono {n n' d : Nat} (h : n ≤ n') : roundHalfEven n d ≤ roundHalfEven n' d := by
  have hq : n / d ≤ n' / d := Nat.div_le_div_right h
  rcases Nat.lt_or_eq_of_le hq with hlt | heq
  · exact le_trans (roundHalfEven_le n d) (le_trans hlt (roundHalfEven_ge n' d))
  · have h1 := Nat.div_add_mod n d
    have h2 := Nat.div_add_mod n' d
    rw [heq] at h1
    have hr : n % d ≤ n' % d := by omega
    simp only [roundHalfEven, heq]
    split_ifs <;> omega

@[simp] theorem roundHalfEven_mul (q : Nat) {d : Nat} (hd : 0 < d) : roundHalfEven (q * d) d = q := by
  simp only [roundHalfEven, Nat.mul_mod_left, Nat.mul_div_cancel q hd]
  split_ifs <;> omega

/-! ### Rounding to a magnitude -/

/-- The magnitude bits before the cut at infinity. -/
def F64.encodeUnits (n d : Nat) : Nat :=
  F64.shiftOf (n / d) * 2 ^ 52 + roundHalfEven n (d * 2 ^ F64.shiftOf (n / d))

theorem F64.roundUnits_eq (n d : Nat) : F64.roundUnits n d = min (F64.encodeUnits n d) F64.infBits := by
  simp [F64.roundUnits, F64.encodeUnits, Nat.shiftLeft_eq]

theorem F64.roundUnits_le_inf (n d : Nat) : F64.roundUnits n d ≤ F64.infBits := by
  rw [F64.roundUnits_eq]; exact Nat.min_le_right _ _

theorem F64.roundUnits_lt (n d : Nat) : F64.roundUnits n d < 2 ^ 63 :=
  lt_of_le_of_lt (F64.roundUnits_le_inf n d) F64.infBits_lt

/-- The significand that a shift leaves has at most 53 bits, and 53 when anything is dropped. -/
theorem F64.significand_bounds (q : Nat) :
    q / 2 ^ F64.shiftOf q < 2 ^ 53 ∧ (0 < F64.shiftOf q → 2 ^ 52 ≤ q / 2 ^ F64.shiftOf q) := by
  rcases Nat.eq_zero_or_pos q with rfl | hq
  · simp [F64.shiftOf]
  · have h1 : 2 ^ q.log2 ≤ q := Nat.log2_self_le (by omega)
    have h2 : q < 2 ^ (q.log2 + 1) := Nat.lt_log2_self
    unfold F64.shiftOf
    constructor
    · rw [Nat.div_lt_iff_lt_mul (by positivity), ← pow_add]
      exact lt_of_lt_of_le h2 (Nat.pow_le_pow_right (by norm_num) (by omega))
    · intro hs
      rw [Nat.le_div_iff_mul_le (by positivity), ← pow_add]
      exact le_trans (Nat.pow_le_pow_right (by norm_num) (by omega)) h1

theorem F64.shiftOf_mono {q q' : Nat} (h : q ≤ q') : F64.shiftOf q ≤ F64.shiftOf q' := by
  have : q.log2 ≤ q'.log2 := by
    rw [Nat.log2_eq_log_two, Nat.log2_eq_log_two]; exact Nat.log_mono_right h
  unfold F64.shiftOf; omega

/-- The rounded significand of a quotient lies between 0 and 2^53, from 2^52 when anything is dropped. -/
theorem F64.rounded_significand_bounds (n d : Nat) :
    roundHalfEven n (d * 2 ^ F64.shiftOf (n / d)) ≤ 2 ^ 53 ∧
      (0 < F64.shiftOf (n / d) → 2 ^ 52 ≤ roundHalfEven n (d * 2 ^ F64.shiftOf (n / d))) := by
  have hb := F64.significand_bounds (n / d)
  rw [Nat.div_div_eq_div_mul] at hb
  exact ⟨le_trans (roundHalfEven_le _ _) hb.1, fun h => le_trans (hb.2 h) (roundHalfEven_ge _ _)⟩

theorem F64.encodeUnits_mono {n n' d : Nat} (h : n ≤ n') :
    F64.encodeUnits n d ≤ F64.encodeUnits n' d := by
  have hs : F64.shiftOf (n / d) ≤ F64.shiftOf (n' / d) := F64.shiftOf_mono (Nat.div_le_div_right h)
  rcases Nat.lt_or_eq_of_le hs with hlt | heq
  · have h1 := (F64.rounded_significand_bounds n d).1
    have h2 := (F64.rounded_significand_bounds n' d).2 (by omega)
    simp only [F64.encodeUnits]
    have : (F64.shiftOf (n / d) + 1) * 2 ^ 52 ≤ F64.shiftOf (n' / d) * 2 ^ 52 := Nat.mul_le_mul_right _ hlt
    omega
  · simp only [F64.encodeUnits, heq]
    exact Nat.add_le_add_left (roundHalfEven_mono h) _

theorem F64.roundUnits_mono {n n' d : Nat} (h : n ≤ n') : F64.roundUnits n d ≤ F64.roundUnits n' d := by
  rw [F64.roundUnits_eq, F64.roundUnits_eq]
  have := F64.encodeUnits_mono (d := d) h
  omega

/-- The magnitude that `shift` and a significand encode. -/
theorem F64.unitsOf_encode {shift sig : Nat} (h : sig ≤ 2 ^ 53) (h' : 0 < shift → 2 ^ 52 ≤ sig) :
    F64.unitsOf (shift * 2 ^ 52 + sig) = sig * 2 ^ shift := by
  unfold F64.unitsOf
  split_ifs with hlt
  · have : shift = 0 := by
      by_contra hc
      have := h' (by omega)
      have : 1 * 2 ^ 52 ≤ shift * 2 ^ 52 := Nat.mul_le_mul_right _ (by omega)
      omega
    subst this; simp
  · have hge : 2 ^ 52 ≤ sig := by
      rcases Nat.eq_zero_or_pos shift with rfl | hp
      · omega
      · exact h' hp
    rw [Nat.shiftLeft_eq]
    rcases Nat.lt_or_eq_of_le h with hs | hs
    · have h1 : (shift * 2 ^ 52 + sig) / 2 ^ 52 = shift + 1 := by omega
      have h2 : (shift * 2 ^ 52 + sig) % 2 ^ 52 = sig - 2 ^ 52 := by omega
      rw [h1, h2]; congr 1; omega
    · subst hs
      have h1 : (shift * 2 ^ 52 + 2 ^ 53) / 2 ^ 52 = shift + 2 := by omega
      have h2 : (shift * 2 ^ 52 + 2 ^ 53) % 2 ^ 52 = 0 := by omega
      rw [h1, h2, show shift + 2 - 1 = shift + 1 by omega, pow_succ]; ring

/-- A rounded magnitude, back in units: the rounded significand times its last place. -/
theorem F64.unitsOf_encodeUnits (n d : Nat) :
    F64.unitsOf (F64.encodeUnits n d) =
      roundHalfEven n (d * 2 ^ F64.shiftOf (n / d)) * 2 ^ F64.shiftOf (n / d) :=
  F64.unitsOf_encode (F64.rounded_significand_bounds n d).1 (F64.rounded_significand_bounds n d).2

/-- One rounding is within half a unit in the last place. -/
theorem F64.unitsOf_encodeUnits_error (n : Nat) {d : Nat} (hd : 0 < d) :
    2 * n ≤ 2 * (F64.unitsOf (F64.encodeUnits n d) * d) + d * 2 ^ F64.shiftOf (n / d) ∧
      2 * (F64.unitsOf (F64.encodeUnits n d) * d) ≤ 2 * n + d * 2 ^ F64.shiftOf (n / d) := by
  rw [F64.unitsOf_encodeUnits]
  have h := roundHalfEven_error n (d := d * 2 ^ F64.shiftOf (n / d)) (by positivity)
  rwa [show roundHalfEven n (d * 2 ^ F64.shiftOf (n / d)) * (d * 2 ^ F64.shiftOf (n / d)) =
    roundHalfEven n (d * 2 ^ F64.shiftOf (n / d)) * 2 ^ F64.shiftOf (n / d) * d by ring] at h

/-- A representable magnitude rounds to itself. -/
theorem F64.encodeUnits_unitsOf (m : Nat) {d : Nat} (hd : 0 < d) : F64.encodeUnits (F64.unitsOf m * d) d = m := by
  have hq : F64.unitsOf m * d / d = F64.unitsOf m := Nat.mul_div_cancel _ hd
  unfold F64.encodeUnits
  rw [hq]
  unfold F64.unitsOf
  split_ifs with hlt
  · have : m.log2 < 53 := by
      rcases Nat.eq_zero_or_pos m with rfl | hp
      · decide
      · exact (Nat.log2_lt (by omega)).2 (by omega)
    have hs : F64.shiftOf m = 0 := by unfold F64.shiftOf; omega
    simp [hs, hd]
  · have he : 1 ≤ m / 2 ^ 52 := by omega
    set f := m % 2 ^ 52 + 2 ^ 52 with hf
    have hfl : 2 ^ 52 ≤ f := by omega
    have hfu : f < 2 ^ 53 := by omega
    rw [Nat.shiftLeft_eq]
    have hlog : (f * 2 ^ (m / 2 ^ 52 - 1)).log2 = 52 + (m / 2 ^ 52 - 1) := by
      rw [Nat.log2_eq_iff (by positivity)]
      constructor
      · rw [pow_add]; exact Nat.mul_le_mul_right _ hfl
      · rw [show 52 + (m / 2 ^ 52 - 1) + 1 = 53 + (m / 2 ^ 52 - 1) by omega, pow_add]
        exact Nat.mul_lt_mul_of_pos_right hfu (by positivity)
    have hs : F64.shiftOf (f * 2 ^ (m / 2 ^ 52 - 1)) = m / 2 ^ 52 - 1 := by unfold F64.shiftOf; omega
    rw [hs, show f * 2 ^ (m / 2 ^ 52 - 1) * d = f * (d * 2 ^ (m / 2 ^ 52 - 1)) by ring,
      roundHalfEven_mul f (by positivity)]
    obtain ⟨e, he'⟩ : ∃ e, m / 2 ^ 52 = e + 1 := ⟨m / 2 ^ 52 - 1, (Nat.sub_add_cancel he).symm⟩
    have hdm := Nat.div_add_mod m (2 ^ 52)
    rw [he'] at hdm ⊢
    rw [Nat.add_sub_cancel, hf]
    linarith

theorem F64.roundUnits_unitsOf {m : Nat} (hm : m ≤ F64.infBits) {d : Nat} (hd : 0 < d) :
    F64.roundUnits (F64.unitsOf m * d) d = m := by
  rw [F64.roundUnits_eq, F64.encodeUnits_unitsOf m hd, Nat.min_eq_left hm]

/-- Rounding does not go above a representable bound. -/
theorem F64.roundUnits_le {n d m : Nat} (hd : 0 < d) (hm : m ≤ F64.infBits) (h : n ≤ F64.unitsOf m * d) :
    F64.roundUnits n d ≤ m := by
  rw [← F64.roundUnits_unitsOf hm hd]; exact F64.roundUnits_mono h

/-- Rounding does not go below a representable bound. -/
theorem F64.le_roundUnits {n d m : Nat} (hd : 0 < d) (hm : m ≤ F64.infBits) (h : F64.unitsOf m * d ≤ n) :
    m ≤ F64.roundUnits n d := by
  rw [← F64.roundUnits_unitsOf hm hd]; exact F64.roundUnits_mono h

/-- Magnitude bits and magnitudes are in the same order. -/
theorem F64.unitsOf_mono {m m' : Nat} (h : m ≤ m') : F64.unitsOf m ≤ F64.unitsOf m' := by
  by_contra hc
  have h1 := F64.encodeUnits_mono (d := 1) (le_of_lt (not_le.1 hc))
  have h2 := F64.encodeUnits_unitsOf m (d := 1) (by norm_num)
  have h3 := F64.encodeUnits_unitsOf m' (d := 1) (by norm_num)
  simp only [Nat.mul_one] at h2 h3
  rw [h2, h3] at h1
  have : m = m' := le_antisymm h h1
  subst this; exact hc le_rfl

theorem F64.unitsOf_lt {m m' : Nat} (h : m < m') : F64.unitsOf m < F64.unitsOf m' := by
  refine lt_of_le_of_ne (F64.unitsOf_mono (le_of_lt h)) fun hc => ?_
  have h2 := F64.encodeUnits_unitsOf m (d := 1) (by norm_num)
  rw [hc, F64.encodeUnits_unitsOf m' (by norm_num)] at h2
  omega

theorem F64.unitsPerOne_eq : F64.unitsPerOne = 2 ^ 1074 := by rw [F64.unitsPerOne, Nat.shiftLeft_eq, Nat.one_mul]

theorem F64.unitsPerOne_pos : 0 < F64.unitsPerOne := by rw [F64.unitsPerOne_eq]; exact Nat.pow_pos (by norm_num)

/-! ### What the operations answer on finite operands -/

theorem F64.isFinite_iff (x : F64) : F64.isFinite x = true ↔ F64.isNaN x = false ∧ F64.isInf x = false := by
  simp only [F64.isFinite, F64.isNaN, F64.isInf, decide_eq_true_eq, decide_eq_false_iff_not]; omega

/-- A sum of finite values: the exact sum, rounded once; an exact zero keeps a sign common to both. -/
theorem F64.add_finite {x y : F64} (hx : F64.isFinite x = true) (hy : F64.isFinite y = true) :
    F64.add x y =
      if F64.num x + F64.num y = 0 then F64.pack (F64.sign x && F64.sign y) 0
      else F64.pack (decide (F64.num x + F64.num y < 0)) (F64.roundUnits (F64.num x + F64.num y).natAbs 1) := by
  have h1 := (F64.isFinite_iff x).1 hx
  have h2 := (F64.isFinite_iff y).1 hy
  simp [F64.add, h1, h2]

/-- A product of finite values: the exact product, rounded once. -/
theorem F64.mul_finite {x y : F64} (hx : F64.isFinite x = true) (hy : F64.isFinite y = true) :
    F64.mul x y = F64.pack (F64.sign x != F64.sign y)
      (F64.roundUnits (F64.unitsOf (F64.magBits x) * F64.unitsOf (F64.magBits y)) F64.unitsPerOne) := by
  have h1 := (F64.isFinite_iff x).1 hx
  have h2 := (F64.isFinite_iff y).1 hy
  simp only [F64.mul, h1, h2, Bool.or_self, Bool.false_eq_true, if_false]

/-- The magnitude of a signed value in units. -/
theorem F64.natAbs_num (x : F64) : (F64.num x).natAbs = F64.unitsOf (F64.magBits x) := by
  unfold F64.num; split_ifs <;> simp

theorem F64.num_neg (x : F64) : F64.num (F64.neg x) = -F64.num x := by
  unfold F64.num
  rw [F64.sign_neg, F64.magBits_neg]
  cases F64.sign x <;> simp

/-! ### TANH (R236) -/

theorem F64.tanhBits_le_one (mag : Nat) : F64.tanhBits mag ≤ F64.oneBits := by
  unfold F64.tanhBits; split_ifs
  · exact Nat.min_le_right _ _
  · exact le_rfl

theorem F64.tanhBits_mono {m m' : Nat} (h : m ≤ m') : F64.tanhBits m ≤ F64.tanhBits m' := by
  by_cases h' : m' < F64.infBits
  · have hm : m < F64.infBits := lt_of_le_of_lt h h'
    simp only [F64.tanhBits, hm, h', dif_pos]
    have : Config.tanhCurve ⟨m, Nat.lt_succ_of_lt hm⟩ ≤ Config.tanhCurve ⟨m', Nat.lt_succ_of_lt h'⟩ :=
      Config.tanhCurve.monotone h
    have : (Config.tanhCurve ⟨m, Nat.lt_succ_of_lt hm⟩).val ≤ (Config.tanhCurve ⟨m', Nat.lt_succ_of_lt h'⟩).val := this
    omega
  · have := F64.tanhBits_le_one m
    have h2 : F64.tanhBits m' = F64.oneBits := by simp [F64.tanhBits, h']
    omega

theorem F64.tanhBits_inf : F64.tanhBits F64.infBits = F64.oneBits := by simp [F64.tanhBits]

theorem F64.tanhBits_lt (mag : Nat) : F64.tanhBits mag < 2 ^ 63 :=
  lt_of_le_of_lt (F64.tanhBits_le_one mag) (by decide)

@[simp] theorem F64.sign_tanh (u : F64) : F64.sign (F64.tanh u) = false := F64.sign_pack _ (F64.tanhBits_lt _)

@[simp] theorem F64.magBits_tanh (u : F64) : F64.magBits (F64.tanh u) = F64.tanhBits (F64.magBits u) :=
  F64.magBits_pack _ (F64.tanhBits_lt _)

/-! ### The constants of the datapath -/

theorem F64.ofInt_one : F64.ofInt 1 = 0x3FF0000000000000 := by decide +kernel

theorem F64.ofInt_clipThreshold : F64.ofInt Config.clipThreshold = 0x40DE460000000000 := by decide +kernel

theorem F64.ofInt_headroom : F64.ofInt (Config.clipCeiling - Config.clipThreshold) = 0x409B9C0000000000 := by
  decide +kernel

theorem F64.ofInt_clipCeiling : F64.ofInt Config.clipCeiling = 0x40DFFFC000000000 := by decide +kernel

end Sys2Proof
end

