-- ==== Sys2Proof/Laws/Limiter.lean ====
section
/-!
SUPPORT. The limiter on magnitudes (R236): above the threshold its curve is one non-decreasing function of the
magnitude bits, between the threshold and the ceiling.
-/

namespace Sys2Proof.Machine

open Sys2Proof

/-- The magnitude bits of 31000.0. -/
def clipTBits : Nat := 0x40DE460000000000

/-- The magnitude bits of 1767.0. -/
def clipKBits : Nat := 0x409B9C0000000000

/-- The magnitude bits of 32767.0. -/
def clipMaxBits : Nat := 0x40DFFFC000000000

theorem clipT_eq : clipT = F64.pack false clipTBits := by
  rw [clipT, F64.ofInt_clipThreshold]; decide

theorem clipK_eq : clipK = F64.pack false clipKBits := by
  rw [clipK, F64.ofInt_headroom]; decide

/-- The excess over the threshold: `m - T` on magnitude bits. -/
def excessBits (m : Nat) : Nat :=
  if m = F64.infBits then F64.infBits else F64.roundUnits (F64.unitsOf m - F64.unitsOf clipTBits) 1

/-- The excess over the headroom: `/ K` on magnitude bits. -/
def ratioBits (a : Nat) : Nat :=
  if a = F64.infBits then F64.infBits else F64.roundUnits (F64.unitsOf a * F64.unitsPerOne) (F64.unitsOf clipKBits)

/-- The part of the headroom that is used: `K * t` on magnitude bits. -/
def riseBits (t : Nat) : Nat := F64.roundUnits (F64.unitsOf clipKBits * F64.unitsOf t) F64.unitsPerOne

/-- The curve on magnitude bits. -/
def curveBits (m : Nat) : Nat :=
  F64.roundUnits (F64.unitsOf clipTBits + F64.unitsOf (riseBits (F64.tanhBits (ratioBits (excessBits m))))) 1

theorem excessBits_le {m : Nat} : excessBits m ≤ F64.infBits := by
  unfold excessBits; split_ifs
  · exact le_rfl
  · exact F64.roundUnits_le_inf _ _

theorem excessBits_mono {m m' : Nat} (h : m ≤ m') (h' : m' ≤ F64.infBits) : excessBits m ≤ excessBits m' := by
  unfold excessBits
  split_ifs with h1 h2 h2
  · exact le_rfl
  · omega
  · exact F64.roundUnits_le_inf _ _
  · exact F64.roundUnits_mono (Nat.sub_le_sub_right (F64.unitsOf_mono h) _)

theorem ratioBits_mono {a a' : Nat} (h : a ≤ a') (h' : a' ≤ F64.infBits) : ratioBits a ≤ ratioBits a' := by
  unfold ratioBits
  split_ifs with h1 h2 h2
  · exact le_rfl
  · omega
  · exact F64.roundUnits_le_inf _ _
  · exact F64.roundUnits_mono (Nat.mul_le_mul_right _ (F64.unitsOf_mono h))

theorem riseBits_mono {t t' : Nat} (h : t ≤ t') : riseBits t ≤ riseBits t' :=
  F64.roundUnits_mono (Nat.mul_le_mul_left _ (F64.unitsOf_mono h))

/-- The curve is non-decreasing in the magnitude. -/
theorem curveBits_mono {m m' : Nat} (h : m ≤ m') (h' : m' ≤ F64.infBits) : curveBits m ≤ curveBits m' :=
  F64.roundUnits_mono <| Nat.add_le_add_left (F64.unitsOf_mono <| riseBits_mono <| F64.tanhBits_mono <|
    ratioBits_mono (excessBits_mono h h') excessBits_le) _

theorem unitsOf_oneBits : F64.unitsOf F64.oneBits = F64.unitsPerOne := by decide +kernel

theorem unitsOf_clipMaxBits : F64.unitsOf clipTBits + F64.unitsOf clipKBits = F64.unitsOf clipMaxBits := by
  decide +kernel

/-- The used headroom is at most the headroom. -/
theorem riseBits_le {t : Nat} (h : t ≤ F64.oneBits) : riseBits t ≤ clipKBits := by
  refine le_trans (riseBits_mono h) ?_
  unfold riseBits
  rw [unitsOf_oneBits, F64.roundUnits_unitsOf (by decide) F64.unitsPerOne_pos]

/-- The curve is at least the threshold. -/
theorem le_curveBits (m : Nat) : clipTBits ≤ curveBits m :=
  F64.le_roundUnits (by decide) (by decide) (by rw [Nat.mul_one]; exact Nat.le_add_right _ _)

/-- The curve is at most the ceiling. -/
theorem curveBits_le (m : Nat) : curveBits m ≤ clipMaxBits := by
  refine F64.roundUnits_le (by decide) (by decide) ?_
  rw [Nat.mul_one, ← unitsOf_clipMaxBits]
  exact Nat.add_le_add_left (F64.unitsOf_mono (riseBits_le (F64.tanhBits_le_one _))) _

/-- At infinity the curve is at the ceiling. -/
theorem curveBits_inf : curveBits F64.infBits = clipMaxBits := by
  have h1 : ratioBits (excessBits F64.infBits) = F64.infBits := by simp [excessBits, ratioBits]
  rw [curveBits, h1, F64.tanhBits_inf]
  have h2 : riseBits F64.oneBits = clipKBits := by
    unfold riseBits
    rw [unitsOf_oneBits, F64.roundUnits_unitsOf (by decide) F64.unitsPerOne_pos]
  rw [h2, unitsOf_clipMaxBits]
  have h3 := F64.roundUnits_unitsOf (m := clipMaxBits) (by decide) (d := 1) (by norm_num)
  rwa [Nat.mul_one] at h3

/-! ### The operations of the curve -/

theorem num_pack_false {m : Nat} (h : m < 2 ^ 63) : F64.num (F64.pack false m) = F64.unitsOf m := by
  rw [F64.num, F64.sign_pack _ h, F64.magBits_pack _ h]; rfl

theorem isFinite_pack_false {m : Nat} (h : m < F64.infBits) : F64.isFinite (F64.pack false m) = true := by
  rw [F64.isFinite, F64.magBits_pack _ (lt_trans h F64.infBits_lt)]; simpa using h

theorem isFinite_pack_true {m : Nat} (h : m < F64.infBits) : F64.isFinite (F64.pack true m) = true := by
  rw [F64.isFinite, F64.magBits_pack _ (lt_trans h F64.infBits_lt)]; simpa using h

/-- The sum of two non-negative finite values that are not both zero. -/
theorem add_pack {m k : Nat} (hm : m < F64.infBits) (hk : k < F64.infBits) (h : 0 < F64.unitsOf m + F64.unitsOf k) :
    F64.add (F64.pack false m) (F64.pack false k) = F64.pack false (F64.roundUnits (F64.unitsOf m + F64.unitsOf k) 1) := by
  rw [F64.add_finite (isFinite_pack_false hm) (isFinite_pack_false hk), num_pack_false (lt_trans hm F64.infBits_lt),
    num_pack_false (lt_trans hk F64.infBits_lt)]
  rw [if_neg (by omega)]
  congr 1

/-- The excess of a magnitude above the threshold. -/
theorem sub_clipT {m : Nat} (h : clipTBits < m) (h' : m ≤ F64.infBits) :
    F64.sub (F64.pack false m) clipT = F64.pack false (excessBits m) := by
  have hT : clipTBits < F64.infBits := by decide
  have hneg : F64.neg clipT = F64.pack true clipTBits := by rw [clipT_eq]; decide
  unfold F64.sub excessBits
  rw [hneg]
  split_ifs with h1
  · subst h1; decide
  · have hm : m < F64.infBits := by omega
    rw [F64.add_finite (isFinite_pack_false hm) (isFinite_pack_true hT), num_pack_false (lt_trans hm F64.infBits_lt)]
    have hn : F64.num (F64.pack true clipTBits) = -(F64.unitsOf clipTBits : Int) := by
      simp [F64.num, show clipTBits < 9223372036854775808 by decide]
    have hlt := F64.unitsOf_lt h
    rw [hn, if_neg (by omega)]
    have e1 : decide ((F64.unitsOf m : Int) + -(F64.unitsOf clipTBits : Int) < 0) = false := by
      rw [decide_eq_false_iff_not]; omega
    have e2 : ((F64.unitsOf m : Int) + -(F64.unitsOf clipTBits : Int)).natAbs = F64.unitsOf m - F64.unitsOf clipTBits := by
      omega
    rw [e1, e2]

theorem isNaN_pack_false {m : Nat} (h : m ≤ F64.infBits) : F64.isNaN (F64.pack false m) = false := F64.isNaN_pack _ h

theorem div_clipK {a : Nat} (h : a ≤ F64.infBits) :
    F64.div (F64.pack false a) clipK = F64.pack false (ratioBits a) := by
  have ha := lt_of_le_of_lt h F64.infBits_lt
  have hk : clipKBits < 2 ^ 63 := by decide
  have e0 : F64.sign (F64.pack false a) = false := F64.sign_pack _ ha
  have e1 : F64.isInf (F64.pack false a) = decide (a = F64.infBits) := by rw [F64.isInf, F64.magBits_pack _ ha]
  have e2 : F64.isNaN clipK = false := by rw [clipK_eq]; decide
  have e3 : F64.isInf clipK = false := by rw [clipK_eq]; decide
  have e4 : F64.isZero clipK = false := by rw [clipK_eq]; decide
  have e5 : F64.sign clipK = false := by rw [clipK_eq]; decide
  have e6 : F64.magBits clipK = clipKBits := by rw [clipK_eq]; decide
  unfold F64.div ratioBits
  rw [isNaN_pack_false h, e0, e1, e2, e3, e4, e5, e6, F64.magBits_pack _ ha]
  by_cases hi : a = F64.infBits <;> simp [hi]

theorem mul_clipK {t : Nat} (h : t ≤ F64.oneBits) :
    F64.mul clipK (F64.pack false t) = F64.pack false (riseBits t) := by
  have ht : t < F64.infBits := lt_of_le_of_lt h (by decide)
  have hk : clipKBits < F64.infBits := by decide
  rw [clipK_eq, F64.mul_finite (isFinite_pack_false hk) (isFinite_pack_false ht), F64.sign_pack _ (by decide),
    F64.sign_pack _ (lt_trans ht F64.infBits_lt), F64.magBits_pack _ (by decide),
    F64.magBits_pack _ (lt_trans ht F64.infBits_lt)]
  rfl

/-- The curve of a value above the threshold, by its magnitude. -/
theorem clipCurve_pack {m : Nat} (h : clipTBits < m) (h' : m ≤ F64.infBits) :
    clipCurve (F64.pack false m) = F64.pack false (curveBits m) := by
  have hr : ratioBits (excessBits m) < 2 ^ 63 := by
    unfold ratioBits; split_ifs
    · decide
    · exact F64.roundUnits_lt _ _
  unfold clipCurve
  rw [sub_clipT h h', div_clipK excessBits_le]
  have ht : F64.tanh (F64.pack false (ratioBits (excessBits m))) =
      F64.pack false (F64.tanhBits (ratioBits (excessBits m))) := by
    rw [F64.tanh, F64.magBits_pack _ hr]
  rw [ht, mul_clipK (F64.tanhBits_le_one _), clipT_eq]
  refine add_pack (by decide) (lt_of_le_of_lt (riseBits_le (F64.tanhBits_le_one _)) (by decide)) ?_
  have : 0 < F64.unitsOf clipTBits := by decide +kernel
  omega

/-- The limiter's magnitude: unchanged up to the threshold, the curve above it. -/
def limitBits (m : Nat) : Nat := if clipTBits < m then curveBits m else m

/-- The limiter on a value that is no NaN keeps the sign and limits the magnitude. -/
theorem softClip_pack (neg : Bool) {m : Nat} (h : m ≤ F64.infBits) :
    softClip (F64.pack neg m) = F64.pack neg (limitBits m) := by
  have hm := lt_of_le_of_lt h F64.infBits_lt
  have hN : F64.isNaN (F64.pack neg m) = false := F64.isNaN_pack _ h
  have hT : F64.isNaN clipT = false := by rw [clipT_eq]; decide
  have hkT : F64.key clipT = (clipTBits : Int) := by rw [clipT_eq]; decide
  have hkN : F64.key (F64.neg clipT) = -(clipTBits : Int) := by rw [clipT_eq]; decide
  have hk : F64.key (F64.pack neg m) = if neg then -(m : Int) else (m : Int) := by
    rw [F64.key, F64.sign_pack _ hm, F64.magBits_pack _ hm]
  have h0 : (0 : Int) < clipTBits := by decide
  unfold softClip F64.lt limitBits
  rw [F64.isNaN_neg, hN, hT, hkT, hkN, hk]
  cases neg
  · simp only [Bool.not_false, Bool.true_and, decide_eq_true_eq, Bool.false_eq_true, if_false]
    by_cases hc : clipTBits < m
    · rw [if_pos (by omega), if_pos hc, clipCurve_pack hc h]
    · rw [if_neg (by omega), if_neg (by omega), if_neg hc]
  · simp only [Bool.not_false, Bool.true_and, decide_eq_true_eq, if_true]
    by_cases hc : clipTBits < m
    · rw [if_neg (by omega), if_pos (by omega), if_pos hc]
      have e : F64.neg (F64.pack true m) = F64.pack false m := by
        rw [F64.neg, F64.sign_pack _ hm, F64.magBits_pack _ hm]; rfl
      have hb := lt_of_le_of_lt (curveBits_le m) (show clipMaxBits < 2 ^ 63 by decide)
      rw [e, clipCurve_pack hc h, F64.neg, F64.sign_pack _ hb, F64.magBits_pack _ hb]; rfl
    · rw [if_neg (by omega), if_neg (by omega), if_neg hc]

theorem limitBits_mono {m m' : Nat} (h : m ≤ m') (h' : m' ≤ F64.infBits) : limitBits m ≤ limitBits m' := by
  unfold limitBits
  have h1 := le_curveBits m'
  split_ifs
  · exact curveBits_mono h h'
  · omega
  · omega
  · exact h

theorem limitBits_le (m : Nat) : limitBits m ≤ clipMaxBits := by
  unfold limitBits
  have : clipTBits < clipMaxBits := by decide
  split_ifs
  · exact curveBits_le m
  · omega

end Sys2Proof.Machine
end

