-- ==== Sys2Proof/Laws/Memory.lean ====
section
/-!
SUPPORT. The laws of the FIFO storage: read after write, the canonical form kept, equal reads of canonical memories are
equal memories, and the same for the runs of bytes of MemRead and MemWrite (R15).
-/

namespace Sys2Proof.Machine

open Sys2Proof

/-- The keys of a memory all lie above `a`. -/
def Memory.above (a : Nat) (m : Memory) : Bool := m.all fun c => decide (a < c.1)

theorem Memory.above_cons {a : Nat} {c : Host.Cell} {m : Memory} :
    Memory.above a (c :: m) = true ↔ a < c.1 ∧ Memory.above a m = true := by
  simp [Memory.above]

theorem Memory.wf_cons {k : Nat} {v : Byte} {m : Memory} :
    Memory.wf ((k, v) :: m) = true ↔ v ≠ Memory.unwritten ∧ Memory.above k m = true ∧ Memory.wf m = true := by
  simp [Memory.wf, Memory.above, and_assoc]

theorem Memory.above_trans {a b : Nat} {m : Memory} (hab : a < b) (h : Memory.above b m = true) :
    Memory.above a m = true := by
  simp only [Memory.above, List.all_eq_true, decide_eq_true_eq] at *
  intro c hc; have := h c hc; omega

theorem Memory.read_above {a : Nat} {m : Memory} (h : Memory.above a m = true) :
    Memory.read m a = Memory.unwritten := by
  induction m with
  | nil => rfl
  | cons c m ih =>
    obtain ⟨k, v⟩ := c
    rw [Memory.above_cons] at h
    have hne : a ≠ k := by have := h.1; simp at this; omega
    simp [Memory.read, hne, ih h.2]

/-- A read of the byte just written gives it. -/
theorem Memory.read_write_same {m : Memory} (hm : Memory.wf m = true) (a : Nat) (b : Byte) :
    Memory.read (Memory.write m a b) a = b := by
  induction m with
  | nil => simp only [Memory.write]; split <;> simp_all [Memory.read]
  | cons c m ih =>
    obtain ⟨k, v⟩ := c
    rw [Memory.wf_cons] at hm
    simp only [Memory.write]
    split
    · rename_i hak
      split
      · rename_i hb
        rw [hb]
        refine Memory.read_above ?_
        rw [Memory.above_cons]
        exact ⟨hak, Memory.above_trans hak hm.2.1⟩
      · simp [Memory.read]
    · split
      · rename_i hak
        subst hak
        split
        · rename_i hb
          rw [hb, Memory.read_above hm.2.1]
        · simp [Memory.read]
      · rename_i h2
        simp only [Memory.read, if_neg h2]
        exact ih hm.2.2

/-- A write leaves every other byte alone. -/
theorem Memory.read_write_other (m : Memory) {a a' : Nat} (b : Byte) (h : a' ≠ a) :
    Memory.read (Memory.write m a b) a' = Memory.read m a' := by
  induction m with
  | nil => simp only [Memory.write]; split <;> simp [Memory.read, h]
  | cons c m ih =>
    obtain ⟨k, v⟩ := c
    simp only [Memory.write]
    split
    · split <;> simp [Memory.read, h]
    · split
      · rename_i hak
        subst hak
        split <;> simp [Memory.read, h]
      · simp [Memory.read, ih]

theorem Memory.above_write {k : Nat} {m : Memory} (hm : Memory.above k m = true) {a : Nat} (ha : k < a) (b : Byte) :
    Memory.above k (Memory.write m a b) = true := by
  induction m with
  | nil => simp only [Memory.write]; split <;> simp [Memory.above, ha]
  | cons c m ih =>
    obtain ⟨k', v⟩ := c
    rw [Memory.above_cons] at hm
    simp only [Memory.write]
    split
    · split <;> simp_all [Memory.above_cons]
    · split
      · split <;> simp_all [Memory.above_cons]
      · rw [Memory.above_cons]; exact ⟨hm.1, ih hm.2⟩

/-- A write keeps the canonical form. -/
theorem Memory.write_wf {m : Memory} (hm : Memory.wf m = true) (a : Nat) (b : Byte) :
    Memory.wf (Memory.write m a b) = true := by
  induction m with
  | nil => simp only [Memory.write]; split <;> simp_all [Memory.wf]
  | cons c m ih =>
    obtain ⟨k, v⟩ := c
    have hm' := hm
    rw [Memory.wf_cons] at hm
    simp only [Memory.write]
    split
    · rename_i hak
      split
      · exact hm'
      · rename_i hb
        rw [Memory.wf_cons, Memory.above_cons]
        exact ⟨hb, ⟨hak, Memory.above_trans hak hm.2.1⟩, hm'⟩
    · split
      · rename_i hak
        subst hak
        split
        · exact hm.2.2
        · rename_i hb
          rw [Memory.wf_cons]; exact ⟨hb, hm.2⟩
      · rename_i h1 h2
        rw [Memory.wf_cons]
        exact ⟨hm.1, Memory.above_write hm.2.1 (by omega) b, ih hm.2.2⟩

theorem Memory.inside_cons {cap : Nat} {c : Host.Cell} {m : Memory} :
    Memory.inside cap (c :: m) = true ↔ c.1 < cap ∧ Memory.inside cap m = true := by
  simp [Memory.inside]

/-- A write below the capacity keeps the indices below it. -/
theorem Memory.write_inside {cap : Nat} {m : Memory} (hm : Memory.inside cap m = true) {a : Nat} (ha : a < cap)
    (b : Byte) : Memory.inside cap (Memory.write m a b) = true := by
  induction m with
  | nil => simp only [Memory.write]; split <;> simp [Memory.inside, ha]
  | cons c m ih =>
    obtain ⟨k, v⟩ := c
    rw [Memory.inside_cons] at hm
    simp only [Memory.write]
    split
    · split <;> simp_all [Memory.inside_cons]
    · split
      · split <;> simp_all [Memory.inside_cons]
      · rw [Memory.inside_cons]; exact ⟨hm.1, ih hm.2⟩

/-- Canonical memories that read alike are equal. -/
theorem Memory.eq_of_read_eq {m m' : Memory} (hm : Memory.wf m = true) (hm' : Memory.wf m' = true)
    (h : ∀ a, Memory.read m a = Memory.read m' a) : m = m' := by
  induction m generalizing m' with
  | nil =>
    cases m' with
    | nil => rfl
    | cons c m' =>
      obtain ⟨k, v⟩ := c
      rw [Memory.wf_cons] at hm'
      have := h k
      simp [Memory.read] at this
      exact absurd this.symm hm'.1
  | cons c m ih =>
    obtain ⟨k, v⟩ := c
    have hmc := Memory.wf_cons.1 hm
    cases m' with
    | nil =>
      have := h k
      simp [Memory.read] at this
      exact absurd this hmc.1
    | cons c' m' =>
      obtain ⟨k', v'⟩ := c'
      have hmc' := Memory.wf_cons.1 hm'
      have hk : k = k' := by
        rcases Nat.lt_trichotomy k k' with hlt | heq | hgt
        · have h1 := h k
          have h2 : Memory.read ((k', v') :: m') k = Memory.unwritten :=
            Memory.read_above (Memory.above_cons.2 ⟨hlt, Memory.above_trans hlt hmc'.2.1⟩)
          rw [h2] at h1; simp [Memory.read] at h1; exact absurd h1 hmc.1
        · exact heq
        · have h1 := h k'
          have h2 : Memory.read ((k, v) :: m) k' = Memory.unwritten :=
            Memory.read_above (Memory.above_cons.2 ⟨hgt, Memory.above_trans hgt hmc.2.1⟩)
          rw [h2] at h1; simp [Memory.read] at h1; exact absurd h1.symm hmc'.1
      subst hk
      have hv : v = v' := by have := h k; simpa [Memory.read] using this
      subst hv
      congr 1
      refine ih hmc.2.2 hmc'.2.2 fun a => ?_
      by_cases ha : a = k
      · subst ha; rw [Memory.read_above hmc.2.1, Memory.read_above hmc'.2.1]
      · have := h a; simpa [Memory.read, ha] using this

/-! ### Runs of bytes (R15) -/

@[simp] theorem memRead_length (cap : Nat) (m : Memory) (addr n : Nat) : (memRead cap m addr n).length = n := by
  simp [memRead]

theorem memRead_getElem (cap : Nat) (m : Memory) (addr n j : Nat) (hj : j < (memRead cap m addr n).length) :
    (memRead cap m addr n)[j] = Memory.read m ((addr + j) % cap) := by
  simp [memRead]

/-- A read of n + k bytes is a read of n and a read of the k that follow. -/
theorem memRead_add (cap : Nat) (m : Memory) (addr n k : Nat) :
    memRead cap m addr (n + k) = memRead cap m addr n ++ memRead cap m (addr + n) k := by
  apply List.ext_getElem
  · simp
  · intro i h1 h2
    rw [memRead_getElem]
    by_cases hi : i < n
    · rw [List.getElem_append_left (by simpa using hi), memRead_getElem]
    · rw [List.getElem_append_right (by simpa using hi), memRead_getElem]
      simp only [memRead_length]
      congr 2; omega

/-- Only the index modulo the capacity counts. -/
theorem memRead_mod (cap : Nat) (m : Memory) (addr n : Nat) :
    memRead cap m (addr % cap) n = memRead cap m addr n := by
  simp [memRead, Nat.add_mod]

theorem memWrite_mod (cap : Nat) (m : Memory) (addr : Nat) (bs : List Byte) :
    memWrite cap m (addr % cap) bs = memWrite cap m addr bs := by
  induction bs generalizing m addr with
  | nil => rfl
  | cons b bs ih =>
    simp only [memWrite, Nat.mod_mod]
    rw [← ih (addr := addr % cap + 1), ← ih (addr := addr + 1)]
    congr 1
    rw [Nat.mod_add_mod]

/-- Writing a list and then its continuation is writing both at once. -/
theorem memWrite_append (cap : Nat) (m : Memory) (addr : Nat) (xs ys : List Byte) :
    memWrite cap m addr (xs ++ ys) = memWrite cap (memWrite cap m addr xs) (addr + xs.length) ys := by
  induction xs generalizing m addr with
  | nil => simp [memWrite]
  | cons x xs ih =>
    simp only [List.cons_append, memWrite, List.length_cons]
    rw [ih]
    congr 1; omega

theorem memWrite_wf (cap : Nat) {m : Memory} (hm : Memory.wf m = true) (addr : Nat) (bs : List Byte) :
    Memory.wf (memWrite cap m addr bs) = true := by
  induction bs generalizing m addr with
  | nil => exact hm
  | cons b bs ih => exact ih (Memory.write_wf hm _ b) _

theorem memWrite_inside {cap : Nat} (hc : 0 < cap) {m : Memory} (hm : Memory.inside cap m = true) (addr : Nat)
    (bs : List Byte) : Memory.inside cap (memWrite cap m addr bs) = true := by
  induction bs generalizing m addr with
  | nil => exact hm
  | cons b bs ih => exact ih (Memory.write_inside hm (Nat.mod_lt _ hc) b) _

/-- A write of a run leaves every byte outside the run alone. -/
theorem read_memWrite_other (cap : Nat) (m : Memory) (addr a : Nat) (bs : List Byte)
    (h : ∀ j, j < bs.length → a ≠ (addr + j) % cap) : Memory.read (memWrite cap m addr bs) a = Memory.read m a := by
  induction bs generalizing m addr with
  | nil => rfl
  | cons b bs ih =>
    simp only [memWrite]
    rw [ih]
    · exact Memory.read_write_other m b (by simpa using h 0 (by simp))
    · intro j hj
      have := h (j + 1) (by simp; omega)
      rwa [show addr + 1 + j = addr + (j + 1) by omega]

/-- Two offsets below the capacity reach the same index only if they are equal. -/
theorem ring_index_inj {cap addr i j : Nat} (hi : i < cap) (hj : j < cap)
    (h : (addr + i) % cap = (addr + j) % cap) : i = j := by
  have h' : i ≡ j [MOD cap] := Nat.ModEq.add_left_cancel' addr h
  have := Nat.ModEq.eq_of_lt_of_lt h' hi hj
  exact this

/-- A run no longer than the ring, once written, reads back byte for byte. -/
theorem read_memWrite_same {cap : Nat} {m : Memory} (hm : Memory.wf m = true) (addr : Nat) (bs : List Byte)
    (hlen : bs.length ≤ cap) (j : Nat) (hj : j < bs.length) :
    Memory.read (memWrite cap m addr bs) ((addr + j) % cap) = bs[j] := by
  induction bs generalizing m addr j with
  | nil => simp at hj
  | cons b bs ih =>
    simp only [memWrite, List.length_cons] at *
    cases j with
    | zero =>
      rw [read_memWrite_other]
      · simpa using Memory.read_write_same hm (addr % cap) b
      · intro i hi hcon
        have hcon' : (addr + 0) % cap = (addr + (1 + i)) % cap := by
          rw [show addr + (1 + i) = addr + 1 + i by omega]; simpa using hcon
        have := ring_index_inj (cap := cap) (addr := addr) (by omega) (by omega) hcon'
        omega
    | succ j =>
      have hj' : j < bs.length := by simpa using hj
      have := ih (Memory.write_wf hm (addr % cap) b) (addr + 1) (by omega) j hj'
      rw [show addr + (j + 1) = addr + 1 + j by omega, this]
      simp

/-- MemRead of what MemWrite has just written returns it, wrapped or not (R91). -/
theorem memRead_memWrite {cap : Nat} {m : Memory} (hm : Memory.wf m = true) (addr : Nat) (bs : List Byte)
    (hlen : bs.length ≤ cap) : memRead cap (memWrite cap m addr bs) addr bs.length = bs := by
  apply List.ext_getElem
  · simp
  · intro i h1 h2
    rw [memRead_getElem, read_memWrite_same hm addr bs hlen i h2]

/-- MemRead of a run that the write does not reach returns what was there. -/
theorem memRead_memWrite_disjoint {cap : Nat} (m : Memory) (addr n : Nat) (bs : List Byte)
    (hlen : n + bs.length ≤ cap) :
    memRead cap (memWrite cap m (addr + n) bs) addr n = memRead cap m addr n := by
  apply List.ext_getElem
  · simp
  · intro i h1 h2
    simp only [memRead_length] at h1
    rw [memRead_getElem, memRead_getElem, read_memWrite_other]
    intro j hj hcon
    have hcon' : (addr + i) % cap = (addr + (n + j)) % cap := by rw [hcon]; congr 1; omega
    have := ring_index_inj (cap := cap) (addr := addr) (by omega) (by omega) hcon'
    omega

end Sys2Proof.Machine
end

