-- ==== Sys2Proof/Laws/State.lean ====
section
/-!
SUPPORT. One lemma per field per update of `State`, true by rfl, so that no proof unfolds a record update.
-/

namespace Sys2Proof.Machine

open Sys2Proof

/-! ### `State.answer` -/

@[simp] theorem State.answer_gain (s : State) (r : Word) (p : List Byte) :
    (s.answer r p).gain = s.gain := rfl
@[simp] theorem State.answer_coef (s : State) (r : Word) (p : List Byte) :
    (s.answer r p).coef = s.coef := rfl
@[simp] theorem State.answer_hist (s : State) (r : Word) (p : List Byte) :
    (s.answer r p).hist = s.hist := rfl
@[simp] theorem State.answer_undef (s : State) (r : Word) (p : List Byte) :
    (s.answer r p).undef = s.undef := rfl
@[simp] theorem State.answer_attached (s : State) (r : Word) (p : List Byte) :
    (s.answer r p).attached = s.attached := rfl
@[simp] theorem State.answer_fifoMem (s : State) (r : Word) (p : List Byte) :
    (s.answer r p).fifoMem = s.fifoMem := rfl
@[simp] theorem State.answer_wrPos (s : State) (r : Word) (p : List Byte) :
    (s.answer r p).wrPos = s.wrPos := rfl
@[simp] theorem State.answer_rdPos (s : State) (r : Word) (p : List Byte) :
    (s.answer r p).rdPos = s.rdPos := rfl
@[simp] theorem State.answer_avail (s : State) (r : Word) (p : List Byte) :
    (s.answer r p).avail = s.avail := rfl
@[simp] theorem State.answer_session (s : State) (r : Word) (p : List Byte) :
    (s.answer r p).session = s.session := rfl
@[simp] theorem State.answer_eofFlag (s : State) (r : Word) (p : List Byte) :
    (s.answer r p).eofFlag = s.eofFlag := rfl
@[simp] theorem State.answer_eofCause (s : State) (r : Word) (p : List Byte) :
    (s.answer r p).eofCause = s.eofCause := rfl
@[simp] theorem State.answer_rxSeen (s : State) (r : Word) (p : List Byte) :
    (s.answer r p).rxSeen = s.rxSeen := rfl
@[simp] theorem State.answer_lastData (s : State) (r : Word) (p : List Byte) :
    (s.answer r p).lastData = s.lastData := rfl
@[simp] theorem State.answer_totalRx (s : State) (r : Word) (p : List Byte) :
    (s.answer r p).totalRx = s.totalRx := rfl
@[simp] theorem State.answer_now (s : State) (r : Word) (p : List Byte) :
    (s.answer r p).now = s.now := rfl
@[simp] theorem State.answer_cmdErr (s : State) (r : Word) (p : List Byte) :
    (s.answer r p).cmdErr = s.cmdErr := rfl
@[simp] theorem State.answer_cfg (s : State) (r : Word) (p : List Byte) :
    (s.answer r p).cfg = s.cfg := rfl
@[simp] theorem State.answer_pending (s : State) (r : Word) (p : List Byte) :
    (s.answer r p).pending = s.pending := rfl
@[simp] theorem State.answer_res (s : State) (r : Word) (p : List Byte) :
    (s.answer r p).res = r := rfl
@[simp] theorem State.answer_pout (s : State) (r : Word) (p : List Byte) :
    (s.answer r p).pout = p := rfl

/-! ### `State.raiseCmdError` -/

@[simp] theorem State.raiseCmdError_gain (s : State) :
    (s.raiseCmdError).gain = s.gain := rfl
@[simp] theorem State.raiseCmdError_coef (s : State) :
    (s.raiseCmdError).coef = s.coef := rfl
@[simp] theorem State.raiseCmdError_hist (s : State) :
    (s.raiseCmdError).hist = s.hist := rfl
@[simp] theorem State.raiseCmdError_undef (s : State) :
    (s.raiseCmdError).undef = s.undef := rfl
@[simp] theorem State.raiseCmdError_attached (s : State) :
    (s.raiseCmdError).attached = s.attached := rfl
@[simp] theorem State.raiseCmdError_fifoMem (s : State) :
    (s.raiseCmdError).fifoMem = s.fifoMem := rfl
@[simp] theorem State.raiseCmdError_wrPos (s : State) :
    (s.raiseCmdError).wrPos = s.wrPos := rfl
@[simp] theorem State.raiseCmdError_rdPos (s : State) :
    (s.raiseCmdError).rdPos = s.rdPos := rfl
@[simp] theorem State.raiseCmdError_avail (s : State) :
    (s.raiseCmdError).avail = s.avail := rfl
@[simp] theorem State.raiseCmdError_session (s : State) :
    (s.raiseCmdError).session = s.session := rfl
@[simp] theorem State.raiseCmdError_eofFlag (s : State) :
    (s.raiseCmdError).eofFlag = s.eofFlag := rfl
@[simp] theorem State.raiseCmdError_eofCause (s : State) :
    (s.raiseCmdError).eofCause = s.eofCause := rfl
@[simp] theorem State.raiseCmdError_rxSeen (s : State) :
    (s.raiseCmdError).rxSeen = s.rxSeen := rfl
@[simp] theorem State.raiseCmdError_lastData (s : State) :
    (s.raiseCmdError).lastData = s.lastData := rfl
@[simp] theorem State.raiseCmdError_totalRx (s : State) :
    (s.raiseCmdError).totalRx = s.totalRx := rfl
@[simp] theorem State.raiseCmdError_now (s : State) :
    (s.raiseCmdError).now = s.now := rfl
@[simp] theorem State.raiseCmdError_cmdErr (s : State) :
    (s.raiseCmdError).cmdErr = true := rfl
@[simp] theorem State.raiseCmdError_cfg (s : State) :
    (s.raiseCmdError).cfg = s.cfg := rfl
@[simp] theorem State.raiseCmdError_pending (s : State) :
    (s.raiseCmdError).pending = s.pending := rfl
@[simp] theorem State.raiseCmdError_res (s : State) :
    (s.raiseCmdError).res = 0 := rfl
@[simp] theorem State.raiseCmdError_pout (s : State) :
    (s.raiseCmdError).pout = [] := rfl

/-! ### `State.clearCmdErr` -/

@[simp] theorem State.clearCmdErr_gain (s : State) :
    (s.clearCmdErr).gain = s.gain := rfl
@[simp] theorem State.clearCmdErr_coef (s : State) :
    (s.clearCmdErr).coef = s.coef := rfl
@[simp] theorem State.clearCmdErr_hist (s : State) :
    (s.clearCmdErr).hist = s.hist := rfl
@[simp] theorem State.clearCmdErr_undef (s : State) :
    (s.clearCmdErr).undef = s.undef := rfl
@[simp] theorem State.clearCmdErr_attached (s : State) :
    (s.clearCmdErr).attached = s.attached := rfl
@[simp] theorem State.clearCmdErr_fifoMem (s : State) :
    (s.clearCmdErr).fifoMem = s.fifoMem := rfl
@[simp] theorem State.clearCmdErr_wrPos (s : State) :
    (s.clearCmdErr).wrPos = s.wrPos := rfl
@[simp] theorem State.clearCmdErr_rdPos (s : State) :
    (s.clearCmdErr).rdPos = s.rdPos := rfl
@[simp] theorem State.clearCmdErr_avail (s : State) :
    (s.clearCmdErr).avail = s.avail := rfl
@[simp] theorem State.clearCmdErr_session (s : State) :
    (s.clearCmdErr).session = s.session := rfl
@[simp] theorem State.clearCmdErr_eofFlag (s : State) :
    (s.clearCmdErr).eofFlag = s.eofFlag := rfl
@[simp] theorem State.clearCmdErr_eofCause (s : State) :
    (s.clearCmdErr).eofCause = s.eofCause := rfl
@[simp] theorem State.clearCmdErr_rxSeen (s : State) :
    (s.clearCmdErr).rxSeen = s.rxSeen := rfl
@[simp] theorem State.clearCmdErr_lastData (s : State) :
    (s.clearCmdErr).lastData = s.lastData := rfl
@[simp] theorem State.clearCmdErr_totalRx (s : State) :
    (s.clearCmdErr).totalRx = s.totalRx := rfl
@[simp] theorem State.clearCmdErr_now (s : State) :
    (s.clearCmdErr).now = s.now := rfl
@[simp] theorem State.clearCmdErr_cmdErr (s : State) :
    (s.clearCmdErr).cmdErr = false := rfl
@[simp] theorem State.clearCmdErr_cfg (s : State) :
    (s.clearCmdErr).cfg = s.cfg := rfl
@[simp] theorem State.clearCmdErr_pending (s : State) :
    (s.clearCmdErr).pending = s.pending := rfl
@[simp] theorem State.clearCmdErr_res (s : State) :
    (s.clearCmdErr).res = s.res := rfl
@[simp] theorem State.clearCmdErr_pout (s : State) :
    (s.clearCmdErr).pout = s.pout := rfl

/-! ### `State.present` -/

@[simp] theorem State.present_gain (s : State) (t : Transaction) :
    (s.present t).gain = s.gain := rfl
@[simp] theorem State.present_coef (s : State) (t : Transaction) :
    (s.present t).coef = s.coef := rfl
@[simp] theorem State.present_hist (s : State) (t : Transaction) :
    (s.present t).hist = s.hist := rfl
@[simp] theorem State.present_undef (s : State) (t : Transaction) :
    (s.present t).undef = s.undef := rfl
@[simp] theorem State.present_attached (s : State) (t : Transaction) :
    (s.present t).attached = s.attached := rfl
@[simp] theorem State.present_fifoMem (s : State) (t : Transaction) :
    (s.present t).fifoMem = s.fifoMem := rfl
@[simp] theorem State.present_wrPos (s : State) (t : Transaction) :
    (s.present t).wrPos = s.wrPos := rfl
@[simp] theorem State.present_rdPos (s : State) (t : Transaction) :
    (s.present t).rdPos = s.rdPos := rfl
@[simp] theorem State.present_avail (s : State) (t : Transaction) :
    (s.present t).avail = s.avail := rfl
@[simp] theorem State.present_session (s : State) (t : Transaction) :
    (s.present t).session = s.session := rfl
@[simp] theorem State.present_eofFlag (s : State) (t : Transaction) :
    (s.present t).eofFlag = s.eofFlag := rfl
@[simp] theorem State.present_eofCause (s : State) (t : Transaction) :
    (s.present t).eofCause = s.eofCause := rfl
@[simp] theorem State.present_rxSeen (s : State) (t : Transaction) :
    (s.present t).rxSeen = s.rxSeen := rfl
@[simp] theorem State.present_lastData (s : State) (t : Transaction) :
    (s.present t).lastData = s.lastData := rfl
@[simp] theorem State.present_totalRx (s : State) (t : Transaction) :
    (s.present t).totalRx = s.totalRx := rfl
@[simp] theorem State.present_now (s : State) (t : Transaction) :
    (s.present t).now = s.now := rfl
@[simp] theorem State.present_cmdErr (s : State) (t : Transaction) :
    (s.present t).cmdErr = s.cmdErr := rfl
@[simp] theorem State.present_cfg (s : State) (t : Transaction) :
    (s.present t).cfg = s.cfg := rfl
@[simp] theorem State.present_pending (s : State) (t : Transaction) :
    (s.present t).pending = t :: s.pending := rfl
@[simp] theorem State.present_res (s : State) (t : Transaction) :
    (s.present t).res = s.res := rfl
@[simp] theorem State.present_pout (s : State) (t : Transaction) :
    (s.present t).pout = s.pout := rfl

/-! ### `State.initEq` -/

@[simp] theorem State.initEq_gain (s : State) :
    (s.initEq).gain = PerBand.all 0 := rfl
@[simp] theorem State.initEq_coef (s : State) :
    (s.initEq).coef = PerBand.all Coef.passthrough := rfl
@[simp] theorem State.initEq_hist (s : State) :
    (s.initEq).hist = PerBand.all zeroHists := rfl
@[simp] theorem State.initEq_undef (s : State) :
    (s.initEq).undef = PerBand.all false := rfl
@[simp] theorem State.initEq_attached (s : State) :
    (s.initEq).attached = true := rfl
@[simp] theorem State.initEq_fifoMem (s : State) :
    (s.initEq).fifoMem = s.fifoMem := rfl
@[simp] theorem State.initEq_wrPos (s : State) :
    (s.initEq).wrPos = s.wrPos := rfl
@[simp] theorem State.initEq_rdPos (s : State) :
    (s.initEq).rdPos = s.rdPos := rfl
@[simp] theorem State.initEq_avail (s : State) :
    (s.initEq).avail = s.avail := rfl
@[simp] theorem State.initEq_session (s : State) :
    (s.initEq).session = s.session := rfl
@[simp] theorem State.initEq_eofFlag (s : State) :
    (s.initEq).eofFlag = s.eofFlag := rfl
@[simp] theorem State.initEq_eofCause (s : State) :
    (s.initEq).eofCause = s.eofCause := rfl
@[simp] theorem State.initEq_rxSeen (s : State) :
    (s.initEq).rxSeen = s.rxSeen := rfl
@[simp] theorem State.initEq_lastData (s : State) :
    (s.initEq).lastData = s.lastData := rfl
@[simp] theorem State.initEq_totalRx (s : State) :
    (s.initEq).totalRx = s.totalRx := rfl
@[simp] theorem State.initEq_now (s : State) :
    (s.initEq).now = s.now := rfl
@[simp] theorem State.initEq_cmdErr (s : State) :
    (s.initEq).cmdErr = s.cmdErr := rfl
@[simp] theorem State.initEq_cfg (s : State) :
    (s.initEq).cfg = s.cfg := rfl
@[simp] theorem State.initEq_pending (s : State) :
    (s.initEq).pending = s.pending := rfl
@[simp] theorem State.initEq_res (s : State) :
    (s.initEq).res = s.res := rfl
@[simp] theorem State.initEq_pout (s : State) :
    (s.initEq).pout = s.pout := rfl

/-! ### `State.detachEq` -/

@[simp] theorem State.detachEq_gain (s : State) :
    (s.detachEq).gain = s.gain := rfl
@[simp] theorem State.detachEq_coef (s : State) :
    (s.detachEq).coef = s.coef := rfl
@[simp] theorem State.detachEq_hist (s : State) :
    (s.detachEq).hist = s.hist := rfl
@[simp] theorem State.detachEq_undef (s : State) :
    (s.detachEq).undef = PerBand.all true := rfl
@[simp] theorem State.detachEq_attached (s : State) :
    (s.detachEq).attached = false := rfl
@[simp] theorem State.detachEq_fifoMem (s : State) :
    (s.detachEq).fifoMem = s.fifoMem := rfl
@[simp] theorem State.detachEq_wrPos (s : State) :
    (s.detachEq).wrPos = s.wrPos := rfl
@[simp] theorem State.detachEq_rdPos (s : State) :
    (s.detachEq).rdPos = s.rdPos := rfl
@[simp] theorem State.detachEq_avail (s : State) :
    (s.detachEq).avail = s.avail := rfl
@[simp] theorem State.detachEq_session (s : State) :
    (s.detachEq).session = s.session := rfl
@[simp] theorem State.detachEq_eofFlag (s : State) :
    (s.detachEq).eofFlag = s.eofFlag := rfl
@[simp] theorem State.detachEq_eofCause (s : State) :
    (s.detachEq).eofCause = s.eofCause := rfl
@[simp] theorem State.detachEq_rxSeen (s : State) :
    (s.detachEq).rxSeen = s.rxSeen := rfl
@[simp] theorem State.detachEq_lastData (s : State) :
    (s.detachEq).lastData = s.lastData := rfl
@[simp] theorem State.detachEq_totalRx (s : State) :
    (s.detachEq).totalRx = s.totalRx := rfl
@[simp] theorem State.detachEq_now (s : State) :
    (s.detachEq).now = s.now := rfl
@[simp] theorem State.detachEq_cmdErr (s : State) :
    (s.detachEq).cmdErr = s.cmdErr := rfl
@[simp] theorem State.detachEq_cfg (s : State) :
    (s.detachEq).cfg = s.cfg := rfl
@[simp] theorem State.detachEq_pending (s : State) :
    (s.detachEq).pending = s.pending := rfl
@[simp] theorem State.detachEq_res (s : State) :
    (s.detachEq).res = s.res := rfl
@[simp] theorem State.detachEq_pout (s : State) :
    (s.detachEq).pout = s.pout := rfl

/-! ### `State.changeGain` -/

@[simp] theorem State.changeGain_gain (s : State) (b : Band) (g : Int) :
    (s.changeGain b g).gain = s.gain.set b (BitVec.ofInt 5 g) := rfl
@[simp] theorem State.changeGain_coef (s : State) (b : Band) (g : Int) :
    (s.changeGain b g).coef = s.coef.set b (coefRom s.cfg b g) := rfl
@[simp] theorem State.changeGain_hist (s : State) (b : Band) (g : Int) :
    (s.changeGain b g).hist = s.hist.set b zeroHists := rfl
@[simp] theorem State.changeGain_undef (s : State) (b : Band) (g : Int) :
    (s.changeGain b g).undef = s.undef.set b false := rfl
@[simp] theorem State.changeGain_attached (s : State) (b : Band) (g : Int) :
    (s.changeGain b g).attached = s.attached := rfl
@[simp] theorem State.changeGain_fifoMem (s : State) (b : Band) (g : Int) :
    (s.changeGain b g).fifoMem = s.fifoMem := rfl
@[simp] theorem State.changeGain_wrPos (s : State) (b : Band) (g : Int) :
    (s.changeGain b g).wrPos = s.wrPos := rfl
@[simp] theorem State.changeGain_rdPos (s : State) (b : Band) (g : Int) :
    (s.changeGain b g).rdPos = s.rdPos := rfl
@[simp] theorem State.changeGain_avail (s : State) (b : Band) (g : Int) :
    (s.changeGain b g).avail = s.avail := rfl
@[simp] theorem State.changeGain_session (s : State) (b : Band) (g : Int) :
    (s.changeGain b g).session = s.session := rfl
@[simp] theorem State.changeGain_eofFlag (s : State) (b : Band) (g : Int) :
    (s.changeGain b g).eofFlag = s.eofFlag := rfl
@[simp] theorem State.changeGain_eofCause (s : State) (b : Band) (g : Int) :
    (s.changeGain b g).eofCause = s.eofCause := rfl
@[simp] theorem State.changeGain_rxSeen (s : State) (b : Band) (g : Int) :
    (s.changeGain b g).rxSeen = s.rxSeen := rfl
@[simp] theorem State.changeGain_lastData (s : State) (b : Band) (g : Int) :
    (s.changeGain b g).lastData = s.lastData := rfl
@[simp] theorem State.changeGain_totalRx (s : State) (b : Band) (g : Int) :
    (s.changeGain b g).totalRx = s.totalRx := rfl
@[simp] theorem State.changeGain_now (s : State) (b : Band) (g : Int) :
    (s.changeGain b g).now = s.now := rfl
@[simp] theorem State.changeGain_cmdErr (s : State) (b : Band) (g : Int) :
    (s.changeGain b g).cmdErr = s.cmdErr := rfl
@[simp] theorem State.changeGain_cfg (s : State) (b : Band) (g : Int) :
    (s.changeGain b g).cfg = s.cfg := rfl
@[simp] theorem State.changeGain_pending (s : State) (b : Band) (g : Int) :
    (s.changeGain b g).pending = s.pending := rfl
@[simp] theorem State.changeGain_res (s : State) (b : Band) (g : Int) :
    (s.changeGain b g).res = s.res := rfl
@[simp] theorem State.changeGain_pout (s : State) (b : Band) (g : Int) :
    (s.changeGain b g).pout = s.pout := rfl

/-! ### `State.clearFifo` -/

@[simp] theorem State.clearFifo_gain (s : State) :
    (s.clearFifo).gain = s.gain := rfl
@[simp] theorem State.clearFifo_coef (s : State) :
    (s.clearFifo).coef = s.coef := rfl
@[simp] theorem State.clearFifo_hist (s : State) :
    (s.clearFifo).hist = s.hist := rfl
@[simp] theorem State.clearFifo_undef (s : State) :
    (s.clearFifo).undef = s.undef := rfl
@[simp] theorem State.clearFifo_attached (s : State) :
    (s.clearFifo).attached = s.attached := rfl
@[simp] theorem State.clearFifo_fifoMem (s : State) :
    (s.clearFifo).fifoMem = s.fifoMem := rfl
@[simp] theorem State.clearFifo_wrPos (s : State) :
    (s.clearFifo).wrPos = 0 := rfl
@[simp] theorem State.clearFifo_rdPos (s : State) :
    (s.clearFifo).rdPos = 0 := rfl
@[simp] theorem State.clearFifo_avail (s : State) :
    (s.clearFifo).avail = 0 := rfl
@[simp] theorem State.clearFifo_session (s : State) :
    (s.clearFifo).session = s.session := rfl
@[simp] theorem State.clearFifo_eofFlag (s : State) :
    (s.clearFifo).eofFlag = false := rfl
@[simp] theorem State.clearFifo_eofCause (s : State) :
    (s.clearFifo).eofCause = .none := rfl
@[simp] theorem State.clearFifo_rxSeen (s : State) :
    (s.clearFifo).rxSeen = false := rfl
@[simp] theorem State.clearFifo_lastData (s : State) :
    (s.clearFifo).lastData = s.lastData := rfl
@[simp] theorem State.clearFifo_totalRx (s : State) :
    (s.clearFifo).totalRx = 0 := rfl
@[simp] theorem State.clearFifo_now (s : State) :
    (s.clearFifo).now = s.now := rfl
@[simp] theorem State.clearFifo_cmdErr (s : State) :
    (s.clearFifo).cmdErr = s.cmdErr := rfl
@[simp] theorem State.clearFifo_cfg (s : State) :
    (s.clearFifo).cfg = s.cfg := rfl
@[simp] theorem State.clearFifo_pending (s : State) :
    (s.clearFifo).pending = s.pending := rfl
@[simp] theorem State.clearFifo_res (s : State) :
    (s.clearFifo).res = s.res := rfl
@[simp] theorem State.clearFifo_pout (s : State) :
    (s.clearFifo).pout = s.pout := rfl

/-! ### `State.fifoWrite` -/

@[simp] theorem State.fifoWrite_gain (s : State) (d : List Byte) :
    (s.fifoWrite d).gain = s.gain := rfl
@[simp] theorem State.fifoWrite_coef (s : State) (d : List Byte) :
    (s.fifoWrite d).coef = s.coef := rfl
@[simp] theorem State.fifoWrite_hist (s : State) (d : List Byte) :
    (s.fifoWrite d).hist = s.hist := rfl
@[simp] theorem State.fifoWrite_undef (s : State) (d : List Byte) :
    (s.fifoWrite d).undef = s.undef := rfl
@[simp] theorem State.fifoWrite_attached (s : State) (d : List Byte) :
    (s.fifoWrite d).attached = s.attached := rfl
@[simp] theorem State.fifoWrite_fifoMem (s : State) (d : List Byte) :
    (s.fifoWrite d).fifoMem = memWrite s.cfg.fifoCapacity s.fifoMem s.wrPos.toNat (d.take (min d.length s.free)) := rfl
@[simp] theorem State.fifoWrite_wrPos (s : State) (d : List Byte) :
    (s.fifoWrite d).wrPos = BitVec.ofNat 32 ((s.wrPos.toNat + min d.length s.free) % s.cfg.fifoCapacity) := rfl
@[simp] theorem State.fifoWrite_rdPos (s : State) (d : List Byte) :
    (s.fifoWrite d).rdPos = s.rdPos := rfl
@[simp] theorem State.fifoWrite_avail (s : State) (d : List Byte) :
    (s.fifoWrite d).avail = BitVec.ofNat 32 (s.avail.toNat + min d.length s.free) := rfl
@[simp] theorem State.fifoWrite_session (s : State) (d : List Byte) :
    (s.fifoWrite d).session = s.session := rfl
@[simp] theorem State.fifoWrite_eofFlag (s : State) (d : List Byte) :
    (s.fifoWrite d).eofFlag = s.eofFlag := rfl
@[simp] theorem State.fifoWrite_eofCause (s : State) (d : List Byte) :
    (s.fifoWrite d).eofCause = s.eofCause := rfl
@[simp] theorem State.fifoWrite_rxSeen (s : State) (d : List Byte) :
    (s.fifoWrite d).rxSeen = s.rxSeen := rfl
@[simp] theorem State.fifoWrite_lastData (s : State) (d : List Byte) :
    (s.fifoWrite d).lastData = s.lastData := rfl
@[simp] theorem State.fifoWrite_totalRx (s : State) (d : List Byte) :
    (s.fifoWrite d).totalRx = s.totalRx := rfl
@[simp] theorem State.fifoWrite_now (s : State) (d : List Byte) :
    (s.fifoWrite d).now = s.now := rfl
@[simp] theorem State.fifoWrite_cmdErr (s : State) (d : List Byte) :
    (s.fifoWrite d).cmdErr = s.cmdErr := rfl
@[simp] theorem State.fifoWrite_cfg (s : State) (d : List Byte) :
    (s.fifoWrite d).cfg = s.cfg := rfl
@[simp] theorem State.fifoWrite_pending (s : State) (d : List Byte) :
    (s.fifoWrite d).pending = s.pending := rfl
@[simp] theorem State.fifoWrite_res (s : State) (d : List Byte) :
    (s.fifoWrite d).res = s.res := rfl
@[simp] theorem State.fifoWrite_pout (s : State) (d : List Byte) :
    (s.fifoWrite d).pout = s.pout := rfl

/-! ### `State.receive` -/

@[simp] theorem State.receive_gain (s : State) (d : List Byte) :
    (s.receive d).gain = s.gain := rfl
@[simp] theorem State.receive_coef (s : State) (d : List Byte) :
    (s.receive d).coef = s.coef := rfl
@[simp] theorem State.receive_hist (s : State) (d : List Byte) :
    (s.receive d).hist = s.hist := rfl
@[simp] theorem State.receive_undef (s : State) (d : List Byte) :
    (s.receive d).undef = s.undef := rfl
@[simp] theorem State.receive_attached (s : State) (d : List Byte) :
    (s.receive d).attached = s.attached := rfl
@[simp] theorem State.receive_fifoMem (s : State) (d : List Byte) :
    (s.receive d).fifoMem = (s.fifoWrite d).fifoMem := rfl
@[simp] theorem State.receive_wrPos (s : State) (d : List Byte) :
    (s.receive d).wrPos = (s.fifoWrite d).wrPos := rfl
@[simp] theorem State.receive_rdPos (s : State) (d : List Byte) :
    (s.receive d).rdPos = s.rdPos := rfl
@[simp] theorem State.receive_avail (s : State) (d : List Byte) :
    (s.receive d).avail = (s.fifoWrite d).avail := rfl
@[simp] theorem State.receive_session (s : State) (d : List Byte) :
    (s.receive d).session = s.session := rfl
@[simp] theorem State.receive_eofFlag (s : State) (d : List Byte) :
    (s.receive d).eofFlag = s.eofFlag := rfl
@[simp] theorem State.receive_eofCause (s : State) (d : List Byte) :
    (s.receive d).eofCause = s.eofCause := rfl
@[simp] theorem State.receive_rxSeen (s : State) (d : List Byte) :
    (s.receive d).rxSeen = true := rfl
@[simp] theorem State.receive_lastData (s : State) (d : List Byte) :
    (s.receive d).lastData = s.now := rfl
@[simp] theorem State.receive_totalRx (s : State) (d : List Byte) :
    (s.receive d).totalRx = s.totalRx + BitVec.ofNat 64 d.length := rfl
@[simp] theorem State.receive_now (s : State) (d : List Byte) :
    (s.receive d).now = s.now := rfl
@[simp] theorem State.receive_cmdErr (s : State) (d : List Byte) :
    (s.receive d).cmdErr = s.cmdErr := rfl
@[simp] theorem State.receive_cfg (s : State) (d : List Byte) :
    (s.receive d).cfg = s.cfg := rfl
@[simp] theorem State.receive_pending (s : State) (d : List Byte) :
    (s.receive d).pending = s.pending := rfl
@[simp] theorem State.receive_res (s : State) (d : List Byte) :
    (s.receive d).res = s.res := rfl
@[simp] theorem State.receive_pout (s : State) (d : List Byte) :
    (s.receive d).pout = s.pout := rfl

/-! ### `State.advance` -/

@[simp] theorem State.advance_gain (s : State) (n : Nat) :
    (s.advance n).gain = s.gain := rfl
@[simp] theorem State.advance_coef (s : State) (n : Nat) :
    (s.advance n).coef = s.coef := rfl
@[simp] theorem State.advance_hist (s : State) (n : Nat) :
    (s.advance n).hist = s.hist := rfl
@[simp] theorem State.advance_undef (s : State) (n : Nat) :
    (s.advance n).undef = s.undef := rfl
@[simp] theorem State.advance_attached (s : State) (n : Nat) :
    (s.advance n).attached = s.attached := rfl
@[simp] theorem State.advance_fifoMem (s : State) (n : Nat) :
    (s.advance n).fifoMem = s.fifoMem := rfl
@[simp] theorem State.advance_wrPos (s : State) (n : Nat) :
    (s.advance n).wrPos = s.wrPos := rfl
@[simp] theorem State.advance_rdPos (s : State) (n : Nat) :
    (s.advance n).rdPos = s.rdPos := rfl
@[simp] theorem State.advance_avail (s : State) (n : Nat) :
    (s.advance n).avail = s.avail := rfl
@[simp] theorem State.advance_session (s : State) (n : Nat) :
    (s.advance n).session = s.session := rfl
@[simp] theorem State.advance_eofFlag (s : State) (n : Nat) :
    (s.advance n).eofFlag = s.eofFlag := rfl
@[simp] theorem State.advance_eofCause (s : State) (n : Nat) :
    (s.advance n).eofCause = s.eofCause := rfl
@[simp] theorem State.advance_rxSeen (s : State) (n : Nat) :
    (s.advance n).rxSeen = s.rxSeen := rfl
@[simp] theorem State.advance_lastData (s : State) (n : Nat) :
    (s.advance n).lastData = s.lastData := rfl
@[simp] theorem State.advance_totalRx (s : State) (n : Nat) :
    (s.advance n).totalRx = s.totalRx := rfl
@[simp] theorem State.advance_now (s : State) (n : Nat) :
    (s.advance n).now = s.now + BitVec.ofNat 64 n := rfl
@[simp] theorem State.advance_cmdErr (s : State) (n : Nat) :
    (s.advance n).cmdErr = s.cmdErr := rfl
@[simp] theorem State.advance_cfg (s : State) (n : Nat) :
    (s.advance n).cfg = s.cfg := rfl
@[simp] theorem State.advance_pending (s : State) (n : Nat) :
    (s.advance n).pending = s.pending := rfl
@[simp] theorem State.advance_res (s : State) (n : Nat) :
    (s.advance n).res = s.res := rfl
@[simp] theorem State.advance_pout (s : State) (n : Nat) :
    (s.advance n).pout = s.pout := rfl

/-! ### `State.fifoRead`: the data and the state it leaves -/

@[simp] theorem State.fifoRead_data (s : State) (n : Nat) :
    (s.fifoRead n).1 = memRead s.cfg.fifoCapacity s.fifoMem s.rdPos.toNat (min n s.avail.toNat) := rfl
@[simp] theorem State.fifoRead_gain (s : State) (n : Nat) :
    (s.fifoRead n).2.gain = s.gain := rfl
@[simp] theorem State.fifoRead_coef (s : State) (n : Nat) :
    (s.fifoRead n).2.coef = s.coef := rfl
@[simp] theorem State.fifoRead_hist (s : State) (n : Nat) :
    (s.fifoRead n).2.hist = s.hist := rfl
@[simp] theorem State.fifoRead_undef (s : State) (n : Nat) :
    (s.fifoRead n).2.undef = s.undef := rfl
@[simp] theorem State.fifoRead_attached (s : State) (n : Nat) :
    (s.fifoRead n).2.attached = s.attached := rfl
@[simp] theorem State.fifoRead_fifoMem (s : State) (n : Nat) :
    (s.fifoRead n).2.fifoMem = s.fifoMem := rfl
@[simp] theorem State.fifoRead_wrPos (s : State) (n : Nat) :
    (s.fifoRead n).2.wrPos = s.wrPos := rfl
@[simp] theorem State.fifoRead_rdPos (s : State) (n : Nat) :
    (s.fifoRead n).2.rdPos = BitVec.ofNat 32 ((s.rdPos.toNat + min n s.avail.toNat) % s.cfg.fifoCapacity) := rfl
@[simp] theorem State.fifoRead_avail (s : State) (n : Nat) :
    (s.fifoRead n).2.avail = BitVec.ofNat 32 (s.avail.toNat - min n s.avail.toNat) := rfl
@[simp] theorem State.fifoRead_session (s : State) (n : Nat) :
    (s.fifoRead n).2.session = s.session := rfl
@[simp] theorem State.fifoRead_eofFlag (s : State) (n : Nat) :
    (s.fifoRead n).2.eofFlag = s.eofFlag := rfl
@[simp] theorem State.fifoRead_eofCause (s : State) (n : Nat) :
    (s.fifoRead n).2.eofCause = s.eofCause := rfl
@[simp] theorem State.fifoRead_rxSeen (s : State) (n : Nat) :
    (s.fifoRead n).2.rxSeen = s.rxSeen := rfl
@[simp] theorem State.fifoRead_lastData (s : State) (n : Nat) :
    (s.fifoRead n).2.lastData = s.lastData := rfl
@[simp] theorem State.fifoRead_totalRx (s : State) (n : Nat) :
    (s.fifoRead n).2.totalRx = s.totalRx := rfl
@[simp] theorem State.fifoRead_now (s : State) (n : Nat) :
    (s.fifoRead n).2.now = s.now := rfl
@[simp] theorem State.fifoRead_cmdErr (s : State) (n : Nat) :
    (s.fifoRead n).2.cmdErr = s.cmdErr := rfl
@[simp] theorem State.fifoRead_cfg (s : State) (n : Nat) :
    (s.fifoRead n).2.cfg = s.cfg := rfl
@[simp] theorem State.fifoRead_pending (s : State) (n : Nat) :
    (s.fifoRead n).2.pending = s.pending := rfl
@[simp] theorem State.fifoRead_res (s : State) (n : Nat) :
    (s.fifoRead n).2.res = s.res := rfl
@[simp] theorem State.fifoRead_pout (s : State) (n : Nat) :
    (s.fifoRead n).2.pout = s.pout := rfl

/-! ### Fields that the conditional operations never touch -/

@[simp] theorem State.setBandGain_attached (s : State) (b : Band) (v : Int) :
    (s.setBandGain b v).attached = s.attached := by unfold State.setBandGain; split <;> rfl
@[simp] theorem State.setBandGain_fifoMem (s : State) (b : Band) (v : Int) :
    (s.setBandGain b v).fifoMem = s.fifoMem := by unfold State.setBandGain; split <;> rfl
@[simp] theorem State.setBandGain_wrPos (s : State) (b : Band) (v : Int) :
    (s.setBandGain b v).wrPos = s.wrPos := by unfold State.setBandGain; split <;> rfl
@[simp] theorem State.setBandGain_rdPos (s : State) (b : Band) (v : Int) :
    (s.setBandGain b v).rdPos = s.rdPos := by unfold State.setBandGain; split <;> rfl
@[simp] theorem State.setBandGain_avail (s : State) (b : Band) (v : Int) :
    (s.setBandGain b v).avail = s.avail := by unfold State.setBandGain; split <;> rfl
@[simp] theorem State.setBandGain_session (s : State) (b : Band) (v : Int) :
    (s.setBandGain b v).session = s.session := by unfold State.setBandGain; split <;> rfl
@[simp] theorem State.setBandGain_eofFlag (s : State) (b : Band) (v : Int) :
    (s.setBandGain b v).eofFlag = s.eofFlag := by unfold State.setBandGain; split <;> rfl
@[simp] theorem State.setBandGain_eofCause (s : State) (b : Band) (v : Int) :
    (s.setBandGain b v).eofCause = s.eofCause := by unfold State.setBandGain; split <;> rfl
@[simp] theorem State.setBandGain_rxSeen (s : State) (b : Band) (v : Int) :
    (s.setBandGain b v).rxSeen = s.rxSeen := by unfold State.setBandGain; split <;> rfl
@[simp] theorem State.setBandGain_lastData (s : State) (b : Band) (v : Int) :
    (s.setBandGain b v).lastData = s.lastData := by unfold State.setBandGain; split <;> rfl
@[simp] theorem State.setBandGain_totalRx (s : State) (b : Band) (v : Int) :
    (s.setBandGain b v).totalRx = s.totalRx := by unfold State.setBandGain; split <;> rfl
@[simp] theorem State.setBandGain_now (s : State) (b : Band) (v : Int) :
    (s.setBandGain b v).now = s.now := by unfold State.setBandGain; split <;> rfl
@[simp] theorem State.setBandGain_cmdErr (s : State) (b : Band) (v : Int) :
    (s.setBandGain b v).cmdErr = s.cmdErr := by unfold State.setBandGain; split <;> rfl
@[simp] theorem State.setBandGain_cfg (s : State) (b : Band) (v : Int) :
    (s.setBandGain b v).cfg = s.cfg := by unfold State.setBandGain; split <;> rfl
@[simp] theorem State.setBandGain_pending (s : State) (b : Band) (v : Int) :
    (s.setBandGain b v).pending = s.pending := by unfold State.setBandGain; split <;> rfl
@[simp] theorem State.setBandGain_res (s : State) (b : Band) (v : Int) :
    (s.setBandGain b v).res = s.res := by unfold State.setBandGain; split <;> rfl
@[simp] theorem State.setBandGain_pout (s : State) (b : Band) (v : Int) :
    (s.setBandGain b v).pout = s.pout := by unfold State.setBandGain; split <;> rfl
@[simp] theorem State.setGain_attached (s : State) (i : Nat) (v : Int) :
    (s.setGain i v).attached = s.attached := by unfold State.setGain; split <;> simp
@[simp] theorem State.setGain_fifoMem (s : State) (i : Nat) (v : Int) :
    (s.setGain i v).fifoMem = s.fifoMem := by unfold State.setGain; split <;> simp
@[simp] theorem State.setGain_wrPos (s : State) (i : Nat) (v : Int) :
    (s.setGain i v).wrPos = s.wrPos := by unfold State.setGain; split <;> simp
@[simp] theorem State.setGain_rdPos (s : State) (i : Nat) (v : Int) :
    (s.setGain i v).rdPos = s.rdPos := by unfold State.setGain; split <;> simp
@[simp] theorem State.setGain_avail (s : State) (i : Nat) (v : Int) :
    (s.setGain i v).avail = s.avail := by unfold State.setGain; split <;> simp
@[simp] theorem State.setGain_session (s : State) (i : Nat) (v : Int) :
    (s.setGain i v).session = s.session := by unfold State.setGain; split <;> simp
@[simp] theorem State.setGain_eofFlag (s : State) (i : Nat) (v : Int) :
    (s.setGain i v).eofFlag = s.eofFlag := by unfold State.setGain; split <;> simp
@[simp] theorem State.setGain_eofCause (s : State) (i : Nat) (v : Int) :
    (s.setGain i v).eofCause = s.eofCause := by unfold State.setGain; split <;> simp
@[simp] theorem State.setGain_rxSeen (s : State) (i : Nat) (v : Int) :
    (s.setGain i v).rxSeen = s.rxSeen := by unfold State.setGain; split <;> simp
@[simp] theorem State.setGain_lastData (s : State) (i : Nat) (v : Int) :
    (s.setGain i v).lastData = s.lastData := by unfold State.setGain; split <;> simp
@[simp] theorem State.setGain_totalRx (s : State) (i : Nat) (v : Int) :
    (s.setGain i v).totalRx = s.totalRx := by unfold State.setGain; split <;> simp
@[simp] theorem State.setGain_now (s : State) (i : Nat) (v : Int) :
    (s.setGain i v).now = s.now := by unfold State.setGain; split <;> simp
@[simp] theorem State.setGain_cmdErr (s : State) (i : Nat) (v : Int) :
    (s.setGain i v).cmdErr = s.cmdErr := by unfold State.setGain; split <;> simp
@[simp] theorem State.setGain_cfg (s : State) (i : Nat) (v : Int) :
    (s.setGain i v).cfg = s.cfg := by unfold State.setGain; split <;> simp
@[simp] theorem State.setGain_pending (s : State) (i : Nat) (v : Int) :
    (s.setGain i v).pending = s.pending := by unfold State.setGain; split <;> simp
@[simp] theorem State.setGain_res (s : State) (i : Nat) (v : Int) :
    (s.setGain i v).res = s.res := by unfold State.setGain; split <;> simp
@[simp] theorem State.setGain_pout (s : State) (i : Nat) (v : Int) :
    (s.setGain i v).pout = s.pout := by unfold State.setGain; split <;> simp
@[simp] theorem State.stepGain_attached (s : State) (i : Nat) (d : Int) :
    (s.stepGain i d).attached = s.attached := by unfold State.stepGain; split <;> simp
@[simp] theorem State.stepGain_fifoMem (s : State) (i : Nat) (d : Int) :
    (s.stepGain i d).fifoMem = s.fifoMem := by unfold State.stepGain; split <;> simp
@[simp] theorem State.stepGain_wrPos (s : State) (i : Nat) (d : Int) :
    (s.stepGain i d).wrPos = s.wrPos := by unfold State.stepGain; split <;> simp
@[simp] theorem State.stepGain_rdPos (s : State) (i : Nat) (d : Int) :
    (s.stepGain i d).rdPos = s.rdPos := by unfold State.stepGain; split <;> simp
@[simp] theorem State.stepGain_avail (s : State) (i : Nat) (d : Int) :
    (s.stepGain i d).avail = s.avail := by unfold State.stepGain; split <;> simp
@[simp] theorem State.stepGain_session (s : State) (i : Nat) (d : Int) :
    (s.stepGain i d).session = s.session := by unfold State.stepGain; split <;> simp
@[simp] theorem State.stepGain_eofFlag (s : State) (i : Nat) (d : Int) :
    (s.stepGain i d).eofFlag = s.eofFlag := by unfold State.stepGain; split <;> simp
@[simp] theorem State.stepGain_eofCause (s : State) (i : Nat) (d : Int) :
    (s.stepGain i d).eofCause = s.eofCause := by unfold State.stepGain; split <;> simp
@[simp] theorem State.stepGain_rxSeen (s : State) (i : Nat) (d : Int) :
    (s.stepGain i d).rxSeen = s.rxSeen := by unfold State.stepGain; split <;> simp
@[simp] theorem State.stepGain_lastData (s : State) (i : Nat) (d : Int) :
    (s.stepGain i d).lastData = s.lastData := by unfold State.stepGain; split <;> simp
@[simp] theorem State.stepGain_totalRx (s : State) (i : Nat) (d : Int) :
    (s.stepGain i d).totalRx = s.totalRx := by unfold State.stepGain; split <;> simp
@[simp] theorem State.stepGain_now (s : State) (i : Nat) (d : Int) :
    (s.stepGain i d).now = s.now := by unfold State.stepGain; split <;> simp
@[simp] theorem State.stepGain_cmdErr (s : State) (i : Nat) (d : Int) :
    (s.stepGain i d).cmdErr = s.cmdErr := by unfold State.stepGain; split <;> simp
@[simp] theorem State.stepGain_cfg (s : State) (i : Nat) (d : Int) :
    (s.stepGain i d).cfg = s.cfg := by unfold State.stepGain; split <;> simp
@[simp] theorem State.stepGain_pending (s : State) (i : Nat) (d : Int) :
    (s.stepGain i d).pending = s.pending := by unfold State.stepGain; split <;> simp
@[simp] theorem State.stepGain_res (s : State) (i : Nat) (d : Int) :
    (s.stepGain i d).res = s.res := by unfold State.stepGain; split <;> simp
@[simp] theorem State.stepGain_pout (s : State) (i : Nat) (d : Int) :
    (s.stepGain i d).pout = s.pout := by unfold State.stepGain; split <;> simp
@[simp] theorem State.flattenAll_attached (s : State) :
    s.flattenAll.attached = s.attached := by simp [State.flattenAll, Band.all]
@[simp] theorem State.flattenAll_fifoMem (s : State) :
    s.flattenAll.fifoMem = s.fifoMem := by simp [State.flattenAll, Band.all]
@[simp] theorem State.flattenAll_wrPos (s : State) :
    s.flattenAll.wrPos = s.wrPos := by simp [State.flattenAll, Band.all]
@[simp] theorem State.flattenAll_rdPos (s : State) :
    s.flattenAll.rdPos = s.rdPos := by simp [State.flattenAll, Band.all]
@[simp] theorem State.flattenAll_avail (s : State) :
    s.flattenAll.avail = s.avail := by simp [State.flattenAll, Band.all]
@[simp] theorem State.flattenAll_session (s : State) :
    s.flattenAll.session = s.session := by simp [State.flattenAll, Band.all]
@[simp] theorem State.flattenAll_eofFlag (s : State) :
    s.flattenAll.eofFlag = s.eofFlag := by simp [State.flattenAll, Band.all]
@[simp] theorem State.flattenAll_eofCause (s : State) :
    s.flattenAll.eofCause = s.eofCause := by simp [State.flattenAll, Band.all]
@[simp] theorem State.flattenAll_rxSeen (s : State) :
    s.flattenAll.rxSeen = s.rxSeen := by simp [State.flattenAll, Band.all]
@[simp] theorem State.flattenAll_lastData (s : State) :
    s.flattenAll.lastData = s.lastData := by simp [State.flattenAll, Band.all]
@[simp] theorem State.flattenAll_totalRx (s : State) :
    s.flattenAll.totalRx = s.totalRx := by simp [State.flattenAll, Band.all]
@[simp] theorem State.flattenAll_now (s : State) :
    s.flattenAll.now = s.now := by simp [State.flattenAll, Band.all]
@[simp] theorem State.flattenAll_cmdErr (s : State) :
    s.flattenAll.cmdErr = s.cmdErr := by simp [State.flattenAll, Band.all]
@[simp] theorem State.flattenAll_cfg (s : State) :
    s.flattenAll.cfg = s.cfg := by simp [State.flattenAll, Band.all]
@[simp] theorem State.flattenAll_pending (s : State) :
    s.flattenAll.pending = s.pending := by simp [State.flattenAll, Band.all]
@[simp] theorem State.flattenAll_res (s : State) :
    s.flattenAll.res = s.res := by simp [State.flattenAll, Band.all]
@[simp] theorem State.flattenAll_pout (s : State) :
    s.flattenAll.pout = s.pout := by simp [State.flattenAll, Band.all]
@[simp] theorem State.endOfStream_gain (s : State) (c : EofCause) :
    (s.endOfStream c).gain = s.gain := by unfold State.endOfStream; split <;> rfl
@[simp] theorem State.endOfStream_coef (s : State) (c : EofCause) :
    (s.endOfStream c).coef = s.coef := by unfold State.endOfStream; split <;> rfl
@[simp] theorem State.endOfStream_hist (s : State) (c : EofCause) :
    (s.endOfStream c).hist = s.hist := by unfold State.endOfStream; split <;> rfl
@[simp] theorem State.endOfStream_undef (s : State) (c : EofCause) :
    (s.endOfStream c).undef = s.undef := by unfold State.endOfStream; split <;> rfl
@[simp] theorem State.endOfStream_attached (s : State) (c : EofCause) :
    (s.endOfStream c).attached = s.attached := by unfold State.endOfStream; split <;> rfl
@[simp] theorem State.endOfStream_fifoMem (s : State) (c : EofCause) :
    (s.endOfStream c).fifoMem = s.fifoMem := by unfold State.endOfStream; split <;> rfl
@[simp] theorem State.endOfStream_wrPos (s : State) (c : EofCause) :
    (s.endOfStream c).wrPos = s.wrPos := by unfold State.endOfStream; split <;> rfl
@[simp] theorem State.endOfStream_rdPos (s : State) (c : EofCause) :
    (s.endOfStream c).rdPos = s.rdPos := by unfold State.endOfStream; split <;> rfl
@[simp] theorem State.endOfStream_avail (s : State) (c : EofCause) :
    (s.endOfStream c).avail = s.avail := by unfold State.endOfStream; split <;> rfl
@[simp] theorem State.endOfStream_rxSeen (s : State) (c : EofCause) :
    (s.endOfStream c).rxSeen = s.rxSeen := by unfold State.endOfStream; split <;> rfl
@[simp] theorem State.endOfStream_lastData (s : State) (c : EofCause) :
    (s.endOfStream c).lastData = s.lastData := by unfold State.endOfStream; split <;> rfl
@[simp] theorem State.endOfStream_totalRx (s : State) (c : EofCause) :
    (s.endOfStream c).totalRx = s.totalRx := by unfold State.endOfStream; split <;> rfl
@[simp] theorem State.endOfStream_now (s : State) (c : EofCause) :
    (s.endOfStream c).now = s.now := by unfold State.endOfStream; split <;> rfl
@[simp] theorem State.endOfStream_cmdErr (s : State) (c : EofCause) :
    (s.endOfStream c).cmdErr = s.cmdErr := by unfold State.endOfStream; split <;> rfl
@[simp] theorem State.endOfStream_cfg (s : State) (c : EofCause) :
    (s.endOfStream c).cfg = s.cfg := by unfold State.endOfStream; split <;> rfl
@[simp] theorem State.endOfStream_pending (s : State) (c : EofCause) :
    (s.endOfStream c).pending = s.pending := by unfold State.endOfStream; split <;> rfl
@[simp] theorem State.endOfStream_res (s : State) (c : EofCause) :
    (s.endOfStream c).res = s.res := by unfold State.endOfStream; split <;> rfl
@[simp] theorem State.endOfStream_pout (s : State) (c : EofCause) :
    (s.endOfStream c).pout = s.pout := by unfold State.endOfStream; split <;> rfl

/-! ### Reset -/

@[simp] theorem State.reset_gain : State.reset.gain = PerBand.all 0 := rfl
@[simp] theorem State.reset_coef : State.reset.coef = PerBand.all Coef.passthrough := rfl
@[simp] theorem State.reset_hist : State.reset.hist = PerBand.all zeroHists := rfl
@[simp] theorem State.reset_undef : State.reset.undef = PerBand.all false := rfl
@[simp] theorem State.reset_attached : State.reset.attached = false := rfl
@[simp] theorem State.reset_fifoMem : State.reset.fifoMem = [] := rfl
@[simp] theorem State.reset_wrPos : State.reset.wrPos = 0 := rfl
@[simp] theorem State.reset_rdPos : State.reset.rdPos = 0 := rfl
@[simp] theorem State.reset_avail : State.reset.avail = 0 := rfl
@[simp] theorem State.reset_session : State.reset.session = .idle := rfl
@[simp] theorem State.reset_eofFlag : State.reset.eofFlag = false := rfl
@[simp] theorem State.reset_eofCause : State.reset.eofCause = .none := rfl
@[simp] theorem State.reset_rxSeen : State.reset.rxSeen = false := rfl
@[simp] theorem State.reset_lastData : State.reset.lastData = 0 := rfl
@[simp] theorem State.reset_totalRx : State.reset.totalRx = 0 := rfl
@[simp] theorem State.reset_now : State.reset.now = 0 := rfl
@[simp] theorem State.reset_cmdErr : State.reset.cmdErr = false := rfl
@[simp] theorem State.reset_cfg : State.reset.cfg = Params.default := rfl
@[simp] theorem State.reset_pending : State.reset.pending = [] := rfl
@[simp] theorem State.reset_res : State.reset.res = 0 := rfl
@[simp] theorem State.reset_pout : State.reset.pout = [] := rfl

end Sys2Proof.Machine
end

