-- ==== Sys2Proof/Laws/Ops.lean ====
section
/-!
SUPPORT. What each shared operation can do, said once: SetGain, the end of a session, FifoWrite and FifoRead on the
unread bytes and on the ring's invariants, and one step.
-/

namespace Sys2Proof.Machine

open Sys2Proof

/-! ### SetGain (R184) -/

/-- SetGain on a band either changes nothing or makes exactly the writes of a gain change. -/
theorem State.setBandGain_cases (s : State) (b : Band) (v : Int) :
    (clampGain v = (s.gain.get b).toInt ∧ s.setBandGain b v = s) ∨
      (clampGain v ≠ (s.gain.get b).toInt ∧ s.setBandGain b v = s.changeGain b (clampGain v)) := by
  unfold State.setBandGain
  split_ifs with h
  · exact .inl ⟨h, rfl⟩
  · exact .inr ⟨h, rfl⟩

theorem State.setGain_of_index (s : State) (b : Band) (v : Int) : s.setGain b.index v = s.setBandGain b v := by
  simp [State.setGain]

theorem State.setGain_out_of_range (s : State) {i : Nat} (h : 4 < i) (v : Int) : s.setGain i v = s := by
  simp [State.setGain, Band.ofIndex_eq_none.2 h]

/-- SetGain by index: ignored out of range, else SetGain on the band named. -/
theorem State.setGain_cases (s : State) (i : Nat) (v : Int) :
    (4 < i ∧ s.setGain i v = s) ∨ ∃ b : Band, i = b.index ∧ s.setGain i v = s.setBandGain b v := by
  cases h : Band.ofIndex i with
  | none => exact .inl ⟨Band.ofIndex_eq_none.1 h, by simp [State.setGain, h]⟩
  | some b => exact .inr ⟨b, Band.ofIndex_eq_some.1 h, by simp [State.setGain, h]⟩

/-- A step by index: ignored out of range, else SetGain by the sum. -/
theorem State.stepGain_cases (s : State) (i : Nat) (d : Int) :
    (4 < i ∧ s.stepGain i d = s) ∨
      ∃ b : Band, i = b.index ∧ s.stepGain i d = s.setBandGain b ((s.gain.get b).toInt + d) := by
  cases h : Band.ofIndex i with
  | none => exact .inl ⟨Band.ofIndex_eq_none.1 h, by simp [State.stepGain, h]⟩
  | some b => exact .inr ⟨b, Band.ofIndex_eq_some.1 h, by simp [State.stepGain, h]⟩

/-! ### EQ.FLAT (R192) -/

/-- SetGain(b, 0) over a list of bands: the bands outside it are as before; a band in it is flat, kept as it was if it
was flat, else with zero histories, the ROM's gain-0 row, and defined. -/
theorem foldl_setBandGain_zero (l : List Band) : ∀ (s : State) (b : Band),
    (b ∉ l → SameBand b s (l.foldl (fun t b => t.setBandGain b 0) s)) ∧
    (b ∈ l → (l.foldl (fun t b => t.setBandGain b 0) s).gain.get b = 0 ∧
      (s.gain.get b = 0 → SameBand b s (l.foldl (fun t b => t.setBandGain b 0) s)) ∧
      (s.gain.get b ≠ 0 → (l.foldl (fun t b => t.setBandGain b 0) s).hist.get b = zeroHists ∧
        (l.foldl (fun t b => t.setBandGain b 0) s).coef.get b = coefRom s.cfg b 0 ∧
        (l.foldl (fun t b => t.setBandGain b 0) s).undef.get b = false)) := by
  induction l with
  | nil => intro s b; exact ⟨fun _ => ⟨rfl, rfl, rfl, rfl⟩, fun h => by simp at h⟩
  | cons a l ih =>
    intro s b
    have h0 : clampGain 0 = 0 := by decide
    have ha0 : (s.setBandGain a 0).gain.get a = 0 := by
      rcases s.setBandGain_cases a 0 with ⟨h, he⟩ | ⟨_, he⟩
      · rw [he]; apply BitVec.eq_of_toInt_eq; rw [← h]; decide
      · rw [he, h0, State.changeGain_gain, PerBand.get_set_same]; rfl
    have hb : SameBand b s (s.setBandGain a 0) ∨
        (b = a ∧ s.gain.get a ≠ 0 ∧ (s.setBandGain a 0).hist.get a = zeroHists ∧
          (s.setBandGain a 0).coef.get a = coefRom s.cfg a 0 ∧ (s.setBandGain a 0).undef.get a = false) := by
      rcases s.setBandGain_cases a 0 with ⟨_, he⟩ | ⟨h, he⟩
      · rw [he]; exact .inl ⟨rfl, rfl, rfl, rfl⟩
      · rw [he]
        by_cases hx : b = a
        · refine .inr ⟨hx, fun hz => ?_, by simp, by simp [h0], by simp⟩
          rw [hz] at h; revert h; decide
        · exact .inl (by simp [SameBand, hx])
    obtain ⟨ih1, ih2⟩ := ih (s.setBandGain a 0) b
    simp only [List.foldl_cons]
    have trans : ∀ t : State, SameBand b s (s.setBandGain a 0) → SameBand b (s.setBandGain a 0) t → SameBand b s t := by
      rintro t ⟨h1, h2, h3, h4⟩ ⟨k1, k2, k3, k4⟩
      exact ⟨k1.trans h1, k2.trans h2, k3.trans h3, k4.trans h4⟩
    rcases hb with hs | ⟨rfl, hne, hh, hc, hu⟩
    · refine ⟨fun hl => trans _ hs (ih1 fun hm => hl (List.mem_cons_of_mem _ hm)), fun hl => ?_⟩
      by_cases hm : b ∈ l
      · obtain ⟨k0, k1, k2⟩ := ih2 hm
        rw [hs.1] at k1 k2
        rw [State.setBandGain_cfg] at k2
        exact ⟨k0, fun h => trans _ hs (k1 h), k2⟩
      · obtain rfl : b = a := by simpa [hm] using hl
        refine ⟨by rw [(ih1 hm).1, ha0], fun _ => trans _ hs (ih1 hm), fun hne => absurd ?_ hne⟩
        rw [← hs.1, ha0]
    · refine ⟨fun hl => absurd List.mem_cons_self hl, fun _ => ?_⟩
      have hk : SameBand b (s.setBandGain b 0) (l.foldl (fun t b => t.setBandGain b 0) (s.setBandGain b 0)) := by
        by_cases hm : b ∈ l
        · exact (ih2 hm).2.1 ha0
        · exact ih1 hm
      obtain ⟨k1, k2, k3, k4⟩ := hk
      exact ⟨k1.trans ha0, fun h => absurd h hne, fun _ => ⟨k3.trans hh, k2.trans hc, k4.trans hu⟩⟩

/-- What the five SetGain(b, 0) of EQ.FLAT leave in a band. -/
theorem State.flattenAll_spec (s : State) (b : Band) :
    s.flattenAll.gain.get b = 0 ∧ (s.gain.get b = 0 → SameBand b s s.flattenAll) ∧
      (s.gain.get b ≠ 0 → s.flattenAll.hist.get b = zeroHists ∧ s.flattenAll.coef.get b = coefRom s.cfg b 0 ∧
        s.flattenAll.undef.get b = false) :=
  (foldl_setBandGain_zero Band.all s b).2 (Band.mem_all b)

/-! ### The end of a session (R330, R331, R333, R335) -/

theorem State.endOfStream_running {s : State} (h : s.session = .running) (c : EofCause) :
    s.endOfStream c = { s with session := .eof, eofFlag := true, eofCause := c } := by
  simp [State.endOfStream, h]

theorem State.endOfStream_not_running {s : State} (h : s.session ≠ .running) (c : EofCause) :
    s.endOfStream c = s := by
  simp [State.endOfStream, h]

/-! ### FifoWrite and FifoRead (R88, R89) -/

@[simp] theorem State.unread_length (s : State) : s.unread.length = s.avail.toNat := by simp [State.unread]

/-- What a valid instance gives: the capacity is positive and fits 32 bits. -/
theorem Params.capacity_bounds {p : Params} (h : p.Valid) : 0 < p.fifoCapacity ∧ p.fifoCapacity < 2 ^ 32 := by
  obtain ⟨h1, h2, _, _, h5⟩ := h
  omega

theorem toNat_ofNat32 {n : Nat} (h : n < 2 ^ 32) : (BitVec.ofNat 32 n).toNat = n := by
  rw [BitVec.toNat_ofNat]; exact Nat.mod_eq_of_lt h

/-- The bytes a FifoWrite stores fit in the free space. -/
theorem State.stored_le_free (s : State) (d : List Byte) : min d.length s.free ≤ s.free := Nat.min_le_right _ _

theorem State.fifoWrite_avail_toNat {s : State} (hc : s.cfg.Valid) (hr : s.RingOk) (d : List Byte) :
    (s.fifoWrite d).avail.toNat = s.avail.toNat + min d.length s.free := by
  have hb := Params.capacity_bounds hc
  have := s.stored_le_free d
  have h1 := hr.1
  rw [State.fifoWrite_avail, toNat_ofNat32]
  unfold State.free at *
  omega

theorem State.fifoWrite_wrPos_toNat {s : State} (hc : s.cfg.Valid) (d : List Byte) :
    (s.fifoWrite d).wrPos.toNat = (s.wrPos.toNat + min d.length s.free) % s.cfg.fifoCapacity := by
  have hb := Params.capacity_bounds hc
  rw [State.fifoWrite_wrPos, toNat_ofNat32]
  exact lt_trans (Nat.mod_lt _ hb.1) hb.2

/-- FifoWrite keeps the ring invariants (R45). -/
theorem State.fifoWrite_ringOk {s : State} (hc : s.cfg.Valid) (hr : s.RingOk) (d : List Byte) :
    (s.fifoWrite d).RingOk := by
  have hb := Params.capacity_bounds hc
  obtain ⟨h1, h2, h3, h4⟩ := hr
  refine ⟨?_, ?_, ?_, ?_⟩
  · rw [State.fifoWrite_avail_toNat hc ⟨h1, h2, h3, h4⟩, State.fifoWrite_cfg]
    have := s.stored_le_free d
    unfold State.free at *
    omega
  · rw [State.fifoWrite_wrPos_toNat hc]; exact Nat.mod_lt _ hb.1
  · exact h3
  · rw [State.fifoWrite_wrPos_toNat hc, State.fifoWrite_avail_toNat hc ⟨h1, h2, h3, h4⟩, State.fifoWrite_rdPos,
      State.fifoWrite_cfg, h4, Nat.mod_add_mod]
    congr 1; omega

/-- FifoWrite keeps the storage canonical and inside the capacity. -/
theorem State.fifoWrite_memoryOk {s : State} (hc : s.cfg.Valid) (hm : s.MemoryOk) (d : List Byte) :
    (s.fifoWrite d).MemoryOk :=
  ⟨memWrite_wf _ hm.1 _ _, memWrite_inside (Params.capacity_bounds hc).1 hm.2 _ _⟩

/-- FifoWrite appends to the unread bytes the first bytes that fit, and loses none (R88, R91). -/
theorem State.fifoWrite_unread {s : State} (hc : s.cfg.Valid) (hr : s.RingOk) (hm : s.MemoryOk) (d : List Byte) :
    (s.fifoWrite d).unread = s.unread ++ d.take s.free := by
  have hle := s.stored_le_free d
  have h1 := hr.1
  have hlen : (d.take (min d.length s.free)).length = min d.length s.free := by simp
  have htake : d.take (min d.length s.free) = d.take s.free := by
    rcases Nat.le_total d.length s.free with h | h
    · rw [Nat.min_eq_left h, List.take_of_length_le h, List.take_length]
    · rw [Nat.min_eq_right h]
  unfold State.unread
  rw [State.fifoWrite_avail_toNat hc hr, State.fifoWrite_rdPos, State.fifoWrite_cfg, State.fifoWrite_fifoMem, hr.2.2.2,
    memWrite_mod, memRead_add]
  congr 1
  · refine memRead_memWrite_disjoint _ _ _ _ ?_
    rw [hlen]; unfold State.free at *; omega
  · have h := memRead_memWrite hm.1 (s.rdPos.toNat + s.avail.toNat) (d.take (min d.length s.free))
      (cap := s.cfg.fifoCapacity) (by rw [hlen]; unfold State.free at *; omega)
    rw [hlen] at h
    rw [h, htake]

theorem State.fifoRead_avail_toNat {s : State} (n : Nat) :
    (s.fifoRead n).2.avail.toNat = s.avail.toNat - min n s.avail.toNat := by
  rw [State.fifoRead_avail, toNat_ofNat32]
  have := s.avail.isLt
  omega

/-- FifoRead keeps the ring invariants (R45). -/
theorem State.fifoRead_ringOk {s : State} (hc : s.cfg.Valid) (hr : s.RingOk) (n : Nat) : (s.fifoRead n).2.RingOk := by
  have hb := Params.capacity_bounds hc
  obtain ⟨h1, h2, h3, h4⟩ := hr
  have hrd : (s.fifoRead n).2.rdPos.toNat = (s.rdPos.toNat + min n s.avail.toNat) % s.cfg.fifoCapacity := by
    rw [State.fifoRead_rdPos, toNat_ofNat32]
    exact lt_trans (Nat.mod_lt _ hb.1) hb.2
  refine ⟨?_, h2, ?_, ?_⟩
  · rw [State.fifoRead_avail_toNat, State.fifoRead_cfg]; omega
  · rw [hrd]; exact Nat.mod_lt _ hb.1
  · rw [hrd, State.fifoRead_avail_toNat, State.fifoRead_wrPos, State.fifoRead_cfg, h4, Nat.mod_add_mod]
    congr 1; omega

/-- FifoRead returns the oldest bytes and leaves the rest (R89, R91). -/
theorem State.fifoRead_unread {s : State} (hc : s.cfg.Valid) (n : Nat) :
    (s.fifoRead n).1 = s.unread.take n ∧ (s.fifoRead n).2.unread = s.unread.drop n := by
  have hb := Params.capacity_bounds hc
  have hrd : (s.fifoRead n).2.rdPos.toNat = (s.rdPos.toNat + min n s.avail.toNat) % s.cfg.fifoCapacity := by
    rw [State.fifoRead_rdPos, toNat_ofNat32]
    exact lt_trans (Nat.mod_lt _ hb.1) hb.2
  have hsplit : s.unread = memRead s.cfg.fifoCapacity s.fifoMem s.rdPos.toNat (min n s.avail.toNat) ++
      memRead s.cfg.fifoCapacity s.fifoMem (s.rdPos.toNat + min n s.avail.toNat)
        (s.avail.toNat - min n s.avail.toNat) := by
    rw [← memRead_add, State.unread]; congr 1; omega
  have hmin : s.unread.take n = s.unread.take (min n s.avail.toNat) := by
    rcases Nat.le_total n s.avail.toNat with h | h
    · rw [Nat.min_eq_left h]
    · rw [Nat.min_eq_right h, List.take_of_length_le (by simpa using h), List.take_of_length_le (by simp)]
  have hmin' : s.unread.drop n = s.unread.drop (min n s.avail.toNat) := by
    rcases Nat.le_total n s.avail.toNat with h | h
    · rw [Nat.min_eq_left h]
    · rw [Nat.min_eq_right h, List.drop_of_length_le (by simpa using h), List.drop_of_length_le (by simp)]
  constructor
  · rw [State.fifoRead_data, hmin, hsplit, List.take_left' (by simp)]
  · rw [hmin', hsplit, List.drop_left' (by simp), State.unread, State.fifoRead_avail_toNat, hrd,
      State.fifoRead_cfg, State.fifoRead_fifoMem, memRead_mod]

/-- The cleared FIFO has no unread byte and satisfies the ring invariants (R300, R306). -/
theorem State.clearFifo_unread (s : State) : s.clearFifo.unread = [] := rfl

theorem State.clearFifo_ringOk {s : State} (hc : s.cfg.Valid) : s.clearFifo.RingOk := by
  have hb := Params.capacity_bounds hc
  refine ⟨Nat.zero_le _, hb.1, hb.1, ?_⟩
  simp

/-- A chunk is a whole number of frames, no more than is available and than the maximum (R360, R363). -/
theorem State.chunkBytes_spec (s : State) :
    s.chunkBytes % Config.frameBytes = 0 ∧ s.chunkBytes ≤ s.avail.toNat ∧ s.chunkBytes ≤ s.cfg.maxChunkBytes := by
  simp only [State.chunkBytes, Config.frameBytes]
  refine ⟨?_, ?_, ?_⟩ <;> omega

@[simp] theorem wavHeader_length (k : Nat) : (wavHeader k).length = 44 := by simp [wavHeader]

/-- The unread bytes are determined by the parameters, the storage, RD_POS and AVAIL. -/
theorem State.unread_congr {s t : State} (h1 : t.cfg = s.cfg) (h2 : t.fifoMem = s.fifoMem) (h3 : t.rdPos = s.rdPos)
    (h4 : t.avail = s.avail) : t.unread = s.unread := by
  simp [State.unread, *]

/-! ### One step (R100) -/

/-- What one step does: nothing when nothing is pending; else CmdError or the decoded instruction, on the state without
the transaction. -/
theorem step_cases (s : State) :
    (s.pending = [] ∧ step s = .next s) ∨
      ∃ t rest, s.pending = t :: rest ∧
        ((∃ e, decode t = .error e ∧ step s = .next (State.raiseCmdError { s with pending := rest })) ∨
          (∃ i, decode t = .ok i ∧ step s = exec i { s with pending := rest })) := by
  cases h : s.pending with
  | nil => exact .inl ⟨rfl, by simp [step, State.takeTransaction, h]⟩
  | cons t rest =>
    refine .inr ⟨t, rest, rfl, ?_⟩
    cases hd : decode t with
    | error e => exact .inl ⟨e, rfl, by simp [step, State.takeTransaction, h, hd]⟩
    | ok i => exact .inr ⟨i, rfl, by simp [step, State.takeTransaction, h, hd]⟩

end Sys2Proof.Machine
end

