-- ==== Sys2Proof/Laws/PerInstr.lean ====
section
/-!
SUPPORT. Facts about every instruction as syntax, one lemma per constructor.

`EncodeLegal`: the transaction that the encoder writes passes the checks (a) to (d) of R130, whatever the operands.
-/

namespace Sys2Proof.Laws

open Sys2Proof

/-- The encoded transaction is legal: its opcode has a row, and RSV, the row's zero fields and the payload pass. -/
def EncodeLegal.Statement (i : Instr) : Prop :=
  ∃ r, opcodeRow (cmdOp (encodeCmd i)) = some r ∧ cmdRsv (encodeCmd i) = 0 ∧
    zeroFieldsOk r.format (encodeCmd i) = true ∧ payloadOk r.format (encodePayload i) = true

theorem EncodeLegal.nop : EncodeLegal.Statement .nop :=
  ⟨_, by rw [encodeCmd, cmdOp_encodeWord]; rfl, by simp [encodeCmd], by simp [zeroFieldsOk, encodeCmd], rfl⟩

theorem EncodeLegal.getStatus : EncodeLegal.Statement .getStatus :=
  ⟨_, by rw [encodeCmd, cmdOp_encodeWord]; rfl, by simp [encodeCmd], by simp [zeroFieldsOk, encodeCmd], rfl⟩

theorem EncodeLegal.clrErr : EncodeLegal.Statement .clrErr :=
  ⟨_, by rw [encodeCmd, cmdOp_encodeWord]; rfl, by simp [encodeCmd], by simp [zeroFieldsOk, encodeCmd], rfl⟩

theorem EncodeLegal.eqInit : EncodeLegal.Statement .eqInit :=
  ⟨_, by rw [encodeCmd, cmdOp_encodeWord]; rfl, by simp [encodeCmd], by simp [zeroFieldsOk, encodeCmd], rfl⟩

theorem EncodeLegal.eqDetach : EncodeLegal.Statement .eqDetach :=
  ⟨_, by rw [encodeCmd, cmdOp_encodeWord]; rfl, by simp [encodeCmd], by simp [zeroFieldsOk, encodeCmd], rfl⟩

theorem EncodeLegal.eqSetGain (band : Nat) (imm : Int) : EncodeLegal.Statement (.eqSetGain band imm) :=
  ⟨_, by rw [encodeCmd, cmdOp_encodeWord]; rfl, by simp [encodeCmd], by simp [zeroFieldsOk], rfl⟩

theorem EncodeLegal.eqStepUp (band : Nat) : EncodeLegal.Statement (.eqStepUp band) :=
  ⟨_, by rw [encodeCmd, cmdOp_encodeWord]; rfl, by simp [encodeCmd], by simp [zeroFieldsOk, encodeCmd], rfl⟩

theorem EncodeLegal.eqStepDn (band : Nat) : EncodeLegal.Statement (.eqStepDn band) :=
  ⟨_, by rw [encodeCmd, cmdOp_encodeWord]; rfl, by simp [encodeCmd], by simp [zeroFieldsOk, encodeCmd], rfl⟩

theorem EncodeLegal.eqFlat : EncodeLegal.Statement .eqFlat :=
  ⟨_, by rw [encodeCmd, cmdOp_encodeWord]; rfl, by simp [encodeCmd], by simp [zeroFieldsOk, encodeCmd], rfl⟩

theorem EncodeLegal.eqGetGain (band : Nat) : EncodeLegal.Statement (.eqGetGain band) :=
  ⟨_, by rw [encodeCmd, cmdOp_encodeWord]; rfl, by simp [encodeCmd], by simp [zeroFieldsOk, encodeCmd], rfl⟩

theorem EncodeLegal.eqNBands : EncodeLegal.Statement .eqNBands :=
  ⟨_, by rw [encodeCmd, cmdOp_encodeWord]; rfl, by simp [encodeCmd], by simp [zeroFieldsOk, encodeCmd], rfl⟩

theorem EncodeLegal.eqGetFreq (band : Nat) : EncodeLegal.Statement (.eqGetFreq band) :=
  ⟨_, by rw [encodeCmd, cmdOp_encodeWord]; rfl, by simp [encodeCmd], by simp [zeroFieldsOk, encodeCmd], rfl⟩

theorem EncodeLegal.eqGetType (band : Nat) : EncodeLegal.Statement (.eqGetType band) :=
  ⟨_, by rw [encodeCmd, cmdOp_encodeWord]; rfl, by simp [encodeCmd], by simp [zeroFieldsOk, encodeCmd], rfl⟩

theorem EncodeLegal.eqActive : EncodeLegal.Statement .eqActive :=
  ⟨_, by rw [encodeCmd, cmdOp_encodeWord]; rfl, by simp [encodeCmd], by simp [zeroFieldsOk, encodeCmd], rfl⟩

theorem EncodeLegal.eqProcess (pin : List Byte) : EncodeLegal.Statement (.eqProcess pin) :=
  ⟨_, by rw [encodeCmd, cmdOp_encodeWord]; rfl, by simp [encodeCmd], by simp [zeroFieldsOk, encodeCmd], rfl⟩

theorem EncodeLegal.fifoStart : EncodeLegal.Statement .fifoStart :=
  ⟨_, by rw [encodeCmd, cmdOp_encodeWord]; rfl, by simp [encodeCmd], by simp [zeroFieldsOk, encodeCmd], rfl⟩

theorem EncodeLegal.fifoStop : EncodeLegal.Statement .fifoStop :=
  ⟨_, by rw [encodeCmd, cmdOp_encodeWord]; rfl, by simp [encodeCmd], by simp [zeroFieldsOk, encodeCmd], rfl⟩

theorem EncodeLegal.fifoReset : EncodeLegal.Statement .fifoReset :=
  ⟨_, by rw [encodeCmd, cmdOp_encodeWord]; rfl, by simp [encodeCmd], by simp [zeroFieldsOk, encodeCmd], rfl⟩

theorem EncodeLegal.fifoExtract : EncodeLegal.Statement .fifoExtract :=
  ⟨_, by rw [encodeCmd, cmdOp_encodeWord]; rfl, by simp [encodeCmd], by simp [zeroFieldsOk, encodeCmd], rfl⟩

theorem EncodeLegal.fifoReady : EncodeLegal.Statement .fifoReady :=
  ⟨_, by rw [encodeCmd, cmdOp_encodeWord]; rfl, by simp [encodeCmd], by simp [zeroFieldsOk, encodeCmd], rfl⟩

theorem EncodeLegal.fifoEof : EncodeLegal.Statement .fifoEof :=
  ⟨_, by rw [encodeCmd, cmdOp_encodeWord]; rfl, by simp [encodeCmd], by simp [zeroFieldsOk, encodeCmd], rfl⟩

theorem EncodeLegal.fifoRecv : EncodeLegal.Statement .fifoRecv :=
  ⟨_, by rw [encodeCmd, cmdOp_encodeWord]; rfl, by simp [encodeCmd], by simp [zeroFieldsOk, encodeCmd], rfl⟩

theorem EncodeLegal.fifoAvail : EncodeLegal.Statement .fifoAvail :=
  ⟨_, by rw [encodeCmd, cmdOp_encodeWord]; rfl, by simp [encodeCmd], by simp [zeroFieldsOk, encodeCmd], rfl⟩

theorem EncodeLegal.fifoTotalLo : EncodeLegal.Statement .fifoTotalLo :=
  ⟨_, by rw [encodeCmd, cmdOp_encodeWord]; rfl, by simp [encodeCmd], by simp [zeroFieldsOk, encodeCmd], rfl⟩

theorem EncodeLegal.fifoTotalHi : EncodeLegal.Statement .fifoTotalHi :=
  ⟨_, by rw [encodeCmd, cmdOp_encodeWord]; rfl, by simp [encodeCmd], by simp [zeroFieldsOk, encodeCmd], rfl⟩

theorem EncodeLegal.fifoState : EncodeLegal.Statement .fifoState :=
  ⟨_, by rw [encodeCmd, cmdOp_encodeWord]; rfl, by simp [encodeCmd], by simp [zeroFieldsOk, encodeCmd], rfl⟩

theorem EncodeLegal.fifoCap : EncodeLegal.Statement .fifoCap :=
  ⟨_, by rw [encodeCmd, cmdOp_encodeWord]; rfl, by simp [encodeCmd], by simp [zeroFieldsOk, encodeCmd], rfl⟩

theorem EncodeLegal.srcRead (pin : List Byte) : EncodeLegal.Statement (.srcRead pin) :=
  ⟨_, by rw [encodeCmd, cmdOp_encodeWord]; rfl, by simp [encodeCmd], by simp [zeroFieldsOk, encodeCmd], rfl⟩

theorem EncodeLegal.srcError : EncodeLegal.Statement .srcError :=
  ⟨_, by rw [encodeCmd, cmdOp_encodeWord]; rfl, by simp [encodeCmd], by simp [zeroFieldsOk, encodeCmd], rfl⟩

theorem EncodeLegal.srcOpenFail : EncodeLegal.Statement .srcOpenFail :=
  ⟨_, by rw [encodeCmd, cmdOp_encodeWord]; rfl, by simp [encodeCmd], by simp [zeroFieldsOk, encodeCmd], rfl⟩

theorem EncodeLegal.srcWouldBlock : EncodeLegal.Statement .srcWouldBlock :=
  ⟨_, by rw [encodeCmd, cmdOp_encodeWord]; rfl, by simp [encodeCmd], by simp [zeroFieldsOk, encodeCmd], rfl⟩

theorem EncodeLegal.timeTick (imm : Nat) : EncodeLegal.Statement (.timeTick imm) :=
  ⟨_, by rw [encodeCmd, cmdOp_encodeWord]; rfl, by simp [encodeCmd], by simp [zeroFieldsOk, encodeCmd], rfl⟩

end Sys2Proof.Laws
end

