-- ==== Sys2Proof/Laws/Process.lean ====
section
/-!
SUPPORT. What EQ.PROCESS's datapath can do, said once: the two paths of the transaction, a buffer in two parts, and
what the cascade leaves alone.
-/

namespace Sys2Proof.Machine

open Sys2Proof

theorem State.eqActive_iff (s : State) : s.eqActive = true ↔ ∃ b : Band, s.gain.get b ≠ 0 := by
  constructor
  · intro h
    simp only [State.eqActive, List.any_eq_true, bne_iff_ne] at h
    exact h.imp fun b hb => hb.2
  · rintro ⟨b, hb⟩
    simp only [State.eqActive, List.any_eq_true, bne_iff_ne]
    exact ⟨b, Band.mem_all b, hb⟩

theorem State.eqActive_eq_false_iff (s : State) : s.eqActive = false ↔ ∀ b : Band, s.gain.get b = 0 := by
  rw [← Bool.not_eq_true, State.eqActive_iff]; simp

/-! ### The two paths (R230, R231) -/

theorem execEqProcess_pass {s : State} (h : (s.attached && s.eqActive) = false) (pin : List Byte) :
    execEqProcess pin s = .next (s.answer 0 pin) := by
  simp [execEqProcess, h]

theorem execEqProcess_filter {s : State} (h : (s.attached && s.eqActive) = true) (pin : List Byte) :
    execEqProcess pin s = processBuffer pin s := by
  simp [execEqProcess, h]

/-- A next state of EQ.PROCESS: the payload passed through, or the buffer filtered and the histories written back. -/
theorem execEqProcess_next {s t : State} {pin : List Byte} (h : execEqProcess pin s = .next t) :
    ((s.attached && s.eqActive) = false ∧ t = s.answer 0 pin) ∨
      ((s.attached && s.eqActive) = true ∧
        ∃ out hs, filterBuffer s pin s.hist = .ok (out, hs) ∧ t = State.answer { s with hist := hs } 0 out) := by
  cases hp : (s.attached && s.eqActive) with
  | false => rw [execEqProcess_pass hp] at h; cases h; exact .inl ⟨rfl, rfl⟩
  | true =>
    rw [execEqProcess_filter hp, processBuffer] at h
    split at h
    · next out hs ho => cases h; exact .inr ⟨rfl, out, hs, ho, rfl⟩
    · cases h

/-! ### A buffer's parts (R239, R241) -/

/-- A buffer shorter than a frame comes back as it is (R239). -/
theorem filterBuffer_short (s : State) {tail : List Byte} (h : tail.length < 4) (hs : Hists) :
    filterBuffer s tail hs = .ok (tail, hs) := by
  match tail with
  | [] | [_] | [_, _] | [_, _, _] => rfl
  | _ :: _ :: _ :: _ :: _ => simp at h; omega

/-- Whole frames followed by anything: the first part, then the second from the histories it leaves (R241). -/
theorem filterBuffer_append (s : State) (b : List Byte) : ∀ (a : List Byte), a.length % 4 = 0 → ∀ hs : Hists,
    filterBuffer s (a ++ b) hs =
      match filterBuffer s a hs with
      | .error f => .error f
      | .ok (out, hs1) =>
        match filterBuffer s b hs1 with
        | .error f => .error f
        | .ok (out2, hs2) => .ok (out ++ out2, hs2)
  | [], _, hs => by
    rw [List.nil_append, filterBuffer_short s (tail := []) (by simp)]
    cases hb : filterBuffer s b hs with
    | error f => simp [hb]
    | ok r => simp [hb]
  | [_], h, _ | [_, _], h, _ | [_, _, _], h, _ => by simp at h
  | a0 :: a1 :: b0 :: b1 :: rest, h, hs => by
    have hr : rest.length % 4 = 0 := by simp only [List.length_cons] at h; omega
    simp only [List.cons_append, filterBuffer]
    cases hf : filterFrame s a0 a1 b0 b1 hs with
    | error f => rfl
    | ok r =>
      obtain ⟨out, hs1⟩ := r
      simp only [filterBuffer_append s b rest hr hs1]
      cases h1 : filterBuffer s rest hs1 with
      | error f => rfl
      | ok r1 =>
        obtain ⟨out1, hs2⟩ := r1
        simp only []
        cases h2 : filterBuffer s b hs2 with
        | error f => rfl
        | ok r2 => simp

/-! ### The cascade -/

/-- The datapath reads gains, coefficients and UNDEF only. -/
theorem cascade_congr {s s' : State} (hg : s'.gain = s.gain) (hu : s'.undef = s.undef)
    (hc : ∀ b : Band, s.gain.get b ≠ 0 → s'.coef.get b = s.coef.get b) (c : Channel) :
    ∀ (bs : List Band) (v : F64) (hs : Hists), cascade s' c bs v hs = cascade s c bs v hs
  | [], _, _ => rfl
  | b :: bs, v, hs => by
    unfold cascade
    rw [hg, hu]
    by_cases h0 : s.gain.get b = 0
    · simp only [h0, if_true]; exact cascade_congr hg hu hc c bs v hs
    · simp only [h0, if_false, hc b h0, cascade_congr hg hu hc c bs]

theorem filterBuffer_congr {s s' : State} (hg : s'.gain = s.gain) (hu : s'.undef = s.undef)
    (hc : ∀ b : Band, s.gain.get b ≠ 0 → s'.coef.get b = s.coef.get b) :
    ∀ (pin : List Byte) (hs : Hists), filterBuffer s' pin hs = filterBuffer s pin hs
  | [], _ | [_], _ | [_, _], _ | [_, _, _], _ => rfl
  | a0 :: a1 :: b0 :: b1 :: rest, hs => by
    simp only [filterBuffer, filterFrame, filterSample, cascade_congr hg hu hc, filterBuffer_congr hg hu hc rest]

/-- What the cascade leaves alone: the other channel, flat bands, and bands it does not visit. -/
theorem cascade_at_other {s : State} {c : Channel} : ∀ {bs : List Band} {v w : F64} {hs hs' : Hists},
    cascade s c bs v hs = .ok (w, hs') →
      ∀ (b' : Band) (c' : Channel), c' ≠ c ∨ s.gain.get b' = 0 ∨ b' ∉ bs → hs'.at b' c' = hs.at b' c'
  | [], v, w, hs, hs', h, b', c', _ => by cases h; rfl
  | b :: bs, v, w, hs, hs', h, b', c', hne => by
    have hne' : c' ≠ c ∨ s.gain.get b' = 0 ∨ b' ∉ bs :=
      hne.imp id fun h => h.imp id fun h hm => h (List.mem_cons_of_mem _ hm)
    unfold cascade at h
    split_ifs at h with h0 h1
    · exact cascade_at_other h b' c' hne'
    · dsimp only at h
      split_ifs at h with h2
      rw [cascade_at_other h b' c' hne']
      refine Hists.at_put_other _ _ ?_
      by_cases hb : b' = b
      · subst hb
        refine .inr (hne.resolve_right fun h => h.elim h0 fun hm => hm (by simp))
      · exact .inl hb

/-- The cascade on one channel is determined by that channel's histories. -/
theorem cascade_channel {s : State} {c : Channel} : ∀ {bs : List Band} {v w w' : F64} {hs hs1 hs' hs1' : Hists},
    (∀ b, hs'.at b c = hs.at b c) → cascade s c bs v hs = .ok (w, hs1) → cascade s c bs v hs' = .ok (w', hs1') →
      w' = w ∧ ∀ b, hs1'.at b c = hs1.at b c
  | [], v, w, w', hs, hs1, hs', hs1', hh, h, h' => by cases h; cases h'; exact ⟨rfl, hh⟩
  | b :: bs, v, w, w', hs, hs1, hs', hs1', hh, h, h' => by
    unfold cascade at h h'
    split_ifs at h h' with h0 h1
    · exact cascade_channel hh h h'
    · rw [hh b] at h'
      dsimp only at h h'
      split_ifs at h h' with h2
      refine cascade_channel ?_ h h'
      intro b'
      by_cases hb : b' = b
      · subst hb; simp
      · rw [Hists.at_put_other _ _ (.inl hb), Hists.at_put_other _ _ (.inl hb), hh b']

/-- A frame that is filtered: channel 0's cascade, then channel 1's on the histories it leaves (R230). -/
theorem filterFrame_ok {s : State} {a0 a1 b0 b1 : Byte} {hs hs' : Hists} {out : List Byte}
    (h : filterFrame s a0 a1 b0 b1 hs = .ok (out, hs')) :
    ∃ v w h1, cascade s .c0 Band.all (F64.ofInt (le16s a0 a1)) hs = .ok (v, h1) ∧
      cascade s .c1 Band.all (F64.ofInt (le16s b0 b1)) h1 = .ok (w, hs') ∧ out = sampleOut v ++ sampleOut w := by
  unfold filterFrame filterSample at h
  cases hc : cascade s .c0 Band.all (F64.ofInt (le16s a0 a1)) hs with
  | error f => simp [hc] at h
  | ok r =>
    obtain ⟨v, h1⟩ := r
    simp only [hc] at h
    cases hc1 : cascade s .c1 Band.all (F64.ofInt (le16s b0 b1)) h1 with
    | error f => simp [hc1] at h
    | ok r =>
      obtain ⟨w, h2⟩ := r
      simp only [hc1, Except.ok.injEq, Prod.mk.injEq] at h
      obtain ⟨rfl, rfl⟩ := h
      exact ⟨v, w, h1, rfl, hc1, rfl⟩

/-- A buffer that is filtered: its first frame, then the rest. -/
theorem filterBuffer_cons_ok {s : State} {a0 a1 b0 b1 : Byte} {rest out : List Byte} {hs hs' : Hists}
    (h : filterBuffer s (a0 :: a1 :: b0 :: b1 :: rest) hs = .ok (out, hs')) :
    ∃ o1 h1 o2, filterFrame s a0 a1 b0 b1 hs = .ok (o1, h1) ∧ filterBuffer s rest h1 = .ok (o2, hs') ∧
      out = o1 ++ o2 := by
  simp only [filterBuffer] at h
  cases hc : filterFrame s a0 a1 b0 b1 hs with
  | error f => simp [hc] at h
  | ok r =>
    obtain ⟨v, h1⟩ := r
    simp only [hc] at h
    cases hc1 : filterBuffer s rest h1 with
    | error f => simp [hc1] at h
    | ok r =>
      obtain ⟨w, h2⟩ := r
      simp only [hc1, Except.ok.injEq, Prod.mk.injEq] at h
      obtain ⟨rfl, rfl⟩ := h
      exact ⟨v, h1, w, rfl, hc1, rfl⟩

@[simp] theorem sampleOut_length (v : F64) : (sampleOut v).length = 2 := by simp [sampleOut]

end Sys2Proof.Machine
end

