-- ==== Sys2Proof/Laws/RealError.lean ====
section
/-!
SUPPORT. How far one REAL operation is from the exact one (R13): a relative error of 2^-53, for a product also half of
the smallest unit, as long as nothing overflows. The exact values are rationals.
-/

namespace Sys2Proof

/-- The rounded quotient n / d is below infinity when the quotient is at most 2^2074 units. -/
theorem F64.encodeUnits_lt_inf {n d : Nat} (hd : 0 < d) (h : n ≤ 2 ^ 2074 * d) : F64.encodeUnits n d < F64.infBits := by
  have hu : F64.unitsOf (2023 * 2 ^ 52) = 2 ^ 2074 := by
    rw [show 2023 * 2 ^ 52 = 2022 * 2 ^ 52 + 2 ^ 52 by norm_num,
      F64.unitsOf_encode (by norm_num) (fun _ => le_rfl), ← pow_add]
  have h1 := F64.encodeUnits_mono (d := d) (le_trans h (le_of_eq (by rw [← hu])))
  rw [F64.encodeUnits_unitsOf _ hd] at h1
  exact lt_of_le_of_lt h1 (by decide)

/-- One rounding: the relative error is at most 2^-53, with half a unit where nothing is dropped. -/
theorem F64.encodeUnits_error (n : Nat) {d : Nat} (hd : 0 < d) :
    |(F64.unitsOf (F64.encodeUnits n d) : ℚ) - n / d| ≤ n / d / 2 ^ 53 + 1 / 2 := by
  have he := F64.unitsOf_encodeUnits_error n hd
  have hs := F64.significand_bounds (n / d)
  have hd' : (0 : ℚ) < d := by exact_mod_cast hd
  set u := F64.unitsOf (F64.encodeUnits n d)
  set s := F64.shiftOf (n / d)
  have hq : ((n / d : Nat) : ℚ) ≤ n / d := Nat.cast_div_le
  have hpow : (2 : ℚ) ^ s ≤ 2 * (n / d / 2 ^ 53) + 1 := by
    rcases Nat.eq_zero_or_pos s with h0 | h0
    · rw [h0, pow_zero]
      have : (0 : ℚ) ≤ n / d / 2 ^ 53 := by positivity
      linarith
    · have h1 := hs.2 h0
      rw [Nat.le_div_iff_mul_le (by positivity)] at h1
      have h2 : ((2 ^ 52 * 2 ^ s : Nat) : ℚ) ≤ ((n / d : Nat) : ℚ) := by exact_mod_cast h1
      push_cast at h2
      linarith
  have e1 : (2 * n : ℚ) ≤ 2 * (u * d) + d * 2 ^ s := by exact_mod_cast he.1
  have e2 : (2 * (u * d) : ℚ) ≤ 2 * n + d * 2 ^ s := by exact_mod_cast he.2
  have hnd : (n : ℚ) = n / d * d := by field_simp
  set q : ℚ := n / d
  rw [hnd] at e1 e2
  have e3 : (2 * q - 2 * u - 2 ^ s) * d ≤ 0 := by linarith
  have e4 : (2 * u - 2 * q - 2 ^ s) * d ≤ 0 := by linarith
  have e5 := nonpos_of_mul_nonpos_left e3 hd'
  have e6 := nonpos_of_mul_nonpos_left e4 hd'
  rw [abs_le]
  constructor <;> linarith

/-- A whole number of units loses nothing but by the relative error. -/
theorem F64.encodeUnits_error_one (n : Nat) :
    |(F64.unitsOf (F64.encodeUnits n 1) : ℚ) - n| ≤ n / 2 ^ 53 := by
  have hs := F64.significand_bounds n
  rcases Nat.eq_zero_or_pos (F64.shiftOf n) with h0 | h0
  · have : F64.unitsOf (F64.encodeUnits n 1) = n := by
      rw [F64.unitsOf_encodeUnits, Nat.div_one, h0]
      simpa using roundHalfEven_mul n (d := 1) (by norm_num)
    rw [this, sub_self, abs_zero]; positivity
  · have he := F64.unitsOf_encodeUnits_error n (d := 1) (by norm_num)
    rw [Nat.div_one] at he
    have h1 := hs.2 h0
    rw [Nat.le_div_iff_mul_le (by positivity)] at h1
    have h2 : ((2 ^ 52 * 2 ^ F64.shiftOf n : Nat) : ℚ) ≤ (n : ℚ) := by exact_mod_cast h1
    push_cast at h2
    set u := F64.unitsOf (F64.encodeUnits n 1)
    set s := F64.shiftOf n
    have e1 : (2 * n : ℚ) ≤ 2 * (u * 1) + 1 * 2 ^ s := by exact_mod_cast he.1
    have e2 : (2 * (u * 1) : ℚ) ≤ 2 * n + 1 * 2 ^ s := by exact_mod_cast he.2
    rw [abs_le]
    constructor <;> linarith

/-- The value of a packed finite magnitude. -/
theorem F64.val_pack (neg : Bool) {m : Nat} (h : m < F64.infBits) :
    F64.val (F64.pack neg m) = (if neg then -1 else 1) * ((F64.unitsOf m : ℚ) / 2 ^ 1074) := by
  have hm := lt_trans h F64.infBits_lt
  unfold F64.val F64.num
  rw [F64.sign_pack neg hm, F64.magBits_pack neg hm]
  cases neg <;> simp [neg_div]

theorem F64.isFinite_pack (neg : Bool) {m : Nat} (h : m < F64.infBits) : F64.isFinite (F64.pack neg m) = true := by
  rw [F64.isFinite, F64.magBits_pack neg (lt_trans h F64.infBits_lt)]
  simpa using h

theorem F64.isNaN_of_isFinite {x : F64} (h : F64.isFinite x = true) : F64.isNaN x = false :=
  ((F64.isFinite_iff x).1 h).1

theorem F64.val_neg (x : F64) : F64.val (F64.neg x) = -F64.val x := by
  simp [F64.val, F64.num_neg, neg_div]

theorem F64.isFinite_neg (x : F64) : F64.isFinite (F64.neg x) = F64.isFinite x := by
  simp [F64.isFinite]

theorem F64.unitsOf_div (x : F64) : (F64.unitsOf (F64.magBits x) : ℚ) / 2 ^ 1074 = |F64.val x| := by
  rw [F64.val, abs_div, abs_of_pos (show (0 : ℚ) < 2 ^ 1074 by positivity), ← F64.natAbs_num, Nat.cast_natAbs,
    Int.cast_abs]

/-- A sum: finite, and within 2^-53 of the exact one, when the exact one is at most 2^1000. -/
theorem F64.val_add {x y : F64} (hx : F64.isFinite x = true) (hy : F64.isFinite y = true)
    (h : |F64.val x + F64.val y| ≤ 2 ^ 1000) :
    F64.isFinite (F64.add x y) = true ∧
      |F64.val (F64.add x y) - (F64.val x + F64.val y)| ≤ |F64.val x + F64.val y| / 2 ^ 53 := by
  have hv : F64.val x + F64.val y = ((F64.num x + F64.num y : Int) : ℚ) / 2 ^ 1074 := by
    simp only [F64.val]; push_cast; ring
  rw [F64.add_finite hx hy]
  rw [hv] at h ⊢
  generalize F64.num x + F64.num y = z at h ⊢
  have hp : (0 : ℚ) < 2 ^ 1074 := by positivity
  have hz : (z.natAbs : ℚ) = |(z : ℚ)| := by rw [Nat.cast_natAbs, Int.cast_abs]
  rw [abs_div, abs_of_pos hp, ← hz] at h
  split_ifs with h0
  · have hpk : (0 : Nat) < F64.infBits := by decide
    refine ⟨F64.isFinite_pack _ hpk, ?_⟩
    rw [F64.val_pack _ hpk, h0]
    simp [F64.unitsOf]
  · have hle : z.natAbs ≤ 2 ^ 2074 * 1 := by
      rw [div_le_iff₀ hp, ← pow_add] at h
      have h2 : ((z.natAbs : Nat) : ℚ) ≤ ((2 ^ 2074 : Nat) : ℚ) := by push_cast; exact h
      have h3 : z.natAbs ≤ 2 ^ 2074 := by exact_mod_cast h2
      rw [Nat.mul_one]
      exact le_trans h3 (Nat.pow_le_pow_right (by norm_num) (by norm_num))
    have hlt := F64.encodeUnits_lt_inf (d := 1) (by norm_num) hle
    have hr : F64.roundUnits z.natAbs 1 = F64.encodeUnits z.natAbs 1 := by
      rw [F64.roundUnits_eq]; exact Nat.min_eq_left (le_of_lt hlt)
    rw [hr]
    refine ⟨F64.isFinite_pack _ hlt, ?_⟩
    rw [F64.val_pack _ hlt]
    have he := F64.encodeUnits_error_one z.natAbs
    have hs : (z : ℚ) = (if decide (z < 0) = true then -1 else 1) * (z.natAbs : ℚ) := by
      rw [hz]
      by_cases hn : z < 0
      · have : (z : ℚ) < 0 := by exact_mod_cast hn
        simp [hn, abs_of_neg this]
      · have : (0 : ℚ) ≤ z := by exact_mod_cast not_lt.1 hn
        simp [hn, abs_of_nonneg this]
    rw [abs_div, abs_of_pos hp, ← hz]
    conv_lhs => rw [hs]
    rw [mul_div_assoc, ← mul_sub, abs_mul]
    have h1 : |(if decide (z < 0) = true then -1 else 1 : ℚ)| = 1 := by split_ifs <;> simp
    rw [h1, one_mul, ← sub_div, abs_div, abs_of_pos hp, div_right_comm]
    exact div_le_div_of_nonneg_right he hp.le

/-- A difference, likewise. -/
theorem F64.val_sub {x y : F64} (hx : F64.isFinite x = true) (hy : F64.isFinite y = true)
    (h : |F64.val x - F64.val y| ≤ 2 ^ 1000) :
    F64.isFinite (F64.sub x y) = true ∧
      |F64.val (F64.sub x y) - (F64.val x - F64.val y)| ≤ |F64.val x - F64.val y| / 2 ^ 53 := by
  have := F64.val_add (x := x) (y := F64.neg y) hx (by rw [F64.isFinite_neg]; exact hy)
    (by rw [F64.val_neg, ← sub_eq_add_neg]; exact h)
  rw [F64.val_neg, ← sub_eq_add_neg] at this
  exact this

/-- A product: finite, and within 2^-53 of the exact one and half of the smallest unit, when the exact one is at most
2^1000. -/
theorem F64.val_mul {x y : F64} (hx : F64.isFinite x = true) (hy : F64.isFinite y = true)
    (h : |F64.val x * F64.val y| ≤ 2 ^ 1000) :
    F64.isFinite (F64.mul x y) = true ∧
      |F64.val (F64.mul x y) - F64.val x * F64.val y| ≤ |F64.val x * F64.val y| / 2 ^ 53 + 1 / 2 ^ 1075 := by
  have hp : (0 : ℚ) < 2 ^ 1074 := by positivity
  rw [F64.mul_finite hx hy]
  set m := F64.unitsOf (F64.magBits x)
  set k := F64.unitsOf (F64.magBits y)
  have hm : (m : ℚ) / 2 ^ 1074 = |F64.val x| := F64.unitsOf_div x
  have hk : (k : ℚ) / 2 ^ 1074 = |F64.val y| := F64.unitsOf_div y
  have hq : ((m * k : Nat) : ℚ) / (F64.unitsPerOne : Nat) = |F64.val x * F64.val y| * 2 ^ 1074 := by
    rw [abs_mul, ← hm, ← hk, F64.unitsPerOne_eq]; push_cast
    have : (2 : ℚ) ^ 1074 ≠ 0 := hp.ne'
    generalize (2 : ℚ) ^ 1074 = P at this ⊢
    field_simp
  have hle : m * k ≤ 2 ^ 2074 * F64.unitsPerOne := by
    have hpo : (0 : ℚ) < (F64.unitsPerOne : Nat) := by exact_mod_cast F64.unitsPerOne_pos
    have h1 : ((m * k : Nat) : ℚ) / (F64.unitsPerOne : Nat) ≤ 2 ^ 2074 := by
      rw [hq, show (2074 : Nat) = 1000 + 1074 by norm_num, pow_add]
      exact mul_le_mul_of_nonneg_right h hp.le
    rw [div_le_iff₀ hpo] at h1
    have h2 : m * k ≤ 2 ^ 2074 * F64.unitsPerOne := by exact_mod_cast h1
    exact le_trans h2 (Nat.mul_le_mul_right _ (Nat.pow_le_pow_right (by norm_num) (by norm_num)))
  have hlt := F64.encodeUnits_lt_inf F64.unitsPerOne_pos hle
  have hr : F64.roundUnits (m * k) F64.unitsPerOne = F64.encodeUnits (m * k) F64.unitsPerOne := by
    rw [F64.roundUnits_eq]; exact Nat.min_eq_left (le_of_lt hlt)
  rw [hr]
  refine ⟨F64.isFinite_pack _ hlt, ?_⟩
  rw [F64.val_pack _ hlt]
  have he := F64.encodeUnits_error (m * k) F64.unitsPerOne_pos
  rw [hq] at he
  have hsx : F64.val x = (if F64.sign x then -1 else 1) * |F64.val x| := by
    rw [← hm, F64.val, F64.num]; split_ifs <;> simp [m, neg_div]
  have hsy : F64.val y = (if F64.sign y then -1 else 1) * |F64.val y| := by
    rw [← hk, F64.val, F64.num]; split_ifs <;> simp [k, neg_div]
  have hs : F64.val x * F64.val y =
      (if (F64.sign x != F64.sign y) = true then -1 else 1) * |F64.val x * F64.val y| := by
    rw [abs_mul]
    conv_lhs => rw [hsx, hsy]
    cases F64.sign x <;> cases F64.sign y <;> simp
  generalize F64.val x * F64.val y = w at he hs ⊢
  conv_lhs => rw [hs]
  rw [← mul_sub, abs_mul]
  have h1 : |(if (F64.sign x != F64.sign y) = true then -1 else 1 : ℚ)| = 1 := by split_ifs <;> simp
  rw [h1, one_mul]
  generalize (F64.unitsOf (F64.encodeUnits (m * k) F64.unitsPerOne) : ℚ) = u at he ⊢
  have hsub : u / 2 ^ 1074 - |w| = (u - |w| * 2 ^ 1074) / 2 ^ 1074 := by
    rw [sub_div, mul_div_cancel_right₀ _ hp.ne']
  rw [hsub, abs_div, abs_of_pos hp, div_le_iff₀ hp]
  refine le_trans he (le_of_eq ?_)
  rw [add_mul, show (1075 : Nat) = 1074 + 1 by norm_num, pow_succ (2 : ℚ) 1074]
  generalize (2 : ℚ) ^ 1074 = P at hp ⊢
  field_simp

theorem F64.bounded_two {x : F64} (h : F64.magBits x ≤ 0x4000000000000000) : F64.Bounded 2 x := by
  constructor
  · rw [F64.isFinite, decide_eq_true_eq]; exact lt_of_le_of_lt h (by decide)
  · rw [← F64.unitsOf_div, div_le_iff₀ (by positivity), ← pow_succ']
    have h1 := F64.unitsOf_mono h
    have h2 : F64.unitsOf 0x4000000000000000 = 2 ^ 1075 := by
      rw [show 0x4000000000000000 = 1023 * 2 ^ 52 + 2 ^ 52 by norm_num,
        F64.unitsOf_encode (by norm_num) (fun _ => le_rfl), ← pow_add]
    rw [h2] at h1
    have h3 : ((F64.unitsOf (F64.magBits x) : Nat) : ℚ) ≤ ((2 ^ 1075 : Nat) : ℚ) := Nat.cast_le.2 h1
    rw [Nat.cast_pow] at h3
    exact h3

end Sys2Proof
end

