-- ==== Sys2Proof/Laws/Rounding.lean ====
section
/-!
SUPPORT. The one rounding of every REAL operation is the nearest value, ties to even, with infinity from the overflow
threshold on (R13).
-/

namespace Sys2Proof

/-- A quotient halfway between two integers is rounded to the even one. -/
theorem roundHalfEven_tie {n d : Nat} (hd : 0 < d)
    (h : 2 * n = 2 * (roundHalfEven n d * d) + d ∨ 2 * n + d = 2 * (roundHalfEven n d * d)) :
    roundHalfEven n d % 2 = 0 := by
  have hn := Nat.div_add_mod n d
  have hr := Nat.mod_lt n hd
  rw [Nat.mul_comm] at hn
  have h1 : (n / d + 1) * d = n / d * d + d := by ring
  revert h
  simp only [roundHalfEven]
  split_ifs with ha hb
  · rw [h1]; intro h; omega
  · intro _; omega
  · intro h; omega

/-- The next magnitude up is at least one last place higher. -/
theorem F64.unitsOf_succ_ge {s r : Nat} (h : r ≤ 2 ^ 53) (h' : 0 < s → 2 ^ 52 ≤ r) :
    (r + 1) * 2 ^ s ≤ F64.unitsOf (s * 2 ^ 52 + r + 1) := by
  rcases Nat.lt_or_eq_of_le h with hr | hr
  · rw [Nat.add_assoc, F64.unitsOf_encode (by omega) (fun hs => le_trans (h' hs) (Nat.le_succ r))]
  · subst hr
    rw [show s * 2 ^ 52 + 2 ^ 53 + 1 = (s + 1) * 2 ^ 52 + (2 ^ 52 + 1) by ring,
      F64.unitsOf_encode (by norm_num) (fun _ => by norm_num), show 2 ^ (s + 1) = 2 * 2 ^ s by ring, ← Nat.mul_assoc]
    exact Nat.mul_le_mul_right _ (by norm_num)

/-- A lower magnitude is at least one last place lower, unless the significand is the least of its binade. -/
theorem F64.unitsOf_pred_le {s r k : Nat} (h : r ≤ 2 ^ 53) (h' : 0 < s → 2 ^ 52 < r) (hk : k < s * 2 ^ 52 + r) :
    F64.unitsOf k + 2 ^ s ≤ r * 2 ^ s := by
  have hr : 1 ≤ r := by
    rcases Nat.eq_zero_or_pos s with hs | hs
    · subst hs; omega
    · have := h' hs; omega
  obtain ⟨p, rfl⟩ : ∃ p, r = p + 1 := ⟨r - 1, by omega⟩
  have h1 := F64.unitsOf_mono (show k ≤ s * 2 ^ 52 + p by omega)
  rw [F64.unitsOf_encode (by omega) (fun hs => by have := h' hs; omega)] at h1
  rw [Nat.succ_mul]; omega

/-- The significand that rounding gives, with the exact quotient's place in its binade. -/
theorem F64.encodeUnits_parts (n : Nat) {d : Nat} (hd : 0 < d) :
    ∃ s r, F64.encodeUnits n d = s * 2 ^ 52 + r ∧ r = roundHalfEven n (d * 2 ^ s) ∧ r ≤ 2 ^ 53 ∧
      (0 < s → 2 ^ 52 ≤ r) ∧ (0 < s → 2 ^ 52 * 2 ^ s * d ≤ n) := by
  refine ⟨F64.shiftOf (n / d), _, rfl, rfl, (F64.rounded_significand_bounds n d).1, (F64.rounded_significand_bounds n d).2,
    fun hs => ?_⟩
  have h := (F64.significand_bounds (n / d)).2 hs
  rw [Nat.le_div_iff_mul_le (by positivity)] at h
  exact (Nat.le_div_iff_mul_le hd).1 h

/-- No magnitude is nearer than the rounded one, and where another is as near, the rounded one is even. -/
theorem F64.encodeUnits_nearest (n : Nat) {d k : Nat} (hd : 0 < d) (hk : k ≠ F64.encodeUnits n d) :
    F64.distance n d (F64.encodeUnits n d) ≤ F64.distance n d k ∧
      (F64.distance n d (F64.encodeUnits n d) = F64.distance n d k → F64.encodeUnits n d % 2 = 0) := by
  obtain ⟨s, r, he, hr, h53, h52, hlo⟩ := F64.encodeUnits_parts n hd
  have hD : 0 < d * 2 ^ s := by positivity
  have herr := roundHalfEven_error n hD
  have htie := roundHalfEven_tie (n := n) hD
  rw [← hr] at herr htie
  have hu : F64.unitsOf (F64.encodeUnits n d) * d = r * (d * 2 ^ s) := by
    rw [he, F64.unitsOf_encode h53 h52]; ring
  have hev : r % 2 = 0 → F64.encodeUnits n d % 2 = 0 := by rw [he]; omega
  have hfar : (r * (d * 2 ^ s) + d * 2 ^ s ≤ F64.unitsOf k * d ∨ F64.unitsOf k * d + d * 2 ^ s ≤ r * (d * 2 ^ s)) ∨
      (F64.unitsOf k * d < r * (d * 2 ^ s) ∧ r * (d * 2 ^ s) ≤ n) := by
    rcases Nat.lt_or_gt_of_ne hk with hlt | hgt
    · by_cases hb : 0 < s ∧ r = 2 ^ 52
      · refine .inr ⟨?_, ?_⟩
        · rw [← hu]; exact Nat.mul_lt_mul_of_pos_right (F64.unitsOf_lt hlt) hd
        · rw [hb.2]; have := hlo hb.1; rw [Nat.mul_assoc, Nat.mul_comm (2 ^ s) d] at this; exact this
      · refine .inl (.inr ?_)
        have h := F64.unitsOf_pred_le (k := k) h53 (fun hs => lt_of_le_of_ne (h52 hs) fun e => hb ⟨hs, e.symm⟩)
          (he ▸ hlt)
        have := Nat.mul_le_mul_right d h
        calc F64.unitsOf k * d + d * 2 ^ s = (F64.unitsOf k + 2 ^ s) * d := by ring
          _ ≤ r * 2 ^ s * d := this
          _ = r * (d * 2 ^ s) := by ring
    · refine .inl (.inl ?_)
      have h := le_trans (F64.unitsOf_succ_ge h53 h52) (F64.unitsOf_mono (show s * 2 ^ 52 + r + 1 ≤ k by omega))
      have := Nat.mul_le_mul_right d h
      calc r * (d * 2 ^ s) + d * 2 ^ s = (r + 1) * 2 ^ s * d := by ring
        _ ≤ F64.unitsOf k * d := this
  unfold F64.distance
  rw [hu]
  generalize r * (d * 2 ^ s) = a at *
  generalize F64.unitsOf k * d = b at *
  generalize d * 2 ^ s = D at *
  constructor
  · omega
  · intro heq; exact hev (htie (by omega))

theorem F64.pow_2045 : (2 : Nat) ^ 2045 = 2 ^ 2044 * 2 := pow_succ 2 2044

/-- The threshold itself rounds to infinity: it is halfway, and the greatest finite significand is odd. -/
theorem F64.encodeUnits_overflowUnits {d : Nat} (hd : 0 < d) :
    F64.encodeUnits (F64.overflowUnits * d) d = F64.infBits := by
  have hsh : F64.shiftOf (F64.overflowUnits * d / d) = 2045 := by
    rw [Nat.mul_div_cancel _ hd]; decide +kernel
  have h2 : F64.overflowUnits * d = (2 ^ 53 - 1) * (2 * (d * 2 ^ 2044)) + d * 2 ^ 2044 := by
    unfold F64.overflowUnits
    generalize 2 ^ 2044 = P
    have e2 : (2 ^ 54 - 1) * P * d = (2 ^ 54 - 1) * (d * P) := by ring
    rw [e2]; omega
  have h3 : d * 2 ^ 2045 = 2 * (d * 2 ^ 2044) := by
    rw [F64.pow_2045, ← Nat.mul_assoc, Nat.mul_comm]
  have hP : 0 < d * 2 ^ 2044 := by positivity
  rw [F64.encodeUnits, hsh, h3, h2]
  generalize d * 2 ^ 2044 = P at hP
  have hdiv : ((2 ^ 53 - 1) * (2 * P) + P) / (2 * P) = 2 ^ 53 - 1 := by
    rw [Nat.div_eq_iff (by omega)]; constructor <;> omega
  have hmod : ((2 ^ 53 - 1) * (2 * P) + P) % (2 * P) = P := by
    rw [Nat.add_comm, Nat.add_mul_mod_self_right, Nat.mod_eq_of_lt (by omega)]
  simp only [roundHalfEven, hdiv, hmod]
  rw [if_neg (by omega), if_pos trivial]
  decide

/-- The rounded magnitude reaches infinity exactly from the overflow threshold on. -/
theorem F64.infBits_le_encodeUnits (n : Nat) {d : Nat} (hd : 0 < d) :
    F64.infBits ≤ F64.encodeUnits n d ↔ F64.overflowUnits * d ≤ n := by
  have hinf : F64.infBits = 2045 * 2 ^ 52 + 2 ^ 53 := by decide
  obtain ⟨s, r, he, hr, h53, h52, hlo⟩ := F64.encodeUnits_parts n hd
  have hD : 0 < d * 2 ^ s := by positivity
  have herr := (roundHalfEven_error n hD).2
  rw [← hr] at herr
  constructor
  · intro h
    rw [he, hinf] at h
    have hs : 2045 ≤ s := by omega
    unfold F64.overflowUnits
    rcases Nat.lt_or_eq_of_le hs with hs' | hs'
    · refine le_trans ?_ (hlo (by omega))
      refine Nat.mul_le_mul_right d ?_
      calc (2 ^ 54 - 1) * 2 ^ 2044 ≤ 2 ^ 54 * 2 ^ 2044 := Nat.mul_le_mul_right _ (by norm_num)
        _ = 2 ^ 52 * 2 ^ 2046 := by rw [← pow_add, ← pow_add]
        _ ≤ 2 ^ 52 * 2 ^ s := Nat.mul_le_mul_left _ (Nat.pow_le_pow_right (by norm_num) hs')
    · have hr53 : r = 2 ^ 53 := by omega
      rw [hr53, ← hs', F64.pow_2045] at herr
      generalize 2 ^ 2044 = P at herr ⊢
      have e1 : 2 * (2 ^ 53 * (d * (P * 2))) = 2 ^ 55 * (d * P) := by ring
      have e2 : d * (P * 2) = 2 * (d * P) := by ring
      have e3 : (2 ^ 54 - 1) * P * d = (2 ^ 54 - 1) * (d * P) := by ring
      rw [e1, e2] at herr
      rw [e3]
      omega
  · intro h
    have hm := F64.encodeUnits_mono (d := d) h
    rwa [F64.encodeUnits_overflowUnits hd] at hm

/-- One rounding is to nearest, ties to even, with overflow to infinity (R13). -/
theorem F64.roundUnits_nearestEven (n : Nat) {d : Nat} (hd : 0 < d) : F64.NearestEven n d (F64.roundUnits n d) := by
  have hi := F64.infBits_le_encodeUnits n hd
  rw [F64.roundUnits_eq]
  refine ⟨Nat.min_le_right _ _, ?_, fun h k _ hk => ?_⟩
  · rw [← hi]; omega
  · have he : min (F64.encodeUnits n d) F64.infBits = F64.encodeUnits n d := by omega
    rw [he] at hk ⊢
    exact F64.encodeUnits_nearest n hd hk

end Sys2Proof
end

