-- ==== Sys2Proof/Laws/Run.lean ====
section
/-!
SUPPORT. Runs, one step at a time: the core's run, and lists of instructions.
-/

namespace Sys2Proof.Machine

open Sys2Proof

/-! ### The core's run -/

theorem core_run_zero (s : State) : Sys2Proof.core.run 0 s = Host.Outcome.next s := rfl

theorem core_run_next {s t : State} (n : Nat) (h : step s = .next t) :
    Sys2Proof.core.run (n + 1) s = Sys2Proof.core.run n t := by
  have h1 := Host.Core.run.eq_2 Sys2Proof.core s n
  rw [h1, show Sys2Proof.core.step s = .next t from h]

theorem core_run_fault {s : State} {f : Fault} (n : Nat) (h : step s = .fault f) :
    Sys2Proof.core.run (n + 1) s = Host.Outcome.fault f := by
  have h1 := Host.Core.run.eq_2 Sys2Proof.core s n
  rw [h1, show Sys2Proof.core.step s = .fault f from h]
  rfl

theorem core_run_refused {s : State} {r : Refusal} (n : Nat) (h : step s = .refused r) :
    Sys2Proof.core.run (n + 1) s = Host.Outcome.refused r := by
  have h1 := Host.Core.run.eq_2 Sys2Proof.core s n
  rw [h1, show Sys2Proof.core.step s = .refused r from h]
  rfl

/-- A property that holds at the start and that every step keeps, and under which every step completes: the run
completes. -/
theorem core_run_completes {P : State → Prop} (h : ∀ s, P s → ∃ t, step s = .next t ∧ P t) :
    ∀ (n : Nat) (s : State), P s → ∃ t, Sys2Proof.core.run n s = Host.Outcome.next t ∧ P t
  | 0, s, hs => ⟨s, rfl, hs⟩
  | n + 1, s, hs => by
    obtain ⟨t, ht, hp⟩ := h s hs
    obtain ⟨u, hu⟩ := core_run_completes h n t hp
    exact ⟨u, by rw [core_run_next n ht]; exact hu⟩

/-! ### Lists of instructions -/

theorem execAll_cons_next {i : Instr} {rest : List Instr} {s u : State} (h : execAll (i :: rest) s = .next u) :
    ∃ t, exec i s = .next t ∧ execAll rest t = .next u := by
  cases he : exec i s with
  | next t => rw [execAll, he] at h; exact ⟨t, rfl, h⟩
  | fault f => rw [execAll, he] at h; cases h
  | refused r => rw [execAll, he] at h; cases h

/-- A relation to the start that every instruction of the list keeps holds at the end. -/
theorem execAll_keeps {P : State → Prop} : ∀ {is : List Instr} {s u : State},
    (∀ i ∈ is, ∀ s t, P s → exec i s = .next t → P t) → P s → execAll is s = .next u → P u
  | [], _, _, _, hs, h => by cases h; exact hs
  | i :: rest, s, u, hk, hs, h => by
    obtain ⟨t, h1, h2⟩ := execAll_cons_next h
    exact execAll_keeps (fun j hj => hk j (List.mem_cons_of_mem _ hj)) (hk i (by simp) s t hs h1) h2

theorem execTrace_cons_some {i : Instr} {rest : List Instr} {tr tr' : Trace} (h : execTrace (i :: rest) tr = some tr') :
    ∃ t, exec i tr.state = .next t ∧
      execTrace rest
        (if clearsFifo i tr.state then ⟨t, [], []⟩
          else ⟨t, tr.stored ++ storedBy i tr.state, tr.delivered ++ deliveredBy i t⟩) = some tr' := by
  cases he : exec i tr.state with
  | next t =>
    rw [execTrace, he] at h
    refine ⟨t, rfl, ?_⟩
    split_ifs with hc <;> simpa [hc] using h
  | fault f => rw [execTrace, he] at h; cases h
  | refused r => rw [execTrace, he] at h; cases h

end Sys2Proof.Machine
end

