-- ==== Sys2Proof/Laws/Stability.lean ====
section
/-!
SUPPORT. One band of the equalizer over the rationals: the rounding error of one output (R13, R233), and a quadratic
form of the two past outputs that a stable row (R289) keeps bounded.
-/

namespace Sys2Proof.Machine

open Sys2Proof

/-- A row whose coefficients are at most 2 in magnitude. -/
def Coef.Small (k : Coef) : Prop :=
  F64.Bounded 2 k.b0 ∧ F64.Bounded 2 k.b1 ∧ F64.Bounded 2 k.b2 ∧ F64.Bounded 2 k.a1 ∧ F64.Bounded 2 k.a2

/-- The exact value of R233's difference equation. -/
def biquadExact (k : Coef) (h : Hist) (v : F64) : ℚ :=
  F64.val k.b0 * F64.val v + F64.val k.b1 * F64.val h.x1 + F64.val k.b2 * F64.val h.x2
    - F64.val k.a1 * F64.val h.y1 - F64.val k.a2 * F64.val h.y2

/-- A product with a coefficient of at most 2: its bound and its error. -/
theorem mul_small {k x : F64} {X : ℚ} (hk : F64.Bounded 2 k) (hx : F64.Bounded X x) (hX : X ≤ 2 ^ 950) :
    F64.isFinite (F64.mul k x) = true ∧
      |F64.val (F64.mul k x) - F64.val k * F64.val x| ≤ 2 * X / 2 ^ 53 + 1 / 2 ^ 1075 ∧
      |F64.val k * F64.val x| ≤ 2 * X := by
  have h0 : 0 ≤ X := le_trans (abs_nonneg _) hx.2
  have hb : |F64.val k * F64.val x| ≤ 2 * X := by
    rw [abs_mul]; exact mul_le_mul hk.2 hx.2 (abs_nonneg _) (by norm_num)
  have h9 : (2 : ℚ) * X ≤ 2 ^ 1000 := by
    refine le_trans (mul_le_mul_of_nonneg_left hX (by norm_num)) ?_
    rw [← pow_succ']; exact pow_le_pow_right₀ (by norm_num) (by norm_num)
  obtain ⟨h1, h2⟩ := F64.val_mul hk.1 hx.1 (le_trans hb h9)
  exact ⟨h1, le_trans h2 (by gcongr), hb⟩

/-- A sum whose exact value is at most `M`: its error. -/
theorem add_small {x y : F64} {M : ℚ} (hx : F64.isFinite x = true) (hy : F64.isFinite y = true)
    (h : |F64.val x + F64.val y| ≤ M) (hM : M ≤ 2 ^ 1000) :
    F64.isFinite (F64.add x y) = true ∧ |F64.val (F64.add x y) - (F64.val x + F64.val y)| ≤ M / 2 ^ 53 := by
  obtain ⟨h1, h2⟩ := F64.val_add hx hy (le_trans h hM)
  exact ⟨h1, le_trans h2 (by gcongr)⟩

/-- A difference whose exact value is at most `M`: its error. -/
theorem sub_small {x y : F64} {M : ℚ} (hx : F64.isFinite x = true) (hy : F64.isFinite y = true)
    (h : |F64.val x - F64.val y| ≤ M) (hM : M ≤ 2 ^ 1000) :
    F64.isFinite (F64.sub x y) = true ∧ |F64.val (F64.sub x y) - (F64.val x - F64.val y)| ≤ M / 2 ^ 53 := by
  obtain ⟨h1, h2⟩ := F64.val_sub hx hy (le_trans h hM)
  exact ⟨h1, le_trans h2 (by gcongr)⟩

/-- One output of a band: finite, and close to the exact value of the difference equation. -/
theorem biquad_error {k : Coef} {h : Hist} {v : F64} {X Y : ℚ} (hk : k.Small) (hv : F64.Bounded X v)
    (hx1 : F64.Bounded X h.x1) (hx2 : F64.Bounded X h.x2) (hy1 : F64.Bounded Y h.y1) (hy2 : F64.Bounded Y h.y2)
    (h1 : 1 ≤ X) (h2 : 1 ≤ Y) (hX : X ≤ 2 ^ 950) (hY : Y ≤ 2 ^ 950) :
    F64.isFinite (biquad k h v).1 = true ∧ |F64.val (biquad k h v).1 - biquadExact k h v| ≤ (X + Y) / 2 ^ 47 := by
  obtain ⟨f0, e0, c0⟩ := mul_small hk.1 hv hX
  obtain ⟨f1, e1, c1⟩ := mul_small hk.2.1 hx1 hX
  obtain ⟨f2, e2, c2⟩ := mul_small hk.2.2.1 hx2 hX
  obtain ⟨f3, e3, c3⟩ := mul_small hk.2.2.2.1 hy1 hY
  obtain ⟨f4, e4, c4⟩ := mul_small hk.2.2.2.2 hy2 hY
  have hη : (1 : ℚ) / 2 ^ 1075 ≤ 1 / 2 ^ 53 :=
    div_le_div_of_nonneg_left (by norm_num) (by positivity) (pow_le_pow_right₀ (by norm_num) (by norm_num))
  have hB : 8 * (X + Y) ≤ 2 ^ 1000 := by
    have hbig : (16 : ℚ) * 2 ^ 950 ≤ 2 ^ 1000 := by
      rw [show (16 : ℚ) = 2 ^ 4 by norm_num, ← pow_add]; exact pow_le_pow_right₀ (by norm_num) (by norm_num)
    generalize (2 : ℚ) ^ 950 = C at *
    generalize (2 : ℚ) ^ 1000 = B at *
    linarith
  clear hX hY
  simp only [biquad, biquadExact]
  generalize F64.mul k.b0 v = q0 at *
  generalize F64.mul k.b1 h.x1 = q1 at *
  generalize F64.mul k.b2 h.x2 = q2 at *
  generalize F64.mul k.a1 h.y1 = q3 at *
  generalize F64.mul k.a2 h.y2 = q4 at *
  generalize F64.val k.b0 * F64.val v = p0 at *
  generalize F64.val k.b1 * F64.val h.x1 = p1 at *
  generalize F64.val k.b2 * F64.val h.x2 = p2 at *
  generalize F64.val k.a1 * F64.val h.y1 = p3 at *
  generalize F64.val k.a2 * F64.val h.y2 = p4 at *
  generalize (1 : ℚ) / 2 ^ 1075 = η at *
  norm_num at hη e0 e1 e2 e3 e4
  rw [abs_le] at e0 e1 e2 e3 e4 c0 c1 c2 c3 c4
  obtain ⟨g1, d1⟩ := add_small (M := 5 * X) f0 f1 (by rw [abs_le]; constructor <;> linarith)
    (le_trans (by linarith) hB)
  norm_num at d1
  rw [abs_le] at d1
  obtain ⟨g2, d2⟩ := add_small (M := 7 * X) g1 f2 (by rw [abs_le]; constructor <;> linarith)
    (le_trans (by linarith) hB)
  norm_num at d2
  rw [abs_le] at d2
  obtain ⟨g3, d3⟩ := sub_small (M := 7 * X + 3 * Y) g2 f3 (by rw [abs_le]; constructor <;> linarith)
    (le_trans (by linarith) hB)
  norm_num at d3
  rw [abs_le] at d3
  obtain ⟨g4, d4⟩ := sub_small (M := 7 * X + 5 * Y) g3 f4 (by rw [abs_le]; constructor <;> linarith)
    (le_trans (by linarith) hB)
  norm_num at d4
  rw [abs_le] at d4
  refine ⟨g4, ?_⟩
  norm_num
  rw [abs_le]
  constructor <;> linarith

/-- One output of a small row on values of at most 2^n: at most 2^(n+4), whatever the row's poles. -/
theorem biquad_output_bounded {k : Coef} {h : Hist} {v : F64} {n : Nat} (hn : n ≤ 940) (hk : k.Small)
    (hv : F64.Bounded (2 ^ n) v) (hx1 : F64.Bounded (2 ^ n) h.x1) (hx2 : F64.Bounded (2 ^ n) h.x2)
    (hy1 : F64.Bounded (2 ^ n) h.y1) (hy2 : F64.Bounded (2 ^ n) h.y2) :
    F64.Bounded (2 ^ (n + 4)) (biquad k h v).1 := by
  have hX : (2 : ℚ) ^ n ≤ 2 ^ 950 := pow_le_pow_right₀ (by norm_num) (by omega)
  have h1 : (1 : ℚ) ≤ 2 ^ n := one_le_pow₀ (by norm_num)
  obtain ⟨hf, he⟩ := biquad_error hk hv hx1 hx2 hy1 hy2 h1 h1 hX hX
  refine ⟨hf, ?_⟩
  have m0 := (mul_small hk.1 hv hX).2.2
  have m1 := (mul_small hk.2.1 hx1 hX).2.2
  have m2 := (mul_small hk.2.2.1 hx2 hX).2.2
  have m3 := (mul_small hk.2.2.2.1 hy1 hX).2.2
  have m4 := (mul_small hk.2.2.2.2 hy2 hX).2.2
  unfold biquadExact at he
  clear hX
  rw [pow_add]
  generalize (2 : ℚ) ^ n = X at *
  rw [abs_le] at *
  norm_num at he ⊢
  constructor <;> linarith

/-! ### The quadratic form -/

/-- What the ROM's rows have in common (R289): both poles complex and inside the unit circle, with a margin. -/
def Coef.Stable (k : Coef) : Prop :=
  k.Small ∧ 0 < F64.val k.a2 ∧ F64.val k.a2 * (257 / 256) ≤ 511 / 512 ∧
    4 * F64.val k.a2 ≤ 2 ^ 18 * (4 * F64.val k.a2 - F64.val k.a1 * F64.val k.a1)

/-- The form of two past outputs after one more, whatever enters. -/
theorem energy_step (k : Coef) (w u v : ℚ) :
    energy k (w - F64.val k.a1 * u - F64.val k.a2 * v) u =
      F64.val k.a2 * energy k u v + w * (w - F64.val k.a1 * u - 2 * F64.val k.a2 * v) := by
  unfold energy; ring

theorem energy_nonneg {k : Coef} (hk : k.Stable) (u v : ℚ) : 0 ≤ energy k u v := by
  obtain ⟨-, h0, -, h2⟩ := hk
  unfold energy
  generalize F64.val k.a1 = a at *
  generalize F64.val k.a2 = b at *
  have hd : 0 ≤ 4 * b - a * a := by nlinarith
  have : 0 ≤ 4 * b * (u * u + a * u * v + b * v * v) := by
    nlinarith [mul_self_nonneg (a * u + 2 * b * v), mul_nonneg hd (mul_self_nonneg u)]
  exact nonneg_of_mul_nonneg_right this (by linarith)

/-- The newer output is bounded by the form. -/
theorem sq_le_energy {k : Coef} (hk : k.Stable) (u v : ℚ) : u * u ≤ 2 ^ 18 * energy k u v := by
  obtain ⟨-, h0, -, h2⟩ := hk
  unfold energy
  generalize F64.val k.a1 = a at *
  generalize F64.val k.a2 = b at *
  have : 4 * b * (u * u) ≤ 4 * b * (2 ^ 18 * (u * u + a * u * v + b * v * v)) := by
    nlinarith [mul_self_nonneg (a * u + 2 * b * v), mul_le_mul_of_nonneg_right h2 (mul_self_nonneg u)]
  exact le_of_mul_le_mul_left this (by linarith)

/-- One step of the form: contraction by the row's margin, and what enters. -/
theorem energy_step_le {k : Coef} (hk : k.Stable) (w u v : ℚ) :
    energy k (w - F64.val k.a1 * u - F64.val k.a2 * v) u ≤ 511 / 512 * energy k u v + 257 * (w * w) := by
  rw [energy_step]
  have hQ := energy_nonneg hk u v
  have hP := energy_nonneg hk (w * 256 + F64.val k.a1 * u + F64.val k.a2 * v) (-u)
  obtain ⟨-, h0, h1, h2⟩ := hk
  have h3 := mul_le_mul_of_nonneg_right h1 hQ
  unfold energy at *
  generalize F64.val k.a1 = a at *
  generalize F64.val k.a2 = b at *
  nlinarith

/-! ### The rows of the ROM -/

/-- `Coef.Stable` in whole units, so that it can be computed. -/
def Coef.stableCheck (k : Coef) : Bool :=
  [k.b0, k.b1, k.b2, k.a1, k.a2].all (fun x => decide (F64.magBits x ≤ 0x4000000000000000)) &&
    decide (0 < F64.num k.a2) && decide (F64.num k.a2 * 514 ≤ 511 * (F64.unitsPerOne : Int)) &&
    decide (4 * F64.num k.a2 * F64.unitsPerOne ≤
      2 ^ 18 * (4 * F64.num k.a2 * F64.unitsPerOne - F64.num k.a1 * F64.num k.a1))

theorem Coef.stable_of_check {k : Coef} (h : k.stableCheck = true) : k.Stable := by
  simp only [Coef.stableCheck, List.all_cons, List.all_nil, Bool.and_true, Bool.and_eq_true, decide_eq_true_eq] at h
  obtain ⟨⟨⟨⟨hb0, hb1, hb2, ha1, ha2⟩, h0⟩, h1⟩, h2⟩ := h
  refine ⟨⟨F64.bounded_two hb0, F64.bounded_two hb1, F64.bounded_two hb2, F64.bounded_two ha1, F64.bounded_two ha2⟩, ?_⟩
  have hp : (0 : ℚ) < 2 ^ 1074 := by positivity
  have hU : ((F64.unitsPerOne : Int) : ℚ) = 2 ^ 1074 := by rw [F64.unitsPerOne_eq]; push_cast; rfl
  have g0 : (0 : ℚ) < F64.num k.a2 := by exact_mod_cast h0
  have g1 : ((F64.num k.a2 * 514 : Int) : ℚ) ≤ ((511 * (F64.unitsPerOne : Int) : Int) : ℚ) := Int.cast_le.2 h1
  have g2 := Int.cast_le (R := ℚ).2 h2
  rw [Int.cast_mul, Int.cast_mul, hU] at g1
  rw [Int.cast_mul, Int.cast_mul, Int.cast_mul, Int.cast_sub, Int.cast_mul, Int.cast_mul, Int.cast_mul, hU] at g2
  unfold F64.val
  generalize (2 : ℚ) ^ 1074 = U at *
  generalize (F64.num k.a2 : ℚ) = b at *
  generalize (F64.num k.a1 : ℚ) = a at *
  push_cast at g1 g2
  refine ⟨by positivity, ?_, ?_⟩
  · rw [div_mul_eq_mul_div, div_le_iff₀ hp]; linarith
  · have e1 : 4 * (b / U) = 4 * b * U / (U * U) := by field_simp
    have e2 : 2 ^ 18 * (4 * (b / U) - a / U * (a / U)) = 2 ^ 18 * (4 * b * U - a * a) / (U * U) := by
      field_simp
    rw [e2, e1]
    exact div_le_div_of_nonneg_right g2 (by positivity)

theorem romBand0_check : romBand0.all Coef.stableCheck = true := by decide +kernel
theorem romBand1_check : romBand1.all Coef.stableCheck = true := by decide +kernel
theorem romBand2_check : romBand2.all Coef.stableCheck = true := by decide +kernel
theorem romBand3_check : romBand3.all Coef.stableCheck = true := by decide +kernel
theorem romBand4_check : romBand4.all Coef.stableCheck = true := by decide +kernel

/-- Every row of the default table for a gain up to 12 is stable, in any instance that holds that table. -/
theorem coefRom_stable {p : Params} (hp : p.coefRom = defaultRom) (b : Band) {g : Int} (h : g ≤ 12) :
    (coefRom p b g).Stable := by
  have hv : p.RomValid := by rw [Params.RomValid, hp]; exact ⟨rfl, rfl, rfl, rfl, rfl⟩
  have hall : (p.coefRom.get b).all Coef.stableCheck = true := by
    rw [hp]
    cases b
    · exact romBand0_check
    · exact romBand1_check
    · exact romBand2_check
    · exact romBand3_check
    · exact romBand4_check
  exact Coef.stable_of_check (List.all_eq_true.1 hall _ (coefRom_mem hv b h))

/-! ### One band -/

theorem F64.val_zero : F64.val 0 = 0 := by
  have h : F64.num 0 = 0 := by decide
  rw [F64.val, h, Int.cast_zero, zero_div]

/-- A zero history is bounded. -/
theorem BandBounded_zero {k : Coef} {X : ℚ} (hX : 1 ≤ X) : BandBounded k X Hist.zero := by
  have hb : F64.Bounded X (0 : F64) := ⟨by decide, by rw [F64.val_zero, abs_zero]; linarith⟩
  refine ⟨hb, hb, by decide, by decide, ?_, ?_⟩
  · simp only [Hist.zero, F64.val_zero, energy]; nlinarith
  · simp only [Hist.zero, F64.val_zero, abs_zero]; linarith

/-- One sample through a stable band: the output is bounded, and the history stays bounded. -/
theorem biquad_bounded {k : Coef} {h : Hist} {v : F64} {X : ℚ} (hk : k.Stable) (h1 : 1 ≤ X) (hX : X ≤ 2 ^ 700)
    (hv : F64.Bounded X v) (hh : BandBounded k X h) :
    F64.Bounded (2 ^ 21 * X) (biquad k h v).1 ∧ BandBounded k X (biquad k h v).2 := by
  obtain ⟨hx1, hx2, fy1, fy2, hE, hy2⟩ := hh
  have out {u w : ℚ} (hE : energy k u w ≤ 2 ^ 23 * (X * X)) : |u| ≤ 2 ^ 21 * X := by
    have := sq_le_energy hk u w
    apply abs_le_of_sq_le_sq _ (by linarith)
    nlinarith [mul_self_nonneg X]
  have hy1 := out hE
  have hXY : 2 ^ 21 * X ≤ 2 ^ 950 := by
    have : (2 : ℚ) ^ 21 * 2 ^ 700 ≤ 2 ^ 950 := by
      rw [← pow_add]; exact pow_le_pow_right₀ (by norm_num) (by norm_num)
    exact le_trans (mul_le_mul_of_nonneg_left hX (by positivity)) this
  have hX' : X ≤ 2 ^ 950 := le_trans hX (pow_le_pow_right₀ (by norm_num) (by norm_num))
  obtain ⟨hf, he⟩ := biquad_error hk.1 hv hx1 hx2 ⟨fy1, hy1⟩ ⟨fy2, hy2⟩ h1 (by linarith) hX' hXY
  have m0 := (mul_small hk.1.1 hv hX').2.2
  have m1 := (mul_small hk.1.2.1 hx1 hX').2.2
  have m2 := (mul_small hk.1.2.2.1 hx2 hX').2.2
  have hs : |F64.val (biquad k h v).1 - biquadExact k h v| ≤ X := by
    refine le_trans he ?_
    rw [div_le_iff₀ (by positivity)]; linarith
  obtain ⟨w, hw, hwX⟩ : ∃ w, F64.val (biquad k h v).1 = w - F64.val k.a1 * F64.val h.y1 - F64.val k.a2 * F64.val h.y2 ∧
      |w| ≤ 7 * X := by
    refine ⟨F64.val (biquad k h v).1 + F64.val k.a1 * F64.val h.y1 + F64.val k.a2 * F64.val h.y2, by ring, ?_⟩
    unfold biquadExact at hs
    rw [abs_le] at hs m0 m1 m2 ⊢
    constructor <;> linarith
  have hstep := energy_step_le hk w (F64.val h.y1) (F64.val h.y2)
  rw [← hw] at hstep
  have hww : w * w ≤ 49 * (X * X) := by
    have := mul_self_le_mul_self (abs_nonneg w) hwX
    rw [abs_mul_abs_self] at this
    linarith
  have hE' : energy k (F64.val (biquad k h v).1) (F64.val h.y1) ≤ 2 ^ 23 * (X * X) := by
    have := mul_self_nonneg X
    linarith
  exact ⟨⟨hf, out hE'⟩, hv, hx1, hf, fy1, hE', hy1⟩

end Sys2Proof.Machine
end

