-- ==== Sys2Proof/Machine/Assembler.lean ====
section
/-!
DEFINITION. The assembler syntax of R133 and the pseudo-instructions of R134. A notation for transactions: no step
uses it.
-/

namespace Sys2Proof.Machine

open Sys2Proof

/-- The pseudo-instructions of R134. -/
inductive Pseudo where
  /-- `EQ.CLEAR b`: flatten one band. -/
  | eqClear (band : Nat)
  /-- `EQ.STEP b, +` (`up`) or `EQ.STEP b, -`. -/
  | eqStep (band : Nat) (up : Bool)
  /-- `SRC.CLOSE`: the producer closes the stream. -/
  | srcClose
  /-- `FIFO.RESTART`: a new session. -/
  | fifoRestart
deriving DecidableEq, Repr

/-- The expansion of a pseudo-instruction (R134). -/
def Pseudo.expand : Pseudo → List Instr
  | .eqClear band => [.eqSetGain band 0]
  | .eqStep band up => [if up then .eqStepUp band else .eqStepDn band]
  | .srcClose => [.srcRead []]
  | .fifoRestart => [.fifoStop, .fifoStart]

/-- One hexadecimal digit, in capitals as the vectors write it. -/
def hexDigit (n : Nat) : String := String.singleton (Nat.digitChar n).toUpper

/-- The payload in the notation `x"hh hh ..."`, or `[]` (R133). -/
def payloadText (pin : List Byte) : String :=
  if pin.isEmpty then "[]"
  else
    "x\"" ++ String.intercalate " " (pin.map fun b => hexDigit (b.toNat / 16) ++ hexDigit (b.toNat % 16)) ++ "\""

/-- The mnemonic of an instruction: the row of its opcode (R126). -/
def mnemonicOf (i : Instr) : String := ((opcodeRow (cmdOp (encodeCmd i))).map (·.mnemonic)).getD ""

/-- The operands of an instruction as R133 writes them after the mnemonic. -/
def operandText : Instr → String
  | .eqSetGain band imm => " " ++ toString band ++ ", " ++ toString imm
  | .eqStepUp band => " " ++ toString band
  | .eqStepDn band => " " ++ toString band
  | .eqGetGain band => " " ++ toString band
  | .eqGetFreq band => " " ++ toString band
  | .eqGetType band => " " ++ toString band
  | .timeTick imm => " " ++ toString imm
  | .eqProcess pin => " " ++ payloadText pin
  | .srcRead pin => " " ++ payloadText pin
  | .nop | .getStatus | .clrErr => ""
  | .eqInit | .eqDetach | .eqFlat | .eqNBands | .eqActive => ""
  | .fifoStart | .fifoStop | .fifoReset | .fifoExtract | .fifoReady | .fifoEof | .fifoRecv | .fifoAvail => ""
  | .fifoTotalLo | .fifoTotalHi | .fifoState | .fifoCap => ""
  | .srcError | .srcOpenFail | .srcWouldBlock => ""

/-- A transaction's line in the assembler syntax (R133). -/
def asmText (i : Instr) : String := mnemonicOf i ++ operandText i

end Sys2Proof.Machine
end

