-- ==== Sys2Proof/Machine/Cookbook.lean ====
section
/-!
DEFINITION. The formulas COEF_ROM was computed from (R282 to R287). They are the table's derivation, not a second
definition (43_eq_coefficients.md): no transaction uses them. sin, cos and pow are the C library's, which the spec does
not define, so they are arguments here (R288, I24; log entry 17).
-/

namespace Sys2Proof.Machine

open Sys2Proof

/-- Newton's iteration from above for the integer square root, with fuel. -/
def isqrtFrom (n : Nat) : Nat → Nat → Nat
  | 0, r => r
  | fuel + 1, r =>
    let next := (r + n / r) / 2
    if next < r then isqrtFrom n fuel next else r

/-- The integer square root, rounded down. -/
def isqrt (n : Nat) : Nat := isqrtFrom n (n.log2 + 1) (1 <<< (n.log2 / 2 + 1))

/-- `sqrt`, correctly rounded (R13): the root of u units is the root of u * 2^1074 in units; a sticky bit below its
integer part decides the rounding, since a root is never exactly between two neighbours. -/
def F64.sqrt (x : F64) : F64 :=
  if F64.isNaN x then F64.nan
  else if F64.isZero x then x
  else if F64.sign x then F64.nan
  else if F64.isInf x then x
  else
    let n := F64.unitsOf (F64.magBits x) * F64.unitsPerOne
    let r := isqrt n
    F64.pack false (F64.roundUnits (2 * r + (if r * r = n then 0 else 1)) 2)

/-- 1.0. -/
def F64.one : F64 := F64.ofInt 1

/-- 2.0. -/
def F64.two : F64 := F64.ofInt 2

/-- PI: the binary64 value nearest to π, 0x1.921fb54442d18p+1 (R282, G5). -/
def F64.pi : F64 := F64.hex false 0x921fb54442d18 1

/-- `w0 = (2.0 * PI * real(f)) / 44100.0` (R282). -/
def cookbookW0 (b : Band) : F64 :=
  F64.div (F64.mul (F64.mul F64.two F64.pi) (F64.ofInt (bandFreq b))) (F64.ofInt Config.sampleRate)

/-- The exponent of `A = pow(10.0, real(g) / 40.0)` (R282). -/
def cookbookExponent (g : Int) : F64 := F64.div (F64.ofInt g) (F64.ofInt 40)

/-- The six coefficients before normalisation (R283, R285, R286). -/
structure RawCoef where
  b0 : F64
  b1 : F64
  b2 : F64
  a0 : F64
  a1 : F64
  a2 : F64
deriving DecidableEq, Repr

/-- `alpha = sw / (2.0 * Q)` with the band's Q (R38): R283's `sw / 2.0` for PEAK_Q = 1.0, since 2.0 * 1.0 is 2.0, and
R284's `sw / (2.0 * 0.9)` for the default SHELF_Q. -/
def cookbookAlpha (sw q : F64) : F64 := F64.div sw (F64.mul F64.two q)

/-- Peaking (R283). -/
def peakingRaw (cw alpha a : F64) : RawCoef :=
  { b0 := F64.add F64.one (F64.mul alpha a)
    b1 := F64.mul (F64.neg F64.two) cw
    b2 := F64.sub F64.one (F64.mul alpha a)
    a0 := F64.add F64.one (F64.div alpha a)
    a1 := F64.mul (F64.neg F64.two) cw
    a2 := F64.sub F64.one (F64.div alpha a) }

/-- `s = (2.0 * sqrt(A)) * alpha` (R284). -/
def shelfTerm (alpha a : F64) : F64 := F64.mul (F64.mul F64.two (F64.sqrt a)) alpha

/-- Low shelf (R285). -/
def lowShelfRaw (cw alpha a : F64) : RawCoef :=
  let s := shelfTerm alpha a
  let p := F64.add a F64.one
  let m := F64.sub a F64.one
  { b0 := F64.mul a (F64.add (F64.sub p (F64.mul m cw)) s)
    b1 := F64.mul (F64.mul F64.two a) (F64.sub m (F64.mul p cw))
    b2 := F64.mul a (F64.sub (F64.sub p (F64.mul m cw)) s)
    a0 := F64.add (F64.add p (F64.mul m cw)) s
    a1 := F64.mul (F64.neg F64.two) (F64.add m (F64.mul p cw))
    a2 := F64.sub (F64.add p (F64.mul m cw)) s }

/-- High shelf (R286). -/
def highShelfRaw (cw alpha a : F64) : RawCoef :=
  let s := shelfTerm alpha a
  let p := F64.add a F64.one
  let m := F64.sub a F64.one
  { b0 := F64.mul a (F64.add (F64.add p (F64.mul m cw)) s)
    b1 := F64.mul (F64.mul (F64.neg F64.two) a) (F64.add m (F64.mul p cw))
    b2 := F64.mul a (F64.sub (F64.add p (F64.mul m cw)) s)
    a0 := F64.add (F64.sub p (F64.mul m cw)) s
    a1 := F64.mul F64.two (F64.sub m (F64.mul p cw))
    a2 := F64.sub (F64.sub p (F64.mul m cw)) s }

/-- Normalisation by a0 (R287). -/
def RawCoef.normalise (r : RawCoef) : Coef :=
  { b0 := F64.div r.b0 r.a0
    b1 := F64.div r.b1 r.a0
    b2 := F64.div r.b2 r.a0
    a1 := F64.div r.a1 r.a0
    a2 := F64.div r.a2 r.a0 }

/-- The coefficients of band `b` at gain `g` by the formulas, with SHELF_Q from the parameters and the library functions
given (R282 to R287). -/
def cookbook (p : Params) (sin cos : F64 → F64) (pow : F64 → F64 → F64) (b : Band) (g : Int) : Coef :=
  let cw := cos (cookbookW0 b)
  let alpha := cookbookAlpha (sin (cookbookW0 b)) (bandQ p b)
  let a := pow (F64.ofInt 10) (cookbookExponent g)
  match bandType b with
  | .lowShelf => (lowShelfRaw cw alpha a).normalise
  | .peaking => (peakingRaw cw alpha a).normalise
  | .highShelf => (highShelfRaw cw alpha a).normalise

/-- An instance whose COEF_ROM is what the formulas give with these library functions and its SHELF_Q (I5, I24). A model
may hold any other table (R281). -/
def romByFormulas (p : Params) (sin cos : F64 → F64) (pow : F64 → F64 → F64) : Prop :=
  ∀ (b : Band) (g : Int), -12 ≤ g → g ≤ 12 → coefRom p b g = cookbook p sin cos pow b g

end Sys2Proof.Machine
end

