-- ==== Sys2Proof/Tests/Slice0.lean ====
section
/-!
SUPPORT. The model's own tests. Expected values are the spec's: the encoding table and examples (R126, R135) and the
vectors of 95_test_vectors.md, whose names stand in the comments. Each test is one decoding or one step on a small
state. The second part, Witnesses, shows for every obligation with hypotheses concrete values that meet them together.
-/

namespace Sys2Proof.Tests

open Sys2Proof Sys2Proof.Machine

/-! ### Helpers -/

/-- Small parameters: FIFO_CAPACITY 16, MAX_CHUNK_BYTES 8, PREBUFFER_BYTES 8, 1000 ticks a second (program P2). -/
def small : State :=
  { State.reset with cfg := { Params.default with fifoCapacity := 16, maxChunkBytes := 8, prebufferBytes := 8 } }

/-- Every numeric parameter at its least value. -/
def tinyParams : Params :=
  { Params.default with fifoCapacity := 1, maxChunkBytes := 4, prebufferBytes := 1, ticksPerSecond := 1 }

/-- Another COEF_ROM: band 2 at +6 dB is the constant 0.5, every other row passthrough. -/
def halfRom : PerBand (List Coef) :=
  (PerBand.all (List.replicate 25 Coef.passthrough)).set .b2
    ((List.replicate 25 Coef.passthrough).set 18 ⟨0x3FE0000000000000, 0, 0, 0, 0⟩)

/-- A running session with small parameters. -/
def running : State := { small with session := .running }

/-- A running session that holds the bytes 00 .. 09 at indices 0 .. 9 (P2 after step 3). -/
def holding : State :=
  { running with
    fifoMem := (List.range 9).map fun j => (j + 1, BitVec.ofNat 8 (j + 1))
    wrPos := 10, avail := 10, rxSeen := true, totalRx := 10 }

/-- P2 before step 9: two unread bytes at 8 and 9. -/
def nearEnd : State := { holding with rdPos := 8, avail := 2 }

/-- An attached equalizer with one band changed. -/
def oneBand (b : Band) (g : Int) : State := State.initEq small |>.changeGain b g

/-- The answer of an outcome that is a next state. -/
def answerOf (o : Host.Outcome State Fault Refusal) : Option (Word × List Byte) :=
  match o with
  | .next t => some (t.res, t.pout)
  | .fault _ => none
  | .refused _ => none

/-- A reading of an outcome that is a next state. -/
def readOf {α : Type} (f : State → α) (o : Host.Outcome State Fault Refusal) : Option α :=
  match o with
  | .next t => some (f t)
  | .fault _ => none
  | .refused _ => none

/-- The fault of an outcome that is one. -/
def faultOf (o : Host.Outcome State Fault Refusal) : Option Fault :=
  match o with
  | .next _ => none
  | .fault f => some f
  | .refused _ => none

/-- The reason a transaction is illegal. -/
def illegalOf (t : Transaction) : Option Illegal :=
  match decode t with
  | .ok _ => none
  | .error e => some e

/-- The instruction of a legal transaction. -/
def legalOf (t : Transaction) : Option Instr :=
  match decode t with
  | .ok i => some i
  | .error _ => none

/-! ### WellFormed: each check refuses an ill-formed term -/

theorem test_wf_band : (Instr.eqStepUp 15).wellFormed = true ∧ (Instr.eqStepUp 16).wellFormed = false := by decide
theorem test_wf_band_each :
    [(Instr.eqSetGain 16 0).wellFormed, (Instr.eqStepDn 16).wellFormed, (Instr.eqGetGain 16).wellFormed,
      (Instr.eqGetFreq 16).wellFormed, (Instr.eqGetType 16).wellFormed] = [false, false, false, false, false] := by decide
theorem test_wf_gain : (Instr.eqSetGain 0 32767).wellFormed = true ∧ (Instr.eqSetGain 0 32768).wellFormed = false ∧
    (Instr.eqSetGain 0 (-32768)).wellFormed = true ∧ (Instr.eqSetGain 0 (-32769)).wellFormed = false := by decide
theorem test_wf_tick : (Instr.timeTick 65535).wellFormed = true ∧ (Instr.timeTick 65536).wellFormed = false := by decide

/-! ### Decoding: every constructor, from the words of R126 -/

theorem test_decode_general :
    [decodeTableWord 32 0x00000000, decodeTableWord 32 0x01000000, decodeTableWord 32 0x02000000] =
      [some .nop, some .getStatus, some .clrErr] := by decide

theorem test_decode_equalizer :
    [decodeTableWord 32 0x10000000, decodeTableWord 32 0x11000000, decodeTableWord 32 0x1220FFFA,
      decodeTableWord 32 0x13400000, decodeTableWord 32 0x14300000, decodeTableWord 32 0x15000000,
      decodeTableWord 32 0x16700000, decodeTableWord 32 0x17000000, decodeTableWord 32 0x18900000,
      decodeTableWord 32 0x19F00000, decodeTableWord 32 0x1A000000, decodeTableWord 32 0x1F000000] =
      [some .eqInit, some .eqDetach, some (.eqSetGain 2 (-6)), some (.eqStepUp 4), some (.eqStepDn 3), some .eqFlat,
        some (.eqGetGain 7), some .eqNBands, some (.eqGetFreq 9), some (.eqGetType 15), some .eqActive,
        some (.eqProcess [])] := by decide

theorem test_decode_fifo :
    [decodeTableWord 32 0x20000000, decodeTableWord 32 0x21000000, decodeTableWord 32 0x22000000,
      decodeTableWord 32 0x23000000, decodeTableWord 32 0x24000000, decodeTableWord 32 0x25000000,
      decodeTableWord 32 0x26000000, decodeTableWord 32 0x27000000, decodeTableWord 32 0x28000000,
      decodeTableWord 32 0x29000000, decodeTableWord 32 0x2A000000, decodeTableWord 32 0x2B000000] =
      [some .fifoStart, some .fifoStop, some .fifoReset, some .fifoExtract, some .fifoReady, some .fifoEof,
        some .fifoRecv, some .fifoAvail, some .fifoTotalLo, some .fifoTotalHi, some .fifoState,
        some .fifoCap] := by decide

theorem test_decode_producer :
    [decodeTableWord 32 0x30000000, decodeTableWord 32 0x31000000, decodeTableWord 32 0x32000000,
      decodeTableWord 32 0x33000000, decodeTableWord 32 0x3800FFFF] =
      [some (.srcRead []), some .srcError, some .srcOpenFail, some .srcWouldBlock, some (.timeTick 65535)] := by decide

/-- One word of each format bit by bit from R121 and R122: OP, BAND, RSV, IMM. -/
theorem test_decode_bits :
    [legalOf ⟨.timeBase, 0b00100011#8 ++ 0b0000#4 ++ 0b0000#4 ++ 0b0000000000000000#16, []⟩,
      legalOf ⟨.controlHost, 0b00010011#8 ++ 0b0100#4 ++ 0b0000#4 ++ 0b0000000000000000#16, []⟩,
      legalOf ⟨.audioHost, 0b00010010#8 ++ 0b0010#4 ++ 0b0000#4 ++ 0b1000000000001100#16, []⟩,
      legalOf ⟨.timeBase, 0b00111000#8 ++ 0b0000#4 ++ 0b0000#4 ++ 0b0000101110111000#16, []⟩,
      legalOf ⟨.producerPort, 0b00110000#8 ++ 0b0000#4 ++ 0b0000#4 ++ 0b0000000000000000#16, [1, 2]⟩] =
      [some .fifoExtract, some (.eqStepUp 4), some (.eqSetGain 2 (-32756)), some (.timeTick 3000),
        some (.srcRead [1, 2])] := by decide

/-- V-ENC-2 to V-ENC-10: the first check that fails. -/
theorem test_decode_illegal :
    [illegalOf ⟨.controlHost, 0x00000000, [1]⟩, illegalOf ⟨.controlHost, 0x03000000, []⟩,
      illegalOf ⟨.controlHost, 0xFF000000, []⟩, illegalOf ⟨.controlHost, 0x12210006, []⟩,
      illegalOf ⟨.controlHost, 0x20000001, []⟩, illegalOf ⟨.controlHost, 0x16200001, []⟩,
      illegalOf ⟨.audioHost, 0x1F100000, [1, 0, 1, 0]⟩, illegalOf ⟨.timeBase, 0x38100005, []⟩,
      illegalOf ⟨.timeBase, 0x38000005, [0]⟩] =
      [some .payloadNotAllowed, some .reservedOpcode, some .reservedOpcode, some .rsvNotZero, some .fieldNotZero,
        some .fieldNotZero, some .fieldNotZero, some .fieldNotZero, some .payloadNotAllowed] := by decide

/-- R85: a transaction over a byte channel, little-endian. -/
theorem test_byte_channel :
    transactionOfBytes .producerPort [0x06, 0x00, 0x20, 0x12, 0xAA] = some ⟨.producerPort, 0x12200006, [0xAA]⟩ ∧
      bytesOfWord 0x12200006 = [0x06, 0x00, 0x20, 0x12] := by decide

/-- R123: an issuer saturates a wider gain before encoding. -/
theorem test_encode_saturates :
    encodeCmd (.eqSetGain 4 99999) = 0x12407FFF ∧ encodeCmd (.eqSetGain 4 (-99999)) = 0x12408000 := by decide

/-- R133 and R134. -/
theorem test_assembler :
    asmText (.eqSetGain 2 (-6)) = "EQ.SETGAIN 2, -6" ∧ asmText (.srcRead [0x01, 0xAB]) = "SRC.READ x\"01 AB\"" ∧
      Pseudo.expand (.eqClear 3) = [.eqSetGain 3 0] ∧ Pseudo.expand (.eqStep 1 false) = [.eqStepDn 1] ∧
      Pseudo.expand .srcClose = [.srcRead []] ∧ Pseudo.expand .fifoRestart = [.fifoStop, .fifoStart] := by
  decide +kernel

/-! ### The step -/

/-- The fetch of a table word: EQ.NBANDS is the first instruction after reset. -/
theorem test_fetch : answerOf (step (State.reset.withFetchWord 32 0x17000000)) = some (5, []) := by decide
/-- P4, step 2: a reserved opcode sets CMD_ERR and is taken from the pending ones. -/
theorem test_step_illegal :
    readOf (fun t => (t.res, t.pout, t.cmdErr, t.pending)) (step (State.reset.withFetchWord 32 0x03000000)) =
      some (0, [], true, []) := by decide

/-! ### General -/

theorem test_nop : answerOf (exec .nop { State.reset with res := 7, pout := [1] }) = some (0, []) := by decide
/-- V-GEN-3. -/
theorem test_getStatus :
    answerOf (exec .getStatus
      { State.reset with attached := true, gain := ⟨0, 6, 0, 0, 0⟩, session := .running }) = some (0x023, []) := by decide
/-- P5, step 11: 0x0CF. -/
theorem test_getStatus_all :
    answerOf (exec .getStatus
      { State.reset with
        attached := true, gain := ⟨0, 0, 6, 0, 0⟩, session := .eof, eofFlag := true, eofCause := .closure,
        rxSeen := true }) = some (0x0CF, []) := by decide
theorem test_clrErr : readOf (·.cmdErr) (exec .clrErr { State.reset with cmdErr := true }) = some false := by decide

/-! ### Equalizer control -/

/-- V-EQC-15. -/
theorem test_eqInit :
    readOf (fun t => (t.gain, t.attached)) (exec .eqInit { State.reset with gain := ⟨0, 6, 0, 0, 0⟩ }) =
      some (⟨0, 0, 0, 0, 0⟩, true) := by decide
/-- V-EQC-14. -/
theorem test_eqDetach :
    readOf (fun t => (t.gain.b2, t.attached, t.undef)) (exec .eqDetach (oneBand .b2 6)) =
      some (6, false, ⟨true, true, true, true, true⟩) := by decide +kernel
/-- E9. -/
theorem test_eqSetGain_clamps : readOf (·.gain.b2.toInt) (exec (.eqSetGain 2 (-999)) State.reset) = some (-12) := by
  decide +kernel
/-- Row (2, +6) of R290. -/
theorem test_eqSetGain_coef :
    readOf (·.coef.b2.b0) (exec (.eqSetGain 2 6) State.reset) = some (F64.hex false 0x0c317b3cd668d 0) := by
  decide +kernel
/-- V-EQC-3. -/
theorem test_eqStepUp :
    readOf (·.gain.b3.toInt) (exec (.eqStepUp 3) { State.reset with gain := ⟨0, 0, 0, 11, 0⟩ }) = some 12 := by
  decide +kernel
/-- V-EQC-4: no change keeps the history. -/
theorem test_eqStepUp_keeps :
    readOf (·.hist.b3.c1.y2)
      (exec (.eqStepUp 3) { State.reset with gain := ⟨0, 0, 0, 12, 0⟩, hist := State.reset.hist.put .b3 .c1 ⟨1, 2, 3, 4⟩ }) =
      some 4 := by decide +kernel
/-- V-EQC-6. -/
theorem test_eqStepDn :
    readOf (·.gain.b4.toInt) (exec (.eqStepDn 4) { State.reset with gain := ⟨0, 0, 0, 0, -2⟩ }) = some (-4) := by
  decide +kernel
/-- V-EQC-8. -/
theorem test_eqFlat :
    readOf (·.gain) (exec .eqFlat { State.reset with gain := ⟨0, 6, 0, 0, -2⟩ }) = some ⟨0, 0, 0, 0, 0⟩ := by
  decide +kernel
/-- V-EQC-7. -/
theorem test_eqGetGain :
    answerOf (exec (.eqGetGain 2) { State.reset with gain := ⟨1, 2, -6, 3, 4⟩ }) = some (0xFFFFFFFA, []) := by decide
theorem test_eqNBands : answerOf (exec .eqNBands State.reset) = some (5, []) := by decide
/-- V-EQC-10. -/
theorem test_eqGetFreq :
    [0, 1, 2, 3, 4, 9].map (fun b => answerOf (exec (.eqGetFreq b) State.reset)) =
      [some (60, []), some (250, []), some (1000, []), some (4000, []), some (16000, []), some (0, [])] := by decide
/-- V-EQC-11. -/
theorem test_eqGetType :
    [0, 1, 2, 3, 4, 5].map (fun b => answerOf (exec (.eqGetType b) State.reset)) =
      [some (1, []), some (2, []), some (2, []), some (2, []), some (3, []), some (0, [])] := by decide
theorem test_eqActive :
    answerOf (exec .eqActive { State.reset with gain := ⟨0, 0, 0, 0, 2⟩ }) = some (1, []) ∧
      answerOf (exec .eqActive State.reset) = some (0, []) := by decide

/-! ### EQ.PROCESS. A sample below the threshold needs no TANH: these values hold for every curve. -/

/-- V-EQP-9: the first frame of V-EQP-3 and three trailing bytes. -/
theorem test_eqProcess :
    answerOf (exec (.eqProcess [0x10, 0x27, 0xF0, 0xD8, 0x12, 0x34, 0x56]) (oneBand .b2 6)) =
      some (0, [0xEC, 0x28, 0x14, 0xD7, 0x12, 0x34, 0x56]) := by decide +kernel
/-- V-EQP-4's first frame: two bands in ascending order, (8730, -8730). -/
theorem test_eqProcess_cascade :
    answerOf (exec (.eqProcess (payloadFrames [(10000, -10000)])) ((oneBand .b1 6).changeGain .b3 (-6))) =
      some (0, payloadFrames [(8730, -8730)]) := by decide +kernel
/-- R235: samples are signed and little-endian. -/
theorem test_samples : le16s 0xF0 0xD8 = -10000 ∧ le16s 0x00 0x80 = -32768 ∧ bytesLe (-10000) 2 = [0xF0, 0xD8] := by decide
/-- V-CLIP at 32767.0, given the C library's tanh(1.0). -/
theorem test_softClip (h : F64.tanh 0x3FF0000000000000 = 0x3FE85EFAB514F394) :
    softClip 0x40DFFFC000000000 = 0x40DF966F28EFC73A := by
  have hu : F64.div (F64.sub 0x40DFFFC000000000 clipT) clipK = 0x3FF0000000000000 := by decide +kernel
  have hlt : F64.lt clipT 0x40DFFFC000000000 = true := by decide +kernel
  simp only [softClip, hlt, if_true, clipCurve, hu, h]
  decide +kernel
/-- V-CLIP: 31000.0 unchanged; -1.5 gives -1, 30999.9 gives 30999, 32345.736873573835 gives 32345. -/
theorem test_trunc :
    softClip 0x40DE460000000000 = 0x40DE460000000000 ∧ trunc16 (softClip 0xBFF8000000000000) = -1 ∧
      trunc16 (softClip 0x40DE45F99999999A) = 30999 ∧ trunc16 0x40DF966F28EFC73A = 32345 := by decide +kernel
/-- R9, R38: the Q column, 0.9 being the binary64 number nearest to 9 / 10. -/
theorem test_bandQ :
    Band.all.map (bandQ Params.default) = [Params.default.shelfQ, F64.ofInt 1, F64.ofInt 1, F64.ofInt 1, Params.default.shelfQ] ∧
      Params.default.shelfQ = F64.div (F64.ofInt 9) (F64.ofInt 10) ∧
      cookbookAlpha 0x3FC22CDEABEC443D (bandQ Params.default .b2) = F64.div 0x3FC22CDEABEC443D (F64.ofInt 2) := by
  decide +kernel
/-- R281: an instance with another COEF_ROM filters with its own rows. -/
theorem test_otherRom :
    answerOf (exec (.eqProcess (payloadFrames [(10000, -10000)]))
      ((State.initEq { small with cfg := { small.cfg with coefRom := halfRom } }).setGain 2 6)) =
        some (0, payloadFrames [(5000, -5000)]) := by
  decide +kernel
/-- R282 to R287 give row (2, +6) of R290 from the library's cos, sin and pow values there. -/
theorem test_cookbook :
    cookbookW0 .b2 = 0x3FC23CA61DCC76A2 ∧ cookbookExponent 6 = 0x3FC3333333333333 ∧
      cookbook Params.default (fun _ => 0x3FC22CDEABEC443D) (fun _ => 0x3FEFACFE8CDED93F) (fun _ _ => 0x3FF699C0F7E86E10) .b2 6 =
        coefRom Params.default .b2 6 := by decide +kernel
/-- The same for the shelves: rows (0, -12) and (4, +12). -/
theorem test_cookbook_shelves :
    cookbook Params.default (fun _ => 0x3F8181D92D63669A) (fun _ => 0x3FEFFFB35F77195C) (fun _ _ => 0x3FE009B9CF334252) .b0 (-12) =
        coefRom Params.default .b0 (-12) ∧
      cookbook Params.default (fun _ => 0x3FE84ACFA2384ADC) (fun _ => 0xBFE4D478B7D88DB3) (fun _ _ => 0x3FFFEC982D5BB8AF) .b4 12 =
        coefRom Params.default .b4 12 := by decide +kernel

/-! ### The session -/

/-- V-SES-14. -/
theorem test_fifoStart :
    readOf (fun t => (t.session, t.avail, t.totalRx, t.rxSeen)) (exec .fifoStart { holding with session := .stopped }) =
      some (.running, 0, 0, false) := by decide
/-- V-SES-19: a second START changes nothing. -/
theorem test_fifoStart_running : readOf (·.avail) (exec .fifoStart holding) = some 10 := by decide
/-- V-SES-6. -/
theorem test_fifoStop :
    readOf (fun t => (t.session, t.eofFlag, t.eofCause)) (exec .fifoStop
      { running with session := .eof, eofFlag := true, eofCause := .closure }) = some (.stopped, true, .closure) := by decide
/-- V-SES-9. -/
theorem test_fifoStop_idle : readOf (·.session) (exec .fifoStop State.reset) = some .idle := by decide
/-- V-SES-11 and V-SES-13. -/
theorem test_fifoReset :
    readOf (fun t => (t.session, t.avail)) (exec .fifoReset holding) = some (.running, 0) ∧
      readOf (·.session) (exec .fifoReset { holding with session := .stopped }) = some .idle := by decide

/-! ### Producer port and time base -/

/-- P2, step 9: positions 10 .. 15 and then 0 .. 5. -/
theorem test_srcRead_wraps :
    readOf (fun t => (Memory.read t.fifoMem 15, Memory.read t.fifoMem 5, Memory.read t.fifoMem 6, t.wrPos, t.avail))
      (exec (.srcRead [0x10, 0x11, 0x12, 0x13, 0x14, 0x15, 0x16, 0x17, 0x18, 0x19, 0x1A, 0x1B]) nearEnd) =
      some (0x15, 0x1B, 6, 6, 14) := by decide
/-- E5's drop: 6 bytes of room, 7 given, 7 counted. -/
theorem test_srcRead_drops :
    readOf (fun t => (t.avail, t.totalRx, t.wrPos)) (exec (.srcRead (payloadSeq 7)) holding) = some (16, 17, 0) := by decide
/-- V-SES-3, and V-SES-17: a second cause is ignored. -/
theorem test_srcError :
    readOf (·.stateWord) (exec .srcError running) = some 0x22 ∧
      readOf (·.eofCause) (exec .srcError { running with session := .eof, eofFlag := true, eofCause := .openFailure }) =
        some .openFailure := by decide
/-- V-SES-4. -/
theorem test_srcOpenFail : readOf (·.stateWord) (exec .srcOpenFail running) = some 0x32 := by decide
/-- V-SRC-2. -/
theorem test_srcWouldBlock : readOf (fun t => (t.avail, t.rxSeen)) (exec .srcWouldBlock running) = some (0, false) := by decide
/-- R54: NOW wraps modulo 2^64. -/
theorem test_timeTick :
    readOf (·.now) (exec (.timeTick 3) { State.reset with now := 0xFFFFFFFFFFFFFFFE }) = some 1 := by decide

/-! ### Consumer -/

/-- E6: ten bytes aligned down to eight; WavHeader(8). -/
theorem test_fifoExtract :
    answerOf (exec .fifoExtract holding) =
      some (52, [0x52, 0x49, 0x46, 0x46, 0x2C, 0x00, 0x00, 0x00, 0x57, 0x41, 0x56, 0x45, 0x66, 0x6D, 0x74, 0x20, 0x10,
        0x00, 0x00, 0x00, 0x01, 0x00, 0x02, 0x00, 0x44, 0xAC, 0x00, 0x00, 0x10, 0xB1, 0x02, 0x00, 0x04, 0x00, 0x10, 0x00,
        0x64, 0x61, 0x74, 0x61, 0x08, 0x00, 0x00, 0x00, 0, 1, 2, 3, 4, 5, 6, 7]) := by decide
/-- E6: two bytes are no frame. -/
theorem test_fifoExtract_noData : readOf (fun t => (t.res, t.pout, t.avail)) (exec .fifoExtract nearEnd) = some (0, [], 2) := by
  decide
/-- The boundary of READY: one byte below, and at PREBUFFER_BYTES. -/
theorem test_fifoReady :
    answerOf (exec .fifoReady { running with avail := 7 }) = some (0, []) ∧
      answerOf (exec .fifoReady { running with avail := 8 }) = some (1, []) := by decide
theorem test_fifoEof : answerOf (exec .fifoEof { running with eofFlag := true }) = some (1, []) := by decide
/-- V-RX: 2999 ticks after the data 1, 3000 ticks after 0. -/
theorem test_fifoRecv :
    answerOf (exec .fifoRecv { holding with now := 2999 }) = some (1, []) ∧
      answerOf (exec .fifoRecv { holding with now := 3000 }) = some (0, []) := by decide
theorem test_fifoAvail : answerOf (exec .fifoAvail holding) = some (10, []) := by decide
/-- V-SRC-6: 2^32 + 5 bytes. -/
theorem test_fifoTotal :
    answerOf (exec .fifoTotalLo { running with totalRx := 0x100000005 }) = some (5, []) ∧
      answerOf (exec .fifoTotalHi { running with totalRx := 0x100000005 }) = some (1, []) := by decide
theorem test_fifoState :
    answerOf (exec .fifoState { running with session := .stopped, eofFlag := true, eofCause := .readError }) =
      some (0x23, []) := by decide
theorem test_fifoCap : answerOf (exec .fifoCap State.reset) = some (0x000D7550, []) := by decide

/-! ### Witnesses: for every obligation with hypotheses, values that meet them together, at the bounds of their ranges -/

/-- The illegal transactions of R135, one for each check, and a legal one. -/
def illegalA : Transaction := ⟨.controlHost, 0x03000000, []⟩
def illegalB : Transaction := ⟨.controlHost, 0x12010000, []⟩
def illegalC : Transaction := ⟨.controlHost, 0x20100000, []⟩
def illegalD : Transaction := ⟨.controlHost, 0x21000000, [0]⟩
def legalStart : Transaction := ⟨.controlHost, 0x20000000, []⟩

/-- A frame for one filtered band. -/
def oneFrame : List Byte := payloadFrames [(10000, -10000)]

theorem witness_DecodeEncodeAgree :
    (Instr.eqSetGain 15 (-32768)).wellFormed = true ∧ (Instr.eqSetGain 0 32767).wellFormed = true ∧
      (Instr.timeTick 65535).wellFormed = true ∧ (Instr.srcRead [0]).wellFormed = true := by decide

theorem witness_DecodedTransactionIsTheEncoding :
    decode ⟨.timeBase, 0x3800FFFF, []⟩ = .ok (.timeTick 65535) ∧
      decode ⟨.audioHost, 0x1F000000, [7]⟩ = .ok (.eqProcess [7]) := ⟨rfl, rfl⟩

theorem witness_IllegalByTheFourChecks :
    (decode illegalA = .error .reservedOpcode ∧ (State.present small illegalA).pending = illegalA :: []) ∧
    (decode illegalB = .error .rsvNotZero ∧ (State.present small illegalB).pending = illegalB :: []) ∧
    (decode illegalC = .error .fieldNotZero ∧ (State.present small illegalC).pending = illegalC :: []) ∧
    (decode illegalD = .error .payloadNotAllowed ∧ (State.present small illegalD).pending = illegalD :: []) :=
  ⟨⟨rfl, rfl⟩, ⟨rfl, rfl⟩, ⟨rfl, rfl⟩, ⟨rfl, rfl⟩⟩

theorem witness_OpcodeMapIsTheTable :
    decode legalStart = .ok .fifoStart ∧ decode illegalA = .error .reservedOpcode ∧
      decode illegalB = .error .rsvNotZero ∧ decode illegalC = .error .fieldNotZero := ⟨rfl, rfl, rfl, rfl⟩

theorem witness_OperandsAreTheirFields :
    decode ⟨.controlHost, 0x12F08000, []⟩ = .ok (.eqSetGain 15 (-32768)) ∧
      decode ⟨.controlHost, 0x12007FFF, []⟩ = .ok (.eqSetGain 0 32767) ∧
      decode ⟨.controlHost, 0x13F00000, []⟩ = .ok (.eqStepUp 15) ∧
      decode ⟨.controlHost, 0x14000000, []⟩ = .ok (.eqStepDn 0) ∧
      decode ⟨.controlHost, 0x16F00000, []⟩ = .ok (.eqGetGain 15) ∧
      decode ⟨.controlHost, 0x18000000, []⟩ = .ok (.eqGetFreq 0) ∧
      decode ⟨.controlHost, 0x19F00000, []⟩ = .ok (.eqGetType 15) ∧
      decode ⟨.timeBase, 0x38000000, []⟩ = .ok (.timeTick 0) ∧ (15 : Nat) < 16 :=
  ⟨rfl, rfl, rfl, rfl, rfl, rfl, rfl, rfl, by decide⟩

theorem witness_OutOfRangeBandIsIgnored :
    ((4 : Nat) < 5 ∧ (5 : Nat) < 16) ∧ ((4 : Nat) < 15 ∧ (15 : Nat) < 16) ∧
      ((-32768 : Int) ≤ -32768 ∧ (-32768 : Int) ≤ 32767) ∧ ((-32768 : Int) ≤ 32767 ∧ (32767 : Int) ≤ 32767) := by decide

theorem witness_StepRunsTheDecodedInstruction :
    (State.present small legalStart).pending = legalStart :: [] ∧ decode legalStart = .ok .fifoStart := ⟨rfl, rfl⟩

theorem witness_IssuerAndIdleChangeNothing : State.reset.pending = [] := rfl

theorem witness_CmdErrIsSticky :
    ((State.present small illegalA).pending = illegalA :: [] ∧ decode illegalA = .error .reservedOpcode) ∧
      Instr.getStatus ≠ .clrErr ∧ ∃ t, exec .getStatus { small with cmdErr := true } = .next t :=
  ⟨⟨rfl, rfl⟩, by decide, _, rfl⟩

/-- The first index out of range, the last in range; a clamped value that is held already, and one that is not. -/
theorem witness_SetGainRule :
    (4 : Nat) < 5 ∧ Band.b4.index = 4 ∧ clamp 13 (-12) 12 = ((oneBand .b4 12).gain.get .b4).toInt ∧
      clamp 11 (-12) 12 ≠ ((oneBand .b4 12).gain.get .b4).toInt ∧ Band.b0 ≠ .b4 := by decide

theorem witness_EqFlatFlattensEveryBand :
    (oneBand .b4 12).gain.get .b0 = 0 ∧ (oneBand .b4 12).gain.get .b4 ≠ 0 := by decide

theorem witness_EqualizerQueryResults :
    (∀ b : Band, State.reset.gain.get b = 0) ∧ ∃ b : Band, (oneBand .b4 (-12)).gain.get b ≠ 0 :=
  ⟨fun b => by cases b <;> rfl, .b4, by decide⟩

theorem witness_CoefficientTableIsStable :
    ((-12 : Int) ≤ -12 ∧ (-12 : Int) ≤ 12) ∧ ((-12 : Int) ≤ 12 ∧ (12 : Int) ≤ 12) ∧ (-12 : Int) ≤ 0 ∧ (0 : Int) ≤ 12 := by
  decide

theorem witness_FastPathReturnsTheBuffer :
    small.initEq.attached = true ∧ ∀ b : Band, small.initEq.gain.get b = 0 := ⟨rfl, fun b => by cases b <;> rfl⟩

theorem witness_DetachedUntilInit :
    State.reset.attached = false ∧
      ∃ t u, exec .eqDetach (oneBand .b2 6) = .next t ∧ Instr.eqInit ∉ [Instr.eqSetGain 7 6, .eqProcess oneFrame] ∧
        execAll [.eqSetGain 7 6, .eqProcess oneFrame] t = .next u :=
  ⟨rfl, _, _, rfl, by decide, rfl⟩

theorem witness_OneFrameIsFiltered :
    (oneBand .b2 6).attached = true ∧ (∃ b : Band, (oneBand .b2 6).gain.get b ≠ 0) ∧ (oneBand .b2 6).FilterBounded := by
  refine ⟨rfl, ⟨.b2, by decide⟩, fun b h => ?_⟩
  cases b with
  | b2 =>
    refine ⟨rfl, ?_, fun c => ?_⟩
    · decide +kernel
    · cases c <;> decide +kernel
  | b0 | b1 | b3 | b4 => exact absurd rfl h

theorem witness_SplitBuffersGiveTheSame : oneFrame.length % 4 = 0 ∧ ([] : List Byte).length % 4 = 0 := by decide

theorem witness_PartialFrameIsUntouched :
    oneFrame.length % 4 = 0 ∧ ([1, 2, 3] : List Byte).length < 4 ∧ ([] : List Byte).length < 4 := by decide

theorem witness_ProcessFrameAndRange :
    (oneBand .b2 6).attached = true ∧ (∃ b : Band, (oneBand .b2 6).gain.get b ≠ 0) ∧
      (readOf (fun _ => ()) (exec (.eqProcess (oneFrame ++ [1])) (oneBand .b2 6))).isSome = true ∧
      2 * 0 + 1 < (oneFrame ++ [1]).length - (oneFrame ++ [1]).length % 4 ∧
      2 * 1 + 1 < (oneFrame ++ [1]).length - (oneFrame ++ [1]).length % 4 ∧
      (oneBand .b2 6).gain.get .b1 = 0 := by
  refine ⟨rfl, ⟨.b2, by decide⟩, ?_, ?_, ?_, ?_⟩ <;> decide +kernel

/-- Finite operands, the greatest finite one and both zeros among them, and integers at the bound. -/
theorem witness_RealOperationsAreCorrectlyRounded :
    F64.isFinite 0x7FEFFFFFFFFFFFFF = true ∧ F64.isFinite 0x8000000000000000 = true ∧ F64.isFinite 1 = true ∧
      F64.num 1 ≠ 0 ∧ (2 ^ 53 - 1 : Int).natAbs < 2 ^ 53 ∧ (-(2 ^ 53 - 1) : Int).natAbs < 2 ^ 53 := by
  decide

/-- Ties: 2^53 + 1 goes down to the even 2^53 and 2^53 + 3 up to 2^53 + 4; the greatest finite value and half of its last
place overflow (IEEE 754, R13). -/
theorem test_ties :
    F64.add 0x4340000000000000 0x3FF0000000000000 = 0x4340000000000000 ∧
      F64.add 0x4340000000000001 0x3FF0000000000000 = 0x4340000000000002 ∧
      F64.add 0x7FEFFFFFFFFFFFFF 0x7C90000000000000 = 0x7FF0000000000000 ∧
      F64.add 0x7FEFFFFFFFFFFFFF 0x7C8FFFFFFFFFFFFF = 0x7FEFFFFFFFFFFFFF := by
  decide +kernel

/-- Just beyond the threshold on both sides, the threshold itself, and u at 0, 1.0 and infinity. -/
theorem witness_SoftClipRule :
    F64.lt (F64.ofInt 31000) 0x40DE460000000001 = true ∧ F64.lt 0xC0DE460000000001 (F64.neg (F64.ofInt 31000)) = true ∧
      (F64.le (F64.neg (F64.ofInt 31000)) 0x40DE460000000000 = true ∧
        F64.le 0x40DE460000000000 (F64.ofInt 31000) = true) ∧
      (F64.le (F64.neg (F64.ofInt 31000)) 0xC0DE460000000000 = true ∧
        F64.le 0xC0DE460000000000 (F64.ofInt 31000) = true) ∧
      F64.le F64.zero 0 = true ∧ F64.le 0 0x3FF0000000000000 = true ∧
      F64.le 0x3FF0000000000000 0x7FF0000000000000 = true := by decide +kernel

theorem witness_SoftClipIsOddAndMonotone :
    F64.isNaN 0x7FF0000000000000 = false ∧ F64.isNaN 0 = false ∧ F64.le 0xFFF0000000000000 0x8000000000000000 = true := by
  decide

theorem witness_TruncatedOutputFits16Bits :
    F64.isNaN 0xBFF8000000000000 = false ∧ F64.isInf 0xBFF8000000000000 = false ∧ F64.sign 0xBFF8000000000000 = true ∧
      F64.sign 0 = false ∧ F64.isInf 0x7FEFFFFFFFFFFFFF = false ∧ F64.isNaN 0xFFF0000000000000 = false := by decide

/-- A state whose channel 1 has another history than that of `oneBand .b2 6`. -/
def otherChannel : State :=
  { oneBand .b2 6 with hist := (oneBand .b2 6).hist.put .b2 .c1 ⟨0x3FF0000000000000, 0, 0, 0⟩ }

/-- Channel 0 alike, channel 1's sample and history different. -/
theorem witness_ChannelsNeverCross :
    SameChannel .c0 (oneBand .b2 6) otherChannel ∧ otherChannel.hist ≠ (oneBand .b2 6).hist ∧
      otherChannel.cfg.coefRom = (oneBand .b2 6).cfg.coefRom ∧
      (payloadFrames [(10000, 5)]).length = oneFrame.length ∧
      (∀ j : Nat, j % 4 / 2 = Channel.c0.index → (payloadFrames [(10000, 5)])[j]? = oneFrame[j]?) ∧
      (readOf (fun _ => ()) (exec (.eqProcess oneFrame) (oneBand .b2 6))).isSome = true ∧
      (readOf (fun _ => ()) (exec (.eqProcess (payloadFrames [(10000, 5)])) otherChannel)).isSome = true ∧
      (∃ t, exec (.eqStepUp 2) (oneBand .b2 6) = .next t) ∧ ∃ t, exec (.eqStepUp 2) otherChannel = .next t := by
  refine ⟨⟨rfl, rfl, rfl, rfl, fun b => by cases b <;> rfl⟩, by decide, rfl, by decide, ?_, by decide +kernel,
    by decide +kernel, ⟨_, rfl⟩, _, rfl⟩
  intro j hj
  match j with
  | 0 | 1 => decide
  | 2 | 3 => simp [Channel.index] at hj
  | n + 4 =>
    rw [List.getElem?_eq_none (by rw [show (payloadFrames [(10000, 5)]).length = 4 by decide]; omega),
      List.getElem?_eq_none (by rw [show oneFrame.length = 4 by decide]; omega)]

theorem witness_FlatAgainStartsFromZero :
    small.initEq.gain.get .b2 = 0 ∧ clamp 6 (-12) 12 ≠ 0 ∧
      (∃ t t' u, exec (.eqSetGain Band.b2.index 6) small.initEq = .next t ∧
        execAll (([[1, 2, 3]] : List (List Byte)).map .eqProcess) t = .next t' ∧
        exec (.eqSetGain Band.b2.index 0) t' = .next u) ∧
      ∀ b' : Band, b' ≠ .b2 → small.initEq.gain.get b' = 0 := by
  refine ⟨rfl, by decide, ⟨_, _, _, rfl, rfl, rfl⟩, fun b' _ => by cases b' <;> rfl⟩

theorem witness_CoefFollowsTheGain :
    (oneBand .b2 6).CoefFollowsGain ∧ (∃ t, step (oneBand .b2 6) = .next t) ∧
      SameButFlatCoef (oneBand .b2 6) { oneBand .b2 6 with coef := (oneBand .b2 6).coef.set .b0 (coefRom Params.default .b0 3) } := by
  refine ⟨fun b hb _ => ?_, ⟨_, rfl⟩, rfl, fun b hb => ?_⟩
  · cases b with
    | b2 => exact congrArg (coefRom Params.default .b2) (show (6 : Int) = ((oneBand .b2 6).gain.get .b2).toInt by decide)
    | b0 | b1 | b3 | b4 => exact absurd rfl hb
  · cases b with
    | b0 => exact absurd rfl hb
    | b1 | b2 | b3 | b4 => rfl

/-- A state where EQ.PROCESS stops: band 2 undefined, or its history infinite with both signs. -/
theorem witness_ProcessStopsByName :
    ({ oneBand .b2 6 with undef := ⟨true, true, true, true, true⟩ } : State).undef.get .b2 = true ∧
      (oneBand .b2 6).attached = true ∧ (oneBand .b2 6).gain.get .b2 ≠ 0 ∧
      (∀ b' : Band, b'.index < Band.b2.index → (oneBand .b2 6).gain.get b' = 0) ∧
      (oneBand .b2 6).undef.get .b2 = false ∧
      F64.isNaN (recurrence ((oneBand .b2 6).coef.get .b2)
        ⟨0x7FF0000000000000, 0x7FF0000000000000, 0, 0⟩ (F64.ofInt (le16s 0x10 0x27))) = true := by
  refine ⟨rfl, rfl, by decide, fun b' h => ?_, rfl, by decide +kernel⟩
  cases b' with
  | b0 | b1 => rfl
  | b2 | b3 | b4 => simp [Band.index] at h

theorem test_stops :
    faultOf (exec (.eqProcess oneFrame) { oneBand .b2 6 with undef := ⟨true, true, true, true, true⟩ }) =
        some .undefState ∧
      faultOf (exec (.eqProcess oneFrame) { oneBand .b2 6 with
        hist := PerBand.all ⟨⟨0x7FF0000000000000, 0x7FF0000000000000, 0, 0⟩, Hist.zero⟩ }) = some .nonFinite := by
  decide +kernel

theorem witness_InvariantHoldsAtReset : Params.Valid small.cfg ∧ Params.Valid tinyParams ∧ Params.Valid { tinyParams with coefRom := halfRom } := by
  decide

/-- A running session with unread bytes meets the invariant. -/
theorem witness_inv : holding.Inv where
  cfg := by decide
  gains := fun b => by cases b <;> decide
  ring := by unfold State.RingOk; decide
  memory := by unfold State.MemoryOk; decide
  coefs := fun b hb _ => by cases b <;> exact absurd rfl hb
  defined := fun h => absurd h (by decide)
  eof := by unfold State.EofCoherent; decide
  idle := fun h => absurd h (by decide)
  flat := fun b _ => by cases b <;> rfl
  noNaN := fun b c => by cases b <;> cases c <;> decide

theorem witness_InvariantKeptByEveryStep :
    ∃ t, step (State.present holding legalStart) = .next t := ⟨_, rfl⟩

theorem witness_OnlyEqProcessCanStop :
    (∀ pin : List Byte, Instr.timeTick 1 ≠ .eqProcess pin) ∧ holding.AttachedDefined ∧ (oneBand .b2 6).AttachedDefined :=
  ⟨fun _ h => Instr.noConfusion h, witness_inv.defined, fun _ b => by cases b <;> rfl⟩

/-- An attached state with a band that is not flat meets the invariant. -/
theorem oneBand_inv : (oneBand .b2 6).Inv where
  cfg := by decide
  gains := fun b => by cases b <;> decide
  ring := by unfold State.RingOk; decide
  memory := by unfold State.MemoryOk; decide
  coefs := witness_CoefFollowsTheGain.1
  defined := fun _ b => by cases b <;> rfl
  eof := by unfold State.EofCoherent; decide
  idle := fun _ => ⟨rfl, rfl, rfl⟩
  flat := fun b _ => by cases b <;> rfl
  noNaN := fun b c => by cases b <;> cases c <;> decide

theorem witness_NoRunFromResetStops :
    small.cfg.Valid ∧ small.cfg.coefRom = defaultRom ∧ (oneBand .b2 6).RunInv := by
  refine ⟨by decide, rfl, oneBand_inv, rfl, fun b c _ _ => ?_⟩
  have hz : (oneBand .b2 6).hist.at b c = Hist.zero := by cases b <;> cases c <;> rfl
  rw [hz]
  exact BandBounded_zero (one_le_pow₀ (by norm_num))

theorem witness_UnitsShareNoData :
    (isEqualizerInstr (.eqSetGain 2 6) = true ∧ holding.SameEq small ∧ ∃ t, exec (.eqSetGain 2 6) holding = .next t) ∧
      (isFifoInstr .fifoExtract = true ∧ holding.SameFifo { holding with attached := true } ∧
        (∃ t, exec .fifoExtract holding = .next t)) ∧
      isEqualizerInstr .getStatus = false ∧ isFifoInstr .getStatus = false ∧
      ∃ t, exec .getStatus holding = .next t :=
  ⟨⟨rfl, ⟨rfl, rfl, rfl, rfl, rfl⟩, _, rfl⟩, ⟨rfl, ⟨rfl, rfl, rfl, rfl, rfl, rfl, rfl, rfl, rfl, rfl⟩, _, rfl⟩, rfl, rfl, _,
    rfl⟩

theorem witness_WritersOfEachElement :
    (Element.writtenBy .fifoMem .fifoExtract = false ∧ ∃ t, exec .fifoExtract holding = .next t) ∧
      (setsGain (.eqStepUp 9) = true ∧ ∃ t, exec (.eqStepUp 9) holding = .next t ∧ t.gain.get .b0 = holding.gain.get .b0) ∧
      (Element.gain ≠ .cmdErr ∧ (State.present holding illegalA).pending = illegalA :: [] ∧
        decode illegalA = .error .reservedOpcode ∧ ∃ t, step (State.present holding illegalA) = .next t) :=
  ⟨⟨rfl, _, rfl⟩, ⟨rfl, _, rfl, rfl⟩, by decide, rfl, rfl, _, rfl⟩

theorem witness_QueriesHaveNoSideEffect :
    isQueryInstr .fifoCap = true ∧ running.session = .running ∧ small.session = .idle ∧
      ({ running with session := .stopped } : State).session = .stopped ∧ small.GainsInRange :=
  ⟨rfl, rfl, rfl, rfl, fun b => by cases b <;> decide⟩

theorem witness_RingInvariantKept :
    holding.cfg.Valid ∧ holding.RingOk ∧ ∃ t, step (State.present holding legalStart) = .next t :=
  ⟨witness_inv.cfg, witness_inv.ring, _, rfl⟩

theorem witness_SessionTransactionResults :
    running.session = .running ∧ small.session ≠ .running ∧ small.session = .idle ∧
      ({ running with session := .eof } : State).session = .eof ∧
      ({ running with session := .stopped } : State).session = .stopped := ⟨rfl, by decide, rfl, rfl, rfl⟩

theorem witness_SessionTransitionTable :
    ∃ t, exec .srcError running = .next t ∧ running.session = .running ∧ t.session = .eof := ⟨_, rfl, rfl, rfl⟩

theorem witness_ProducerIgnoredOutsideRunning :
    isProducerInstr (.srcRead [1]) = true ∧ isProducerInstr .srcError = true ∧ small.session ≠ .running := by decide

theorem witness_StopSilencesTheProducer :
    ∃ t u, exec .fifoStop holding = .next t ∧ Instr.fifoStart ∉ [Instr.fifoReset, .fifoExtract] ∧
      execAll [.fifoReset, .fifoExtract] t = .next u ∧ isProducerInstr (.srcRead [1]) = true :=
  ⟨_, _, rfl, by decide, rfl, rfl⟩

theorem witness_FirstCauseWins :
    ∃ t, ({ running with session := .eof, eofFlag := true, eofCause := .closure } : State).session ≠ .running ∧
      Instr.fifoStart ∉ [Instr.srcError, .fifoStop] ∧ Instr.fifoReset ∉ [Instr.srcError, .fifoStop] ∧
      execAll [.srcError, .fifoStop] { running with session := .eof, eofFlag := true, eofCause := .closure } = .next t :=
  ⟨_, by decide, by decide, by decide, rfl⟩

/-- The payload fits whole (one byte), fills the free space, and is longer than it. -/
theorem witness_SrcReadStoresWhatFits :
    holding.cfg.Valid ∧ holding.RingOk ∧ holding.MemoryOk ∧ holding.session = .running ∧ payloadSeq 1 ≠ [] ∧
      min (payloadSeq 1).length (holding.cfg.fifoCapacity - holding.avail.toNat) = 1 ∧
      min (payloadSeq 6).length (holding.cfg.fifoCapacity - holding.avail.toNat) = 6 ∧
      min (payloadSeq 7).length (holding.cfg.fifoCapacity - holding.avail.toNat) = 6 :=
  ⟨witness_inv.cfg, witness_inv.ring, witness_inv.memory, rfl, by decide, by decide, by decide, by decide⟩

theorem witness_SplitReadIsOneRead :
    holding.cfg.Valid ∧ holding.RingOk ∧ payloadSeq 4 ≠ [] ∧ payloadSeq 3 ≠ [] ∧
      ∃ t, exec (.srcRead (payloadSeq 4)) holding = .next t :=
  ⟨witness_inv.cfg, witness_inv.ring, by decide, by decide, _, rfl⟩

/-- Nothing to extract with two bytes; with ten, the maximum chunk of eight; with five, one frame. -/
theorem witness_ExtractTakesTheOldestFrames :
    (2 = min nearEnd.avail.toNat nearEnd.cfg.maxChunkBytes ∧ 0 = 2 - 2 % 4) ∧
      (8 = min holding.avail.toNat holding.cfg.maxChunkBytes ∧ 8 = 8 - 8 % 4 ∧ holding.cfg.Valid) ∧
      5 = min ({ holding with avail := 5 } : State).avail.toNat holding.cfg.maxChunkBytes ∧ 4 = 5 - 5 % 4 := by decide

theorem witness_FifoOrder :
    running.cfg.Valid ∧ running.RingOk ∧ running.MemoryOk ∧ running.avail = 0 ∧
      (execTrace [.srcRead (payloadSeq 6), .fifoExtract] ⟨running, [], []⟩).isSome = true ∧
      (payloadSeq 16).length ≤ running.cfg.fifoCapacity :=
  ⟨by decide, by unfold State.RingOk; decide, by unfold State.MemoryOk; decide, rfl, by decide, by decide⟩

theorem witness_DrainAfterEndOfStream :
    (holding.cfg.Valid ∧ holding.RingOk ∧ holding.MemoryOk) ∧
      (small.cfg.Valid ∧ small.RingOk ∧ small.MemoryOk ∧ small.session ≠ .running ∧
        (∀ r ∈ [payloadSeq 10, payloadSeq 12], r ≠ []) ∧
        payloadSeq 10 ++ payloadSeq 6 = [payloadSeq 10, payloadSeq 12].flatten.take small.cfg.fifoCapacity) :=
  ⟨⟨witness_inv.cfg, witness_inv.ring, witness_inv.memory⟩, by decide, by unfold State.RingOk; decide,
    by unfold State.MemoryOk; decide, by decide, by decide, by decide⟩

/-- Storage that differs at index 12, which is not unread; and at the last index of the default capacity. -/
theorem witness_StaleStorageIsUnobservable :
    holding.cfg.Valid ∧ holding.RingOk ∧ SameButStale holding { holding with fifoMem := holding.fifoMem ++ [(12, 5)] } ∧
      Memory.wf [(881999, 1)] = true ∧ Memory.inside 882000 [(881999, 1)] = true ∧ Memory.wf [] = true ∧
      running.avail = 0 ∧ (execTrace [.srcRead (payloadSeq 6), .fifoExtract] ⟨running, [], []⟩).isSome = true :=
  ⟨witness_inv.cfg, witness_inv.ring,
    ⟨rfl, by decide, witness_inv.memory, by unfold State.MemoryOk; decide⟩, by decide, by decide, by decide, rfl, by decide⟩

theorem witness_FifoQueryResults :
    ({ running with avail := 8 } : State).cfg.prebufferBytes ≤ ({ running with avail := 8 } : State).avail.toNat ∧
      ({ running with avail := 7 } : State).avail.toNat < ({ running with avail := 7 } : State).cfg.prebufferBytes := by decide

theorem witness_FifoStateAnswers : holding.EofCoherent := witness_inv.eof

/-- One tick below the window, and the window exactly; and a session that has seen no data. -/
theorem witness_ReceivingWindow :
    running.session = .running ∧ payloadSeq 4 ≠ [] ∧
      (∃ t u, exec (.srcRead (payloadSeq 4)) running = .next t ∧
        execAll [.timeTick 2999, .srcWouldBlock] t = .next u) ∧
      List.all [.timeTick 2999, .srcWouldBlock] keepsWindow = true ∧
      ticksOf [.timeTick 2999, .srcWouldBlock] < 3 * running.cfg.ticksPerSecond ∧
      ticksOf [.timeTick 2999, .timeTick 1] = 3 * running.cfg.ticksPerSecond ∧
      ticksOf [.timeTick 2999, .timeTick 1] < 2 ^ 64 ∧ running.rxSeen = false :=
  ⟨rfl, by decide, ⟨_, _, rfl, rfl⟩, by decide, by decide, by decide, by decide, rfl⟩

theorem witness_QueriesAfterReset :
    Params.Valid tinyParams ∧ Params.Valid Params.default ∧ State.reset = { State.reset with cfg := Params.default } :=
  ⟨by decide, by decide, rfl⟩

end Sys2Proof.Tests
end

-- Proofs: the two units share no data (O38)
section
/-!
The two units share no data (00_scope.md R2). Which instructions belong to which opcode group; for each unit the
relation of two states that agree on everything the unit reads, kept by the unit's operations; and the frame of the
unit's operations.
-/

namespace Sys2Proof.Machine

open Sys2Proof

/-! ### The opcode groups (R126) -/

/-- The instructions of the equalizer group, as a case split. -/
theorem equalizerInstr_cases {motive : (i : Instr) → isEqualizerInstr i = true → Prop}
    (eqInit : ∀ h, motive .eqInit h) (eqDetach : ∀ h, motive .eqDetach h)
    (eqSetGain : ∀ band imm h, motive (.eqSetGain band imm) h) (eqStepUp : ∀ band h, motive (.eqStepUp band) h)
    (eqStepDn : ∀ band h, motive (.eqStepDn band) h) (eqFlat : ∀ h, motive .eqFlat h)
    (eqGetGain : ∀ band h, motive (.eqGetGain band) h) (eqNBands : ∀ h, motive .eqNBands h)
    (eqGetFreq : ∀ band h, motive (.eqGetFreq band) h) (eqGetType : ∀ band h, motive (.eqGetType band) h)
    (eqActive : ∀ h, motive .eqActive h) (eqProcess : ∀ pin h, motive (.eqProcess pin) h)
    (i : Instr) (h : isEqualizerInstr i = true) : motive i h := by
  cases i with
  | eqInit => exact eqInit h
  | eqDetach => exact eqDetach h
  | eqSetGain band imm => exact eqSetGain band imm h
  | eqStepUp band => exact eqStepUp band h
  | eqStepDn band => exact eqStepDn band h
  | eqFlat => exact eqFlat h
  | eqGetGain band => exact eqGetGain band h
  | eqNBands => exact eqNBands h
  | eqGetFreq band => exact eqGetFreq band h
  | eqGetType band => exact eqGetType band h
  | eqActive => exact eqActive h
  | eqProcess pin => exact eqProcess pin h
  | _ => exact absurd h (by simp [isEqualizerInstr, encodeCmd])

/-- The instructions of the FIFO, producer and time groups, as a case split. -/
theorem fifoInstr_cases {motive : (i : Instr) → isFifoInstr i = true → Prop}
    (fifoStart : ∀ h, motive .fifoStart h) (fifoStop : ∀ h, motive .fifoStop h)
    (fifoReset : ∀ h, motive .fifoReset h) (fifoExtract : ∀ h, motive .fifoExtract h)
    (fifoReady : ∀ h, motive .fifoReady h) (fifoEof : ∀ h, motive .fifoEof h)
    (fifoRecv : ∀ h, motive .fifoRecv h) (fifoAvail : ∀ h, motive .fifoAvail h)
    (fifoTotalLo : ∀ h, motive .fifoTotalLo h) (fifoTotalHi : ∀ h, motive .fifoTotalHi h)
    (fifoState : ∀ h, motive .fifoState h) (fifoCap : ∀ h, motive .fifoCap h)
    (srcRead : ∀ pin h, motive (.srcRead pin) h) (srcError : ∀ h, motive .srcError h)
    (srcOpenFail : ∀ h, motive .srcOpenFail h) (srcWouldBlock : ∀ h, motive .srcWouldBlock h)
    (timeTick : ∀ imm h, motive (.timeTick imm) h)
    (i : Instr) (h : isFifoInstr i = true) : motive i h := by
  cases i with
  | fifoStart => exact fifoStart h
  | fifoStop => exact fifoStop h
  | fifoReset => exact fifoReset h
  | fifoExtract => exact fifoExtract h
  | fifoReady => exact fifoReady h
  | fifoEof => exact fifoEof h
  | fifoRecv => exact fifoRecv h
  | fifoAvail => exact fifoAvail h
  | fifoTotalLo => exact fifoTotalLo h
  | fifoTotalHi => exact fifoTotalHi h
  | fifoState => exact fifoState h
  | fifoCap => exact fifoCap h
  | srcRead pin => exact srcRead pin h
  | srcError => exact srcError h
  | srcOpenFail => exact srcOpenFail h
  | srcWouldBlock => exact srcWouldBlock h
  | timeTick imm => exact timeTick imm h
  | _ => exact absurd h (by simp [isFifoInstr, encodeCmd])

/-- What is in neither unit's groups is one of the three general transactions. -/
theorem generalInstr_cases {i : Instr} (he : isEqualizerInstr i = false) (hf : isFifoInstr i = false) :
    i = .nop ∨ i = .getStatus ∨ i = .clrErr := by
  cases i with
  | nop => exact .inl rfl
  | getStatus => exact .inr (.inl rfl)
  | clrErr => exact .inr (.inr rfl)
  | _ => simp [isEqualizerInstr, isFifoInstr, encodeCmd] at he hf

/-! ### What the equalizer reads -/

variable {s s' t u : State}

/-- Two states that agree on all the equalizer unit reads: its own elements and COEF_ROM. -/
structure EqInputsAgree (s s' : State) : Prop where
  gain : s'.gain = s.gain
  coef : s'.coef = s.coef
  hist : s'.hist = s.hist
  undef : s'.undef = s.undef
  attached : s'.attached = s.attached
  rom : s'.cfg.coefRom = s.cfg.coefRom

/-- The same equalizer unit and the same answer: what an equalizer transaction leaves alike. -/
def SameEqAndAnswer (t t' : State) : Prop := t.SameEq t' ∧ SameAnswer t t'

theorem EqInputsAgree.of_sameEq (h : s.SameEq s') (hrom : s'.cfg.coefRom = s.cfg.coefRom) : EqInputsAgree s s' := by
  obtain ⟨hgain, hcoef, hhist, hundef, hattached⟩ := h
  exact ⟨hgain, hcoef, hhist, hundef, hattached, hrom⟩

/-- States that agree, answered alike. -/
theorem EqInputsAgree.answer (h : EqInputsAgree s s') (r : Word) (p : List Byte) :
    OutcomesAgree SameEqAndAnswer (.next (s.answer r p)) (.next (s'.answer r p)) :=
  ⟨⟨h.gain, h.coef, h.hist, h.undef, h.attached⟩, rfl, rfl⟩

/-- A query of the equalizer: its word is the same in states that agree. -/
theorem EqInputsAgree.query (h : EqInputsAgree s s') {r r' : Word} (hr : r' = r) :
    OutcomesAgree SameEqAndAnswer (.next (s.answer r [])) (.next (s'.answer r' [])) := hr ▸ h.answer r' []

theorem EqInputsAgree.initEq (h : EqInputsAgree s s') : EqInputsAgree s.initEq s'.initEq :=
  ⟨rfl, rfl, rfl, rfl, rfl, h.rom⟩

theorem EqInputsAgree.detachEq (h : EqInputsAgree s s') : EqInputsAgree s.detachEq s'.detachEq :=
  ⟨h.gain, h.coef, h.hist, rfl, rfl, h.rom⟩

theorem EqInputsAgree.changeGain (h : EqInputsAgree s s') (b : Band) (g : Int) :
    EqInputsAgree (s.changeGain b g) (s'.changeGain b g) where
  gain := by simp [h.gain]
  coef := by simp [h.coef, coefRom, h.rom]
  hist := by simp [h.hist]
  undef := by simp [h.undef]
  attached := h.attached
  rom := h.rom

theorem EqInputsAgree.setBandGain (h : EqInputsAgree s s') (b : Band) (v : Int) :
    EqInputsAgree (s.setBandGain b v) (s'.setBandGain b v) := by
  unfold State.setBandGain
  rw [h.gain]
  split_ifs
  · exact h
  · exact h.changeGain b _

theorem EqInputsAgree.setGain (h : EqInputsAgree s s') (band : Nat) (v : Int) :
    EqInputsAgree (s.setGain band v) (s'.setGain band v) := by
  unfold State.setGain
  split
  · exact h
  · exact h.setBandGain _ v

theorem EqInputsAgree.stepGain (h : EqInputsAgree s s') (band : Nat) (d : Int) :
    EqInputsAgree (s.stepGain band d) (s'.stepGain band d) := by
  unfold State.stepGain
  rw [h.gain]
  split
  · exact h
  · exact h.setBandGain _ _

theorem EqInputsAgree.foldl_setBandGain (bands : List Band) (v : Int) :
    ∀ {s s' : State}, EqInputsAgree s s' →
      EqInputsAgree (bands.foldl (fun t b => t.setBandGain b v) s) (bands.foldl (fun t b => t.setBandGain b v) s') := by
  induction bands with
  | nil => exact fun h => h
  | cons b bands ih => exact fun h => ih (h.setBandGain b v)

theorem EqInputsAgree.flattenAll (h : EqInputsAgree s s') : EqInputsAgree s.flattenAll s'.flattenAll :=
  h.foldl_setBandGain Band.all 0

theorem EqInputsAgree.gainWord (h : EqInputsAgree s s') : s'.gainWord = s.gainWord := by
  funext b; simp [State.gainWord, h.gain]

theorem EqInputsAgree.eqActive (h : EqInputsAgree s s') : s'.eqActive = s.eqActive := by
  simp [State.eqActive, h.gain]

theorem EqInputsAgree.filterBuffer (h : EqInputsAgree s s') (pin : List Byte) :
    filterBuffer s' pin s'.hist = filterBuffer s pin s.hist := by
  rw [h.hist]
  exact filterBuffer_congr h.gain h.undef (fun b _ => by rw [h.coef]) pin s.hist

/-- EQ.PROCESS stops, passes through or filters alike: the path is chosen and the datapath fed by the equalizer's own
elements. -/
theorem EqInputsAgree.execEqProcess (h : EqInputsAgree s s') (pin : List Byte) :
    OutcomesAgree SameEqAndAnswer (execEqProcess pin s) (execEqProcess pin s') := by
  have hpath : (s'.attached && s'.eqActive) = (s.attached && s.eqActive) := by rw [h.attached, h.eqActive]
  cases hp : (s.attached && s.eqActive) with
  | false =>
    rw [execEqProcess_pass hp, execEqProcess_pass (hpath.trans hp)]
    exact h.answer 0 pin
  | true =>
    rw [execEqProcess_filter hp, execEqProcess_filter (hpath.trans hp), processBuffer, processBuffer, h.filterBuffer]
    cases Machine.filterBuffer s pin s.hist with
    | error f => rfl
    | ok r => exact ⟨⟨h.gain, h.coef, rfl, h.undef, h.attached⟩, rfl, rfl⟩

/-- An equalizer transaction's effect and answer are functions of what the equalizer reads. -/
theorem EqInputsAgree.exec (h : EqInputsAgree s s') {i : Instr} (hi : isEqualizerInstr i = true) :
    OutcomesAgree SameEqAndAnswer (exec i s) (exec i s') := by
  cases i, hi using equalizerInstr_cases with
  | eqInit => exact h.initEq.answer 0 []
  | eqDetach => exact h.detachEq.answer 0 []
  | eqSetGain band imm => exact (h.setGain band imm).answer 0 []
  | eqStepUp band => exact (h.stepGain band _).answer 0 []
  | eqStepDn band => exact (h.stepGain band _).answer 0 []
  | eqFlat => exact h.flattenAll.answer 0 []
  | eqGetGain band => exact h.query (by rw [h.gainWord])
  | eqNBands => exact h.answer _ []
  | eqGetFreq band => exact h.answer _ []
  | eqGetType band => exact h.answer _ []
  | eqActive => exact h.query (by rw [h.eqActive])
  | eqProcess pin => exact h.execEqProcess pin

/-! ### What an equalizer transaction leaves alone -/

theorem KeepsAllButEq.refl (s : State) : KeepsAllButEq s s :=
  ⟨⟨rfl, rfl, rfl, rfl, rfl, rfl, rfl, rfl, rfl, rfl⟩, rfl, rfl, rfl, rfl⟩

/-- The answer is not among what is kept, so a transaction that answers from `u` keeps what `u` does. -/
theorem KeepsAllButEq.of_next (hu : KeepsAllButEq s u) {r : Word} {p : List Byte}
    (h : (.next (u.answer r p) : Host.Outcome State Fault Refusal) = .next t) : KeepsAllButEq s t := by
  cases h; exact hu

theorem keepsAllButEq_initEq (s : State) : KeepsAllButEq s s.initEq := KeepsAllButEq.refl s

theorem keepsAllButEq_detachEq (s : State) : KeepsAllButEq s s.detachEq := KeepsAllButEq.refl s

theorem keepsAllButEq_setGain (s : State) (band : Nat) (v : Int) : KeepsAllButEq s (s.setGain band v) := by
  simp [KeepsAllButEq, State.SameFifo, State.SameEnv]

theorem keepsAllButEq_stepGain (s : State) (band : Nat) (d : Int) : KeepsAllButEq s (s.stepGain band d) := by
  simp [KeepsAllButEq, State.SameFifo, State.SameEnv]

theorem keepsAllButEq_flattenAll (s : State) : KeepsAllButEq s s.flattenAll := by
  simp [KeepsAllButEq, State.SameFifo, State.SameEnv]

theorem keepsAllButEq_execEqProcess {pin : List Byte} (h : execEqProcess pin s = .next t) : KeepsAllButEq s t := by
  obtain ⟨-, rfl⟩ | ⟨-, out, hs, -, rfl⟩ := execEqProcess_next h
  · exact KeepsAllButEq.refl s
  · exact KeepsAllButEq.refl s

/-- An equalizer transaction leaves the FIFO unit, NOW, CMD_ERR, the parameters and the pending transactions alone. -/
theorem exec_equalizer_keepsAllButEq {i : Instr} (hi : isEqualizerInstr i = true) (h : exec i s = .next t) :
    KeepsAllButEq s t := by
  cases i, hi using equalizerInstr_cases with
  | eqInit => exact (keepsAllButEq_initEq s).of_next h
  | eqDetach => exact (keepsAllButEq_detachEq s).of_next h
  | eqSetGain band imm => exact (keepsAllButEq_setGain s band imm).of_next h
  | eqStepUp band => exact (keepsAllButEq_stepGain s band _).of_next h
  | eqStepDn band => exact (keepsAllButEq_stepGain s band _).of_next h
  | eqFlat => exact (keepsAllButEq_flattenAll s).of_next h
  | eqGetGain | eqNBands | eqGetFreq | eqGetType | eqActive => exact (KeepsAllButEq.refl s).of_next h
  | eqProcess pin => exact keepsAllButEq_execEqProcess h

/-! ### What the FIFO reads -/

/-- Two states that agree on all the FIFO unit and the time base read: the unit's elements, NOW and the parameters. -/
structure FifoInputsAgree (s s' : State) : Prop where
  fifoMem : s'.fifoMem = s.fifoMem
  wrPos : s'.wrPos = s.wrPos
  rdPos : s'.rdPos = s.rdPos
  avail : s'.avail = s.avail
  session : s'.session = s.session
  eofFlag : s'.eofFlag = s.eofFlag
  eofCause : s'.eofCause = s.eofCause
  rxSeen : s'.rxSeen = s.rxSeen
  lastData : s'.lastData = s.lastData
  totalRx : s'.totalRx = s.totalRx
  now : s'.now = s.now
  cfg : s'.cfg = s.cfg

/-- The same FIFO unit, NOW and answer: what a FIFO or time transaction leaves alike. -/
def SameFifoAndAnswer (t t' : State) : Prop := t.SameFifo t' ∧ t'.now = t.now ∧ SameAnswer t t'

theorem FifoInputsAgree.of_sameFifo (h : s.SameFifo s') (hnow : s'.now = s.now) (hcfg : s'.cfg = s.cfg) :
    FifoInputsAgree s s' := by
  obtain ⟨hmem, hwr, hrd, havail, hsession, hflag, hcause, hseen, hlast, htotal⟩ := h
  exact ⟨hmem, hwr, hrd, havail, hsession, hflag, hcause, hseen, hlast, htotal, hnow, hcfg⟩

theorem FifoInputsAgree.sameFifo (h : FifoInputsAgree s s') : s.SameFifo s' :=
  ⟨h.fifoMem, h.wrPos, h.rdPos, h.avail, h.session, h.eofFlag, h.eofCause, h.rxSeen, h.lastData, h.totalRx⟩

/-- States that agree, answered alike. -/
theorem FifoInputsAgree.answer (h : FifoInputsAgree s s') (r : Word) (p : List Byte) :
    OutcomesAgree SameFifoAndAnswer (.next (s.answer r p)) (.next (s'.answer r p)) :=
  ⟨h.sameFifo, h.now, rfl, rfl⟩

/-- A query of the FIFO: its word is the same in states that agree. -/
theorem FifoInputsAgree.query (h : FifoInputsAgree s s') {r r' : Word} (hr : r' = r) :
    OutcomesAgree SameFifoAndAnswer (.next (s.answer r [])) (.next (s'.answer r' [])) := hr ▸ h.answer r' []

theorem FifoInputsAgree.withSession (h : FifoInputsAgree s s') (x : Session) :
    FifoInputsAgree { s with session := x } { s' with session := x } := { h with session := rfl }

theorem FifoInputsAgree.clearFifo (h : FifoInputsAgree s s') : FifoInputsAgree s.clearFifo s'.clearFifo where
  fifoMem := h.fifoMem
  wrPos := rfl
  rdPos := rfl
  avail := rfl
  session := h.session
  eofFlag := rfl
  eofCause := rfl
  rxSeen := rfl
  lastData := h.lastData
  totalRx := rfl
  now := h.now
  cfg := h.cfg

theorem FifoInputsAgree.endOfStream (h : FifoInputsAgree s s') (c : EofCause) :
    FifoInputsAgree (s.endOfStream c) (s'.endOfStream c) := by
  unfold State.endOfStream
  rw [h.session]
  split_ifs
  · exact { h with session := rfl, eofFlag := rfl, eofCause := rfl }
  · exact h

theorem FifoInputsAgree.free (h : FifoInputsAgree s s') : s'.free = s.free := by
  simp [State.free, h.cfg, h.avail]

theorem FifoInputsAgree.fifoWrite (h : FifoInputsAgree s s') (d : List Byte) :
    FifoInputsAgree (s.fifoWrite d) (s'.fifoWrite d) :=
  { h with
    fifoMem := by simp [h.fifoMem, h.cfg, h.wrPos, h.free]
    wrPos := by simp [h.cfg, h.wrPos, h.free]
    avail := by simp [h.avail, h.free] }

theorem FifoInputsAgree.receive (h : FifoInputsAgree s s') (d : List Byte) :
    FifoInputsAgree (s.receive d) (s'.receive d) :=
  { h.fifoWrite d with
    rxSeen := rfl
    lastData := h.now
    totalRx := by simp [h.totalRx] }

theorem FifoInputsAgree.fifoRead_data (h : FifoInputsAgree s s') (n : Nat) : (s'.fifoRead n).1 = (s.fifoRead n).1 := by
  simp [h.cfg, h.fifoMem, h.rdPos, h.avail]

theorem FifoInputsAgree.fifoRead (h : FifoInputsAgree s s') (n : Nat) :
    FifoInputsAgree (s.fifoRead n).2 (s'.fifoRead n).2 :=
  { h with
    rdPos := by simp [h.cfg, h.rdPos, h.avail]
    avail := by simp [h.avail] }

theorem FifoInputsAgree.advance (h : FifoInputsAgree s s') (n : Nat) : FifoInputsAgree (s.advance n) (s'.advance n) :=
  { h with now := by simp [h.now] }

theorem FifoInputsAgree.chunkBytes (h : FifoInputsAgree s s') : s'.chunkBytes = s.chunkBytes := by
  simp [State.chunkBytes, h.avail, h.cfg]

theorem FifoInputsAgree.ready (h : FifoInputsAgree s s') : s'.ready = s.ready := by
  simp [State.ready, h.avail, h.cfg]

theorem FifoInputsAgree.receiving (h : FifoInputsAgree s s') : s'.receiving = s.receiving := by
  simp [State.receiving, h.rxSeen, h.now, h.lastData, h.cfg]

theorem FifoInputsAgree.stateWord (h : FifoInputsAgree s s') : s'.stateWord = s.stateWord := by
  simp [State.stateWord, h.session, h.eofCause]

theorem FifoInputsAgree.execFifoStart (h : FifoInputsAgree s s') :
    OutcomesAgree SameFifoAndAnswer (execFifoStart s) (execFifoStart s') := by
  unfold Machine.execFifoStart
  rw [h.session]
  split_ifs
  · exact h.answer 0 []
  · exact (h.clearFifo.withSession .running).answer 0 []

theorem FifoInputsAgree.execFifoStop (h : FifoInputsAgree s s') :
    OutcomesAgree SameFifoAndAnswer (execFifoStop s) (execFifoStop s') := by
  unfold Machine.execFifoStop
  rw [h.session]
  split_ifs
  · exact (h.withSession .stopped).answer 0 []
  · exact h.answer 0 []

theorem FifoInputsAgree.execFifoReset (h : FifoInputsAgree s s') :
    OutcomesAgree SameFifoAndAnswer (execFifoReset s) (execFifoReset s') := by
  unfold Machine.execFifoReset
  rw [h.session]
  split_ifs
  · exact h.clearFifo.answer 0 []
  · exact (h.clearFifo.withSession .idle).answer 0 []

/-- FIFO.EXTRACT: the same chunk is read, and the container is built from it alone. -/
theorem FifoInputsAgree.execFifoExtract (h : FifoInputsAgree s s') :
    OutcomesAgree SameFifoAndAnswer (execFifoExtract s) (execFifoExtract s') := by
  unfold Machine.execFifoExtract
  rw [h.chunkBytes]
  split_ifs
  · exact h.answer 0 []
  · show OutcomesAgree _ (.next ((s.fifoRead s.chunkBytes).2.answerChunk (s.fifoRead s.chunkBytes).1))
      (.next ((s'.fifoRead s.chunkBytes).2.answerChunk (s'.fifoRead s.chunkBytes).1))
    rw [h.fifoRead_data]
    exact (h.fifoRead s.chunkBytes).answer _ _

theorem FifoInputsAgree.execSrcRead (h : FifoInputsAgree s s') (pin : List Byte) :
    OutcomesAgree SameFifoAndAnswer (execSrcRead pin s) (execSrcRead pin s') := by
  unfold Machine.execSrcRead
  rw [h.session]
  split_ifs
  · exact h.answer 0 []
  · exact (h.endOfStream .closure).answer 0 []
  · exact (h.receive pin).answer 0 []

/-- A FIFO or time transaction's effect and answer are functions of what the FIFO unit and the time base read. -/
theorem FifoInputsAgree.exec (h : FifoInputsAgree s s') {i : Instr} (hi : isFifoInstr i = true) :
    OutcomesAgree SameFifoAndAnswer (exec i s) (exec i s') := by
  cases i, hi using fifoInstr_cases with
  | fifoStart => exact h.execFifoStart
  | fifoStop => exact h.execFifoStop
  | fifoReset => exact h.execFifoReset
  | fifoExtract => exact h.execFifoExtract
  | fifoReady => exact h.query (by rw [h.ready])
  | fifoEof => exact h.query (by rw [h.eofFlag])
  | fifoRecv => exact h.query (by rw [h.receiving])
  | fifoAvail => exact h.query h.avail
  | fifoTotalLo => exact h.query (by rw [h.totalRx])
  | fifoTotalHi => exact h.query (by rw [h.totalRx])
  | fifoState => exact h.query h.stateWord
  | fifoCap => exact h.query (by rw [h.cfg])
  | srcRead pin => exact h.execSrcRead pin
  | srcError => exact (h.endOfStream .readError).answer 0 []
  | srcOpenFail => exact (h.endOfStream .openFailure).answer 0 []
  | srcWouldBlock => exact h.answer 0 []
  | timeTick imm => exact (h.advance imm).answer 0 []

/-! ### What a FIFO or time transaction leaves alone -/

/-- The equalizer, CMD_ERR, the parameters and the pending transactions are the same. -/
def KeepsAllButFifo (s t : State) : Prop := s.SameEq t ∧ t.cmdErr = s.cmdErr ∧ s.SameEnv t

theorem KeepsAllButFifo.refl (s : State) : KeepsAllButFifo s s := ⟨⟨rfl, rfl, rfl, rfl, rfl⟩, rfl, rfl, rfl⟩

theorem KeepsAllButFifo.of_next (hu : KeepsAllButFifo s u) {r : Word} {p : List Byte}
    (h : (.next (u.answer r p) : Host.Outcome State Fault Refusal) = .next t) : KeepsAllButFifo s t := by
  cases h; exact hu

theorem keepsAllButFifo_clearFifo (s : State) : KeepsAllButFifo s s.clearFifo := KeepsAllButFifo.refl s

theorem keepsAllButFifo_withSession (s : State) (x : Session) : KeepsAllButFifo s { s with session := x } :=
  KeepsAllButFifo.refl s

theorem keepsAllButFifo_clearFifo_withSession (s : State) (x : Session) :
    KeepsAllButFifo s { s.clearFifo with session := x } := KeepsAllButFifo.refl s

theorem keepsAllButFifo_fifoRead (s : State) (n : Nat) : KeepsAllButFifo s (s.fifoRead n).2 := KeepsAllButFifo.refl s

theorem keepsAllButFifo_receive (s : State) (d : List Byte) : KeepsAllButFifo s (s.receive d) := KeepsAllButFifo.refl s

theorem keepsAllButFifo_advance (s : State) (n : Nat) : KeepsAllButFifo s (s.advance n) := KeepsAllButFifo.refl s

theorem keepsAllButFifo_endOfStream (s : State) (c : EofCause) : KeepsAllButFifo s (s.endOfStream c) := by
  simp [KeepsAllButFifo, State.SameEq, State.SameEnv]

theorem keepsAllButFifo_execFifoStart (h : execFifoStart s = .next t) : KeepsAllButFifo s t := by
  unfold execFifoStart at h
  split_ifs at h
  · exact (KeepsAllButFifo.refl s).of_next h
  · exact (keepsAllButFifo_clearFifo_withSession s .running).of_next h

theorem keepsAllButFifo_execFifoStop (h : execFifoStop s = .next t) : KeepsAllButFifo s t := by
  unfold execFifoStop at h
  split_ifs at h
  · exact (keepsAllButFifo_withSession s .stopped).of_next h
  · exact (KeepsAllButFifo.refl s).of_next h

theorem keepsAllButFifo_execFifoReset (h : execFifoReset s = .next t) : KeepsAllButFifo s t := by
  unfold execFifoReset at h
  split_ifs at h
  · exact (keepsAllButFifo_clearFifo s).of_next h
  · exact (keepsAllButFifo_clearFifo_withSession s .idle).of_next h

theorem keepsAllButFifo_execFifoExtract (h : execFifoExtract s = .next t) : KeepsAllButFifo s t := by
  unfold execFifoExtract at h
  split_ifs at h
  · exact (KeepsAllButFifo.refl s).of_next h
  · exact (keepsAllButFifo_fifoRead s s.chunkBytes).of_next h

theorem keepsAllButFifo_execSrcRead {pin : List Byte} (h : execSrcRead pin s = .next t) : KeepsAllButFifo s t := by
  unfold execSrcRead at h
  split_ifs at h
  · exact (KeepsAllButFifo.refl s).of_next h
  · exact (keepsAllButFifo_endOfStream s .closure).of_next h
  · exact (keepsAllButFifo_receive s pin).of_next h

/-- A FIFO or time transaction leaves the equalizer, CMD_ERR, the parameters and the pending transactions alone. -/
theorem exec_fifo_keepsAllButFifo {i : Instr} (hi : isFifoInstr i = true) (h : exec i s = .next t) :
    KeepsAllButFifo s t := by
  cases i, hi using fifoInstr_cases with
  | fifoStart => exact keepsAllButFifo_execFifoStart h
  | fifoStop => exact keepsAllButFifo_execFifoStop h
  | fifoReset => exact keepsAllButFifo_execFifoReset h
  | fifoExtract => exact keepsAllButFifo_execFifoExtract h
  | fifoReady | fifoEof | fifoRecv | fifoAvail | fifoTotalLo | fifoTotalHi | fifoState | fifoCap | srcWouldBlock =>
    exact (KeepsAllButFifo.refl s).of_next h
  | srcRead pin => exact keepsAllButFifo_execSrcRead h
  | srcError => exact (keepsAllButFifo_endOfStream s .readError).of_next h
  | srcOpenFail => exact (keepsAllButFifo_endOfStream s .openFailure).of_next h
  | timeTick imm => exact (keepsAllButFifo_advance s imm).of_next h

/-! ### The general transactions -/

/-- A general transaction leaves both units and NOW alone. -/
theorem exec_general_keepsUnits {i : Instr} (he : isEqualizerInstr i = false) (hf : isFifoInstr i = false)
    (h : exec i s = .next t) : s.SameEq t ∧ s.SameFifo t ∧ t.now = s.now := by
  obtain ⟨hfifo, hnow, -⟩ := KeepsAllButEq.refl s
  obtain ⟨heq, -⟩ := KeepsAllButFifo.refl s
  obtain rfl | rfl | rfl := generalInstr_cases he hf
  · cases h; exact ⟨heq, hfifo, hnow⟩
  · cases h; exact ⟨heq, hfifo, hnow⟩
  · cases h; exact ⟨heq, hfifo, hnow⟩

/-- Settles O38: for each unit, agreement on what it reads is kept by its own operations, and its frame holds the other
unit. -/
theorem unitsShareNoData : Obligations.UnitsShareNoData :=
  ⟨fun _ _ _ hi hs hrom => (EqInputsAgree.of_sameEq hs hrom).exec hi,
    fun _ _ _ => exec_equalizer_keepsAllButEq,
    fun _ _ _ hi hs hnow hcfg => (FifoInputsAgree.of_sameFifo hs hnow hcfg).exec hi,
    fun _ _ _ => exec_fifo_keepsAllButFifo,
    fun _ _ _ => exec_general_keepsUnits⟩

end Sys2Proof.Machine
end

-- Proofs: the REAL operations are correctly rounded (O26)
section
/-!
The REAL operations against the exact ones (R13): each packs a magnitude rounded once, which `F64.roundUnits_nearestEven`
places; the order of the patterns is that of the exact values; and an integer below 2^53 loses nothing in rounding.
-/

namespace Sys2Proof

/-! ### A sign and a rounded magnitude -/

@[simp] theorem F64.magBits_pack_roundUnits (neg : Bool) (n d : Nat) :
    F64.magBits (F64.pack neg (F64.roundUnits n d)) = F64.roundUnits n d := F64.magBits_pack neg (F64.roundUnits_lt n d)

@[simp] theorem F64.sign_pack_roundUnits (neg : Bool) (n d : Nat) :
    F64.sign (F64.pack neg (F64.roundUnits n d)) = neg := F64.sign_pack neg (F64.roundUnits_lt n d)

@[simp] theorem F64.unitsOf_zero : F64.unitsOf 0 = 0 := rfl

/-- Zero units round to the magnitude of zero. -/
theorem F64.roundUnits_zero {d : Nat} (hd : 0 < d) : F64.roundUnits 0 d = 0 := by
  simpa using F64.roundUnits_unitsOf (m := 0) (Nat.zero_le _) hd

/-- Only the magnitude of zero has no units. -/
theorem F64.unitsOf_pos {m : Nat} (h : 0 < m) : 0 < F64.unitsOf m := F64.unitsOf_lt h

/-- The patterns with a sign and the rounded magnitude of n / d units: the nearest to it, ties to even. -/
theorem F64.pack_roundUnits_spec (neg : Bool) (n : Nat) {d : Nat} (hd : 0 < d) :
    F64.NearestEven n d (F64.magBits (F64.pack neg (F64.roundUnits n d))) ∧
      F64.sign (F64.pack neg (F64.roundUnits n d)) = neg := by
  rw [F64.magBits_pack_roundUnits, F64.sign_pack_roundUnits]
  exact ⟨F64.roundUnits_nearestEven n hd, rfl⟩

/-! ### The four operations -/

variable {x y : F64}

theorem F64.add_correctlyRounded (hx : F64.isFinite x = true) (hy : F64.isFinite y = true) :
    F64.NearestEven (F64.num x + F64.num y).natAbs 1 (F64.magBits (F64.add x y)) ∧
      F64.sign (F64.add x y) =
        if F64.num x + F64.num y = 0 then F64.sign x && F64.sign y else decide (F64.num x + F64.num y < 0) := by
  rw [F64.add_finite hx hy]
  split_ifs with hz
  · rw [hz, ← F64.roundUnits_zero Nat.one_pos]
    exact F64.pack_roundUnits_spec _ 0 Nat.one_pos
  · exact F64.pack_roundUnits_spec _ _ Nat.one_pos

/-- A difference is the sum with the negated operand. -/
theorem F64.sub_correctlyRounded (hx : F64.isFinite x = true) (hy : F64.isFinite y = true) :
    F64.NearestEven (F64.num x - F64.num y).natAbs 1 (F64.magBits (F64.sub x y)) ∧
      F64.sign (F64.sub x y) =
        if F64.num x - F64.num y = 0 then F64.sign x && !F64.sign y else decide (F64.num x - F64.num y < 0) := by
  have h := F64.add_correctlyRounded hx ((F64.isFinite_neg y).trans hy)
  rwa [F64.num_neg, F64.sign_neg, ← sub_eq_add_neg] at h

theorem F64.mul_correctlyRounded (hx : F64.isFinite x = true) (hy : F64.isFinite y = true) :
    F64.NearestEven (F64.num x * F64.num y).natAbs F64.unitsPerOne (F64.magBits (F64.mul x y)) ∧
      F64.sign (F64.mul x y) = (F64.sign x != F64.sign y) := by
  rw [F64.mul_finite hx hy, Int.natAbs_mul, F64.natAbs_num, F64.natAbs_num]
  exact F64.pack_roundUnits_spec _ _ F64.unitsPerOne_pos

/-- A divisor that is not zero has a magnitude that is not zero. -/
theorem F64.magBits_pos (hy : F64.num y ≠ 0) : 0 < F64.magBits y := by
  refine Nat.pos_of_ne_zero fun h0 => hy ?_
  rw [← Int.natAbs_eq_zero, F64.natAbs_num, h0, F64.unitsOf_zero]

/-- A quotient of finite values by one that is not zero: the exact quotient, rounded once. -/
theorem F64.div_finite (hx : F64.isFinite x = true) (hy : F64.isFinite y = true) (h0 : F64.num y ≠ 0) :
    F64.div x y = F64.pack (F64.sign x != F64.sign y)
      (F64.roundUnits (F64.unitsOf (F64.magBits x) * F64.unitsPerOne) (F64.unitsOf (F64.magBits y))) := by
  obtain ⟨hxn, hxi⟩ := (F64.isFinite_iff x).1 hx
  obtain ⟨hyn, hyi⟩ := (F64.isFinite_iff y).1 hy
  have hyz : F64.isZero y = false := decide_eq_false (F64.magBits_pos h0).ne'
  simp only [F64.div, hxn, hxi, hyn, hyi, hyz, Bool.or_self, Bool.false_eq_true, if_false]

theorem F64.div_correctlyRounded (hx : F64.isFinite x = true) (hy : F64.isFinite y = true) (h0 : F64.num y ≠ 0) :
    F64.NearestEven ((F64.num x).natAbs * F64.unitsPerOne) (F64.num y).natAbs (F64.magBits (F64.div x y)) ∧
      F64.sign (F64.div x y) = (F64.sign x != F64.sign y) := by
  rw [F64.div_finite hx hy h0, F64.natAbs_num, F64.natAbs_num]
  exact F64.pack_roundUnits_spec _ _ (F64.unitsOf_pos (F64.magBits_pos h0))

/-! ### Comparison -/

/-- The order of the patterns is the order of the exact values: magnitudes compare as their units do, and both zeros
are one value. -/
theorem F64.key_lt_key_iff (x y : F64) : F64.key x < F64.key y ↔ F64.num x < F64.num y := by
  have hmono : StrictMono F64.unitsOf := fun _ _ => F64.unitsOf_lt
  have hxy := hmono.lt_iff_lt (a := F64.magBits x) (b := F64.magBits y)
  have hyx := hmono.lt_iff_lt (a := F64.magBits y) (b := F64.magBits x)
  have hx := hmono.lt_iff_lt (a := 0) (b := F64.magBits x)
  have hy := hmono.lt_iff_lt (a := 0) (b := F64.magBits y)
  rw [F64.unitsOf_zero] at hx hy
  unfold F64.key F64.num
  split_ifs <;> omega

theorem F64.lt_iff_num_lt (hx : F64.isFinite x = true) (hy : F64.isFinite y = true) :
    F64.lt x y = true ↔ F64.num x < F64.num y := by
  simp [F64.lt, F64.isNaN_of_isFinite hx, F64.isNaN_of_isFinite hy, F64.key_lt_key_iff]

theorem F64.le_iff_num_le (hx : F64.isFinite x = true) (hy : F64.isFinite y = true) :
    F64.le x y = true ↔ F64.num x ≤ F64.num y := by
  have h := not_congr (F64.key_lt_key_iff y x)
  rw [not_lt, not_lt] at h
  simp [F64.le, F64.isNaN_of_isFinite hx, F64.isNaN_of_isFinite hy, h]

/-! ### Integers -/

/-- A whole number of last places is rounded to itself. -/
theorem F64.unitsOf_encodeUnits_of_dvd {n : Nat} (h : 2 ^ F64.shiftOf n ∣ n) :
    F64.unitsOf (F64.encodeUnits n 1) = n := by
  obtain ⟨sig, hsig⟩ := h
  rw [F64.unitsOf_encodeUnits, Nat.div_one, Nat.one_mul]
  generalize F64.shiftOf n = shift at hsig ⊢
  rw [hsig, Nat.mul_comm (2 ^ shift) sig, roundHalfEven_mul sig (Nat.two_pow_pos shift)]

/-- A number below 2^(53 + e) units has a last place of at most 2^e units. -/
theorem F64.shiftOf_le {n e : Nat} (h : n < 2 ^ (53 + e)) : F64.shiftOf n ≤ e := by
  unfold F64.shiftOf
  rcases Nat.eq_zero_or_pos n with rfl | hn
  · simp
  · have := (Nat.log2_lt hn.ne').2 h
    omega

theorem mul_two_pow_lt {k b : Nat} (hk : k < 2 ^ b) (e : Nat) : k * 2 ^ e < 2 ^ (b + e) := by
  rw [pow_add]
  exact Nat.mul_lt_mul_of_pos_right hk (Nat.two_pow_pos e)

/-- A natural below 2^53 is a representable magnitude. -/
theorem F64.unitsOf_roundUnits_natCast {k : Nat} (hk : k < 2 ^ 53) :
    F64.roundUnits (k * F64.unitsPerOne) 1 < F64.infBits ∧
      F64.unitsOf (F64.roundUnits (k * F64.unitsPerOne) 1) = k * F64.unitsPerOne := by
  rw [F64.unitsPerOne_eq]
  have hlt : k * 2 ^ 1074 < 2 ^ (53 + 1074) := mul_two_pow_lt hk 1074
  have hfin : F64.encodeUnits (k * 2 ^ 1074) 1 < F64.infBits := by
    refine F64.encodeUnits_lt_inf Nat.one_pos ?_
    rw [Nat.mul_one]
    exact hlt.le.trans (Nat.pow_le_pow_right (by norm_num) (by norm_num))
  have hdvd : 2 ^ F64.shiftOf (k * 2 ^ 1074) ∣ k * 2 ^ 1074 :=
    (pow_dvd_pow 2 (F64.shiftOf_le hlt)).trans (Nat.dvd_mul_left _ k)
  rw [F64.roundUnits_eq, Nat.min_eq_left hfin.le]
  exact ⟨hfin, F64.unitsOf_encodeUnits_of_dvd hdvd⟩

/-- `real(n)` is exact for |n| < 2^53 (R13). -/
theorem F64.ofInt_exact {n : Int} (hn : n.natAbs < 2 ^ 53) :
    F64.isFinite (F64.ofInt n) = true ∧ F64.num (F64.ofInt n) = n * F64.unitsPerOne ∧
      F64.sign (F64.ofInt n) = decide (n < 0) := by
  obtain ⟨hfin, hunits⟩ := F64.unitsOf_roundUnits_natCast hn
  unfold F64.ofInt
  refine ⟨F64.isFinite_pack _ hfin, ?_, F64.sign_pack_roundUnits _ _ _⟩
  rw [F64.num, F64.sign_pack_roundUnits, F64.magBits_pack_roundUnits, hunits, Nat.cast_mul]
  by_cases hneg : n < 0
  · rw [if_pos (decide_eq_true hneg), Int.ofNat_natAbs_of_nonpos hneg.le, neg_mul, neg_neg]
  · rw [if_neg (by simpa using hneg), Int.natAbs_of_nonneg (not_lt.1 hneg)]

/-- Settles O26: each operation packs one correctly rounded magnitude with its sign, and the patterns are ordered as the
values are. -/
theorem realOperationsAreCorrectlyRounded : Obligations.RealOperationsAreCorrectlyRounded :=
  ⟨fun _ _ hx hy => ⟨F64.add_correctlyRounded hx hy, F64.sub_correctlyRounded hx hy, F64.mul_correctlyRounded hx hy,
      F64.div_correctlyRounded hx hy, F64.lt_iff_num_lt hx hy, F64.le_iff_num_le hx hy⟩,
    fun _ => F64.ofInt_exact⟩

end Sys2Proof
end

-- Proofs: what a completed transaction can write
section
/-!
What a completed transaction can write, said once. `Effect s i u` is the inversion of `exec`: the state `u` that
instruction `i` answers from, for each group of writers in R58's table. Every invariant is then a case split on it, and
`step_keeps` carries it over to a step.
-/

namespace Sys2Proof.Machine

open Sys2Proof

variable {s t u : State} {i : Instr}

/-! ### Gain changes (R184) -/

/-- One gain change, to a gain in range. -/
def ChangesGain (s t : State) : Prop := ∃ b g, (-12 ≤ g ∧ g ≤ 12) ∧ t = s.changeGain b g

/-- Any number of gain changes. -/
abbrev ChangesGains : State → State → Prop := Relation.ReflTransGen ChangesGain

theorem changesGains_setBandGain (s : State) (b : Band) (v : Int) : ChangesGains s (s.setBandGain b v) := by
  obtain ⟨-, h⟩ | ⟨-, h⟩ := s.setBandGain_cases b v
  · rw [h]
  · rw [h]; exact .single ⟨b, clampGain v, clampGain_range v, rfl⟩

theorem changesGains_setGain (s : State) (band : Nat) (v : Int) : ChangesGains s (s.setGain band v) := by
  obtain ⟨-, h⟩ | ⟨b, -, h⟩ := s.setGain_cases band v
  · rw [h]
  · rw [h]; exact changesGains_setBandGain s b v

theorem changesGains_stepGain (s : State) (band : Nat) (d : Int) : ChangesGains s (s.stepGain band d) := by
  obtain ⟨-, h⟩ | ⟨b, -, h⟩ := s.stepGain_cases band d
  · rw [h]
  · rw [h]; exact changesGains_setBandGain s b _

theorem changesGains_foldl_setBandGain (v : Int) : ∀ (bands : List Band) (s : State),
    ChangesGains s (bands.foldl (fun t b => t.setBandGain b v) s)
  | [], _ => .refl
  | b :: bands, s => (changesGains_setBandGain s b v).trans (changesGains_foldl_setBandGain v bands _)

theorem changesGains_flattenAll (s : State) : ChangesGains s s.flattenAll := changesGains_foldl_setBandGain 0 Band.all s

/-- What one gain change keeps, any number keeps. -/
theorem ChangesGains.keeps {P : State → Prop} (h : ChangesGains s u) (hs : P s)
    (hP : ∀ (s : State) (b : Band) (g : Int), -12 ≤ g ∧ g ≤ 12 → P s → P (s.changeGain b g)) : P u := by
  induction h with
  | refl => exact hs
  | tail _ hstep ih =>
    obtain ⟨b, g, hg, rfl⟩ := hstep
    exact hP _ b g hg ih

/-! ### The effect of a completed transaction (R58) -/

/-- `Effect s i u`: `i` may answer from `u` when it runs in `s`. -/
inductive Effect (s : State) : Instr → State → Prop
  /-- Nothing is written: queries, and every transaction in the cases where it has no effect. -/
  | same {i : Instr} : Effect s i s
  | clrErr : Effect s .clrErr s.clearCmdErr
  | eqInit : Effect s .eqInit s.initEq
  | eqDetach : Effect s .eqDetach s.detachEq
  | gains {i : Instr} {u : State} : setsGain i = true → ChangesGains s u → Effect s i u
  | process {pin out : List Byte} {hs : Hists} :
      filterBuffer s pin s.hist = .ok (out, hs) → Effect s (.eqProcess pin) { s with hist := hs }
  | start : s.session ≠ .running → Effect s .fifoStart { s.clearFifo with session := .running }
  | stop : s.session = .running ∨ s.session = .eof → Effect s .fifoStop { s with session := .stopped }
  | clear : s.session = .running → Effect s .fifoReset s.clearFifo
  | clearToIdle : s.session ≠ .running → Effect s .fifoReset { s.clearFifo with session := .idle }
  | extract : Effect s .fifoExtract (s.fifoRead s.chunkBytes).2
  | receive (pin : List Byte) : s.session = .running → Effect s (.srcRead pin) (s.receive pin)
  | endOfStream {i : Instr} : s.session = .running → causeOf i ≠ .none →
      Effect s i { s with session := .eof, eofFlag := true, eofCause := causeOf i }
  | advance (ticks : Nat) : Effect s (.timeTick ticks) (s.advance ticks)

/-- `t` is the answer of a completed `i` from one of its effects. -/
def AnswersFrom (s : State) (i : Instr) (t : State) : Prop := ∃ u r p, Effect s i u ∧ t = u.answer r p

theorem Effect.of_next (hu : Effect s i u) {r : Word} {p : List Byte}
    (h : (.next (u.answer r p) : Host.Outcome State Fault Refusal) = .next t) : AnswersFrom s i t := by
  cases h; exact ⟨u, r, p, hu, rfl⟩

/-- An end condition with the cause that R302 records for the instruction. -/
theorem effect_endOfStream (s : State) (hi : causeOf i ≠ .none) : Effect s i (s.endOfStream (causeOf i)) := by
  by_cases h : s.session = .running
  · rw [State.endOfStream_running h]; exact .endOfStream h hi
  · rw [State.endOfStream_not_running h]; exact .same

theorem answersFrom_execEqProcess {pin : List Byte} (h : execEqProcess pin s = .next t) :
    AnswersFrom s (.eqProcess pin) t := by
  obtain ⟨-, rfl⟩ | ⟨-, out, hs, hf, rfl⟩ := execEqProcess_next h
  · exact ⟨s, _, _, .same, rfl⟩
  · exact ⟨_, _, _, .process hf, rfl⟩

theorem answersFrom_execFifoStart (h : execFifoStart s = .next t) : AnswersFrom s .fifoStart t := by
  unfold execFifoStart at h
  split_ifs at h with hrun
  · exact Effect.same.of_next h
  · exact (Effect.start hrun).of_next h

theorem answersFrom_execFifoStop (h : execFifoStop s = .next t) : AnswersFrom s .fifoStop t := by
  unfold execFifoStop at h
  split_ifs at h with hopen
  · exact (Effect.stop hopen).of_next h
  · exact Effect.same.of_next h

theorem answersFrom_execFifoReset (h : execFifoReset s = .next t) : AnswersFrom s .fifoReset t := by
  unfold execFifoReset at h
  split_ifs at h with hrun
  · exact (Effect.clear hrun).of_next h
  · exact (Effect.clearToIdle hrun).of_next h

theorem answersFrom_execFifoExtract (h : execFifoExtract s = .next t) : AnswersFrom s .fifoExtract t := by
  unfold execFifoExtract at h
  split_ifs at h
  · exact Effect.same.of_next h
  · exact Effect.extract.of_next h

theorem answersFrom_execSrcRead {pin : List Byte} (h : execSrcRead pin s = .next t) :
    AnswersFrom s (.srcRead pin) t := by
  unfold execSrcRead at h
  split_ifs at h with hrun hempty
  · exact Effect.same.of_next h
  · obtain rfl := List.isEmpty_iff.1 hempty
    exact (effect_endOfStream s (i := .srcRead []) nofun).of_next h
  · exact (Effect.receive pin (not_not.1 hrun)).of_next h

/-- Every next state of every instruction is an answer from one of its effects. -/
theorem exec_answersFrom (h : exec i s = .next t) : AnswersFrom s i t := by
  cases i with
  | clrErr => exact Effect.clrErr.of_next h
  | eqInit => exact Effect.eqInit.of_next h
  | eqDetach => exact Effect.eqDetach.of_next h
  | eqSetGain band imm => exact (Effect.gains rfl (changesGains_setGain s band imm)).of_next h
  | eqStepUp band => exact (Effect.gains rfl (changesGains_stepGain s band _)).of_next h
  | eqStepDn band => exact (Effect.gains rfl (changesGains_stepGain s band _)).of_next h
  | eqFlat => exact (Effect.gains rfl (changesGains_flattenAll s)).of_next h
  | eqProcess pin => exact answersFrom_execEqProcess h
  | fifoStart => exact answersFrom_execFifoStart h
  | fifoStop => exact answersFrom_execFifoStop h
  | fifoReset => exact answersFrom_execFifoReset h
  | fifoExtract => exact answersFrom_execFifoExtract h
  | srcRead pin => exact answersFrom_execSrcRead h
  | srcError => exact (effect_endOfStream s (i := .srcError) nofun).of_next h
  | srcOpenFail => exact (effect_endOfStream s (i := .srcOpenFail) nofun).of_next h
  | timeTick ticks => exact (Effect.advance ticks).of_next h
  | nop | getStatus | eqGetGain | eqNBands | eqGetFreq | eqGetType | eqActive | fifoReady | fifoEof | fifoRecv
  | fifoAvail | fifoTotalLo | fifoTotalHi | fifoState | fifoCap | srcWouldBlock => exact Effect.same.of_next h

/-- A property that reads neither CMD_ERR nor what stands at the block's boundary (the pending transactions and the
answer), and that every effect keeps, is kept by every step. -/
theorem step_keeps {P : State → Prop}
    (hboundary : ∀ (s : State) (err : Bool) (ts : List Transaction) (r : Word) (p : List Byte), P s →
      P { s with cmdErr := err, pending := ts, res := r, pout := p })
    (heffect : ∀ {s : State} {i : Instr} {u : State}, Effect s i u → P s → P u)
    (hs : P s) (h : step s = .next t) : P t := by
  obtain ⟨-, hn⟩ | ⟨tr, rest, -, ⟨e, -, hn⟩ | ⟨i, -, hn⟩⟩ := step_cases s
  · rw [hn] at h; cases h; exact hs
  · rw [hn] at h; cases h; exact hboundary s true rest 0 [] hs
  · rw [hn] at h
    obtain ⟨u, r, p, hu, rfl⟩ := exec_answersFrom h
    exact hboundary u u.cmdErr u.pending r p (heffect hu (hboundary s s.cmdErr rest s.res s.pout hs))

end Sys2Proof.Machine
end

-- Proofs: the writers of each state element (O39)
section
/-!
The writers of each state element (10_state.md R58): an effect leaves alone every element its instruction is not listed
for.
-/

namespace Sys2Proof.Machine

open Sys2Proof

variable {s t u : State} {e : Element} {i : Instr}

theorem Element.Same.refl (e : Element) (s : State) : e.Same s s := by
  cases e with
  | fifoMem => exact fun _ => rfl
  | eofFlagCause => exact ⟨rfl, rfl⟩
  | _ => rfl

/-! ### The writers as the table lists them -/

/-- A gain-setting instruction is listed for GAIN, COEF, HIST and UNDEF, and for nothing else. -/
theorem writtenBy_of_setsGain (hi : setsGain i = true) (e : Element) :
    e.writtenBy i = true ↔ e = .gain ∨ e = .coef ∨ e = .hist ∨ e = .undef := by
  cases i with
  | eqSetGain | eqStepUp | eqStepDn | eqFlat => cases e <;> simp [Element.writtenBy, setsGain]
  | _ => cases hi

/-- An instruction that can end a session is listed for SESSION and for EOF_FLAG with EOF_CAUSE. -/
theorem writtenBy_of_causeOf (hi : causeOf i ≠ .none) :
    Element.writtenBy .session i = true ∧ Element.writtenBy .eofFlagCause i = true := by
  cases i with
  | srcRead | srcError | srcOpenFail => simp [Element.writtenBy]
  | _ => exact absurd rfl hi

/-! ### What a gain change leaves alone -/

theorem changeGain_same (he : ¬(e = .gain ∨ e = .coef ∨ e = .hist ∨ e = .undef)) (s t : State) (b : Band) (g : Int)
    (h : e.Same s t) : e.Same s (t.changeGain b g) := by
  cases e with
  | gain | coef | hist | undef => simp at he
  | _ => exact h

/-- An effect leaves alone every element that its instruction is not listed for. -/
theorem Effect.same_of_not_writtenBy (h : Effect s i u) (hw : e.writtenBy i = false) : e.Same s u := by
  have hs := Element.Same.refl e s
  cases h with
  | same => exact hs
  | clrErr =>
    cases e with
    | cmdErr => cases hw
    | _ => exact hs
  | eqInit =>
    cases e with
    | gain | coef | hist | undef | attached => cases hw
    | _ => exact hs
  | eqDetach =>
    cases e with
    | undef | attached => cases hw
    | _ => exact hs
  | gains hi hg =>
    have he := (writtenBy_of_setsGain hi e).not.1 (by simp [hw])
    exact hg.keeps hs fun t b g _ => changeGain_same he s t b g
  | process hf =>
    cases e with
    | hist => cases hw
    | _ => exact hs
  | start hrun | clear hrun | clearToIdle hrun =>
    cases e with
    | wrPos | rdPos | avail | session | eofFlagCause | rxSeen | totalRx => cases hw
    | _ => exact hs
  | stop hopen =>
    cases e with
    | session => cases hw
    | _ => exact hs
  | extract =>
    cases e with
    | rdPos | avail => cases hw
    | _ => exact hs
  | receive pin hrun =>
    cases e with
    | fifoMem | wrPos | avail | rxSeen | lastData | totalRx => cases hw
    | _ => exact hs
  | endOfStream hrun hi =>
    obtain ⟨hsession, heof⟩ := writtenBy_of_causeOf hi
    cases e with
    | session => simp [hsession] at hw
    | eofFlagCause => simp [heof] at hw
    | _ => exact hs
  | advance ticks =>
    cases e with
    | now => cases hw
    | _ => exact hs

/-- No effect writes the parameters or the pending transactions. -/
theorem Effect.sameEnv (h : Effect s i u) : s.SameEnv u := by
  cases h with
  | gains _ hg => exact hg.keeps ⟨rfl, rfl⟩ fun _ _ _ _ h => h
  | _ => exact ⟨rfl, rfl⟩

theorem answer_same (h : e.Same s u) (r : Word) (p : List Byte) : e.Same s (u.answer r p) := by
  cases e <;> exact h

/-- CmdError writes CMD_ERR only (R401). -/
theorem raiseCmdError_same (he : e ≠ .cmdErr) (s : State) (ts : List Transaction) :
    e.Same s (State.raiseCmdError { s with pending := ts }) := by
  have hs := Element.Same.refl e s
  cases e with
  | cmdErr => exact absurd rfl he
  | _ => exact hs

theorem step_illegal {tr : Transaction} {rest : List Transaction} {x : Illegal} (hp : s.pending = tr :: rest)
    (hd : decode tr = .error x) : step s = .next (State.raiseCmdError { s with pending := rest }) := by
  simp [step, State.takeTransaction, hp, hd]

/-! ### Bands whose gain is left (R184) -/

theorem SameBand.refl (b : Band) (s : State) : SameBand b s s := ⟨rfl, rfl, rfl, rfl⟩

/-- SetGain changes nothing in a band whose gain it leaves: a gain that is held already writes nothing, and the writes of
a gain change are to the band that changes. -/
theorem setBandGain_sameBand {b b' : Band} {v : Int} (h : (s.setBandGain b' v).gain.get b = s.gain.get b) :
    SameBand b s (s.setBandGain b' v) := by
  obtain ⟨-, hk⟩ | ⟨hne, hk⟩ := s.setBandGain_cases b' v
  · rw [hk]; exact SameBand.refl b s
  · rw [hk] at h ⊢
    by_cases hb : b = b'
    · subst hb
      refine absurd ?_ hne
      rw [← h, State.changeGain_gain, PerBand.get_set_same, gain_field_toInt (clampGain_range v)]
    · simp [SameBand, hb]

theorem setGain_sameBand {b : Band} {band : Nat} {v : Int} (h : (s.setGain band v).gain.get b = s.gain.get b) :
    SameBand b s (s.setGain band v) := by
  obtain ⟨-, hk⟩ | ⟨b', -, hk⟩ := s.setGain_cases band v
  · rw [hk]; exact SameBand.refl b s
  · rw [hk] at h ⊢; exact setBandGain_sameBand h

theorem stepGain_sameBand {b : Band} {band : Nat} {d : Int} (h : (s.stepGain band d).gain.get b = s.gain.get b) :
    SameBand b s (s.stepGain band d) := by
  obtain ⟨-, hk⟩ | ⟨b', -, hk⟩ := s.stepGain_cases band d
  · rw [hk]; exact SameBand.refl b s
  · rw [hk] at h ⊢; exact setBandGain_sameBand h

/-- EQ.FLAT leaves a band's gain only where it was 0 already. -/
theorem flattenAll_sameBand {b : Band} (h : s.flattenAll.gain.get b = s.gain.get b) : SameBand b s s.flattenAll := by
  obtain ⟨hflat, hkept, -⟩ := s.flattenAll_spec b
  exact hkept (h.symm.trans hflat)

/-- The answer is no band's element. -/
theorem sameBand_of_next {b : Band} (hu : u.gain.get b = s.gain.get b → SameBand b s u) {r : Word} {p : List Byte}
    (h : (.next (u.answer r p) : Host.Outcome State Fault Refusal) = .next t) (hg : t.gain.get b = s.gain.get b) :
    SameBand b s t := by
  cases h; exact hu hg

/-- COEF, HIST and UNDEF of a band follow a gain-setting transaction only when it changes that band's gain. -/
theorem exec_setsGain_sameBand {b : Band} (hi : setsGain i = true) (h : exec i s = .next t)
    (hg : t.gain.get b = s.gain.get b) : SameBand b s t := by
  cases i with
  | eqSetGain band imm => exact sameBand_of_next setGain_sameBand h hg
  | eqStepUp band => exact sameBand_of_next stepGain_sameBand h hg
  | eqStepDn band => exact sameBand_of_next stepGain_sameBand h hg
  | eqFlat => exact sameBand_of_next flattenAll_sameBand h hg
  | _ => cases hi

theorem exec_same (hw : e.writtenBy i = false) (h : exec i s = .next t) : e.Same s t := by
  obtain ⟨u, r, p, hu, rfl⟩ := exec_answersFrom h
  exact answer_same (hu.same_of_not_writtenBy hw) r p

theorem exec_sameEnv (h : exec i s = .next t) : s.SameEnv t := by
  obtain ⟨u, r, p, hu, rfl⟩ := exec_answersFrom h
  exact hu.sameEnv

theorem step_illegal_same {tr : Transaction} {rest : List Transaction} {x : Illegal} (he : e ≠ .cmdErr)
    (hp : s.pending = tr :: rest) (hd : decode tr = .error x) (h : step s = .next t) : e.Same s t := by
  rw [step_illegal hp hd] at h
  cases h
  exact raiseCmdError_same he s rest

/-- Settles O39: by the effects of each instruction, and by what SetGain writes in a band. -/
theorem writersOfEachElement : Obligations.WritersOfEachElement :=
  ⟨fun _ _ _ _ => exec_same, fun _ _ _ _ => exec_setsGain_sameBand,
    fun _ _ _ _ _ _ => step_illegal_same, fun _ _ _ => exec_sameEnv⟩

end Sys2Proof.Machine
end

-- Proofs: the invariants that every step keeps (O35, O41)
section
/-!
The invariants that every step keeps (10_state.md R33, R40, R45 to R48; 41_eq_control.md R183; 42_eq_process.md R240,
R242): each is kept by every effect, and so by every step.
-/

namespace Sys2Proof.Machine

open Sys2Proof

variable {s u : State} {i : Instr}

theorem PerChannel.ext_get {α : Type} {p q : PerChannel α} (h : ∀ c, p.get c = q.get c) : p = q := by
  cases p; cases q
  exact congrArg₂ PerChannel.mk (h .c0) (h .c1)

/-! ### What EQ.PROCESS does to the histories (R232, R234) -/

/-- A property of the histories that the datapath keeps on each channel, for inputs that are samples, holds after a
buffer if it held before. -/
theorem filterBuffer_keeps {P : Hists → Prop}
    (hP : ∀ (c : Channel) (a b : Byte) (w : F64) (hs hs' : Hists),
      cascade s c Band.all (F64.ofInt (le16s a b)) hs = .ok (w, hs') → P hs → P hs') :
    ∀ {pin out : List Byte} {hs hs' : Hists}, filterBuffer s pin hs = .ok (out, hs') → P hs → P hs'
  | [], _, _, _, h, hp | [_], _, _, _, h, hp | [_, _], _, _, _, h, hp | [_, _, _], _, _, _, h, hp => by
    cases h; exact hp
  | a0 :: a1 :: b0 :: b1 :: rest, out, hs, hs', h, hp => by
    obtain ⟨o1, h1, o2, hframe, hrest, -⟩ := filterBuffer_cons_ok h
    obtain ⟨v, w, h0, hc0, hc1, -⟩ := filterFrame_ok hframe
    exact filterBuffer_keeps hP hrest (hP .c1 b0 b1 w h0 h1 hc1 (hP .c0 a0 a1 v hs h0 hc0 hp))

/-- A buffer leaves the histories of flat bands alone. -/
theorem filterBuffer_at_flat {pin out : List Byte} {hs hs' : Hists} (h : filterBuffer s pin hs = .ok (out, hs'))
    {b : Band} (hb : s.gain.get b = 0) (c : Channel) : hs'.at b c = hs.at b c := by
  refine filterBuffer_keeps (P := fun hs' => hs'.at b c = hs.at b c) ?_ h rfl
  intro c' x y w h0 h1 hc hp
  rw [cascade_at_other hc b c (.inr (.inl hb)), hp]

/-- No history value is NaN (R240). -/
def Hists.NoNaN (hs : Hists) : Prop := ∀ (b : Band) (c : Channel), (hs.at b c).noNaN = true

@[simp] theorem Hist.noNaN_iff (h : Hist) : h.noNaN = true ↔
    F64.isNaN h.x1 = false ∧ F64.isNaN h.x2 = false ∧ F64.isNaN h.y1 = false ∧ F64.isNaN h.y2 = false := by
  simp [Hist.noNaN, and_assoc]

theorem Hist.zero_noNaN : Hist.zero.noNaN = true := by decide

theorem Hists.NoNaN.put {hs : Hists} (h : hs.NoNaN) (b : Band) (c : Channel) {x : Hist} (hx : x.noNaN = true) :
    (hs.put b c x).NoNaN := by
  intro b' c'
  by_cases hbc : b' = b ∧ c' = c
  · obtain ⟨rfl, rfl⟩ := hbc; rw [Hists.at_put_same]; exact hx
  · rw [Hists.at_put_other hs x (not_and_or.1 hbc)]; exact h b' c'

/-- A band's filter shifts in its input and its output: with neither a NaN, no NaN enters its history. -/
theorem biquad_noNaN {k : Coef} {h : Hist} {v : F64} (hh : h.noNaN = true) (hv : F64.isNaN v = false)
    (hy : F64.isNaN (biquad k h v).1 = false) : (biquad k h v).2.noNaN = true := by
  rw [Hist.noNaN_iff] at hh ⊢
  obtain ⟨hx1, -, hy1, -⟩ := hh
  exact ⟨hv, hx1, hy, hy1⟩

/-- The cascade stops at a NaN, so it stores none (R240). -/
theorem cascade_noNaN {c : Channel} : ∀ {bs : List Band} {v w : F64} {hs hs' : Hists},
    cascade s c bs v hs = .ok (w, hs') → F64.isNaN v = false → hs.NoNaN → hs'.NoNaN
  | [], _, _, _, _, h, _, hn => by cases h; exact hn
  | b :: bs, v, w, hs, hs', h, hv, hn => by
    unfold cascade at h
    split_ifs at h with hflat hundef
    · exact cascade_noNaN h hv hn
    · dsimp only at h
      split_ifs at h with hy
      rw [Bool.not_eq_true] at hy
      exact cascade_noNaN h hy (hn.put b c (biquad_noNaN (hn b c) hv hy))

/-- A sample is no NaN: it is an exact 16-bit integer (R235). -/
theorem sample_noNaN (a b : Byte) : F64.isNaN (F64.ofInt (le16s a b)) = false := by
  have hlo := BitVec.le_toInt (BitVec.ofNat 16 (le16 a b))
  have hhi := BitVec.toInt_lt (x := BitVec.ofNat 16 (le16 a b))
  have hsmall : (le16s a b).natAbs < 2 ^ 53 := by unfold le16s; omega
  exact F64.isNaN_of_isFinite (F64.ofInt_exact hsmall).1

theorem filterBuffer_noNaN {pin out : List Byte} {hs hs' : Hists} (h : filterBuffer s pin hs = .ok (out, hs')) :
    hs.NoNaN → hs'.NoNaN :=
  filterBuffer_keeps (fun _ a b _ _ _ hc => cascade_noNaN hc (sample_noNaN a b)) h

/-! ### The equalizer's invariants -/

theorem Effect.gainsInRange (h : Effect s i u) (hs : s.GainsInRange) : u.GainsInRange := by
  cases h with
  | eqInit => exact fun b => by simp
  | gains _ hg =>
    refine hg.keeps hs fun t b g hrange ht b' => ?_
    rw [State.changeGain_gain, PerBand.get_set]
    split_ifs
    · rw [gain_field_toInt hrange]; exact hrange
    · exact ht b'
  | _ => exact hs

/-- COEF follows GAIN (R40): a gain change writes both from one gain in range, and EQ.DETACH undefines every band. -/
theorem Effect.coefFollowsGain (h : Effect s i u) (hs : s.CoefFollowsGain) : u.CoefFollowsGain := by
  cases h with
  | eqInit => exact fun b hb => absurd (by simp) hb
  | eqDetach => exact fun b _ hu => by simp at hu
  | gains _ hg =>
    refine hg.keeps hs fun t b g hrange ht b' => ?_
    by_cases hb : b' = b
    · subst hb; simp [gain_field_toInt hrange]
    · simpa [hb] using ht b'
  | _ => exact hs

theorem Effect.attachedDefined (h : Effect s i u) (hs : s.AttachedDefined) : u.AttachedDefined := by
  cases h with
  | eqInit => exact fun _ b => by simp
  | eqDetach => exact fun ha => by simp at ha
  | gains _ hg =>
    refine hg.keeps hs fun t b g _ ht ha b' => ?_
    rw [State.changeGain_undef, PerBand.get_set]
    split_ifs
    · rfl
    · exact ht ha b'
  | _ => exact hs

/-- Flat bands hold zero histories (R242): EQ.PROCESS passes them by, and a gain change zeroes what it writes. -/
theorem Effect.flatHistZero (h : Effect s i u) (hs : s.FlatHistZero) : u.FlatHistZero := by
  cases h with
  | eqInit => exact fun b _ => by simp
  | gains _ hg =>
    refine hg.keeps hs fun t b g _ ht b' => ?_
    by_cases hb : b' = b
    · subst hb; simp
    · simpa [hb] using ht b'
  | process hf =>
    intro b hb
    rw [← hs b hb]
    exact PerChannel.ext_get (filterBuffer_at_flat hf hb)
  | _ => exact hs

theorem Effect.histNoNaN (h : Effect s i u) (hs : s.HistNoNaN) : u.HistNoNaN := by
  cases h with
  | eqInit => exact fun b c => by rw [State.initEq_hist, Hists.at_zero]; exact Hist.zero_noNaN
  | gains _ hg =>
    refine hg.keeps hs fun t b g _ ht b' c => ?_
    by_cases hb : b' = b
    · subst hb; cases c <;> simp [Hists.at, zeroHists, PerChannel.get, Hist.zero_noNaN]
    · simpa [hb, Hists.at] using ht b' c
  | process hf => exact filterBuffer_noNaN hf hs
  | _ => exact hs

/-! ### The FIFO's invariants -/

/-- The ring relations (R45): the clear, FifoWrite and FifoRead keep them, and nothing else writes the ring. -/
theorem Effect.ringOk (h : Effect s i u) (hc : s.cfg.Valid) (hs : s.RingOk) : u.RingOk := by
  cases h with
  | gains _ hg => exact hg.keeps hs fun _ _ _ _ h => h
  | start | clear | clearToIdle => exact State.clearFifo_ringOk hc
  | extract => exact State.fifoRead_ringOk hc hs _
  | receive pin _ => exact State.fifoWrite_ringOk hc hs pin
  | _ => exact hs

theorem Effect.memoryOk (h : Effect s i u) (hc : s.cfg.Valid) (hs : s.MemoryOk) : u.MemoryOk := by
  cases h with
  | gains _ hg => exact hg.keeps hs fun _ _ _ _ h => h
  | receive pin _ => exact State.fifoWrite_memoryOk hc hs pin
  | _ => exact hs

/-- Flag, cause and session move together (R46 to R48): a clear resets flag and cause, an end condition sets both. -/
theorem Effect.eofCoherent (h : Effect s i u) (hs : s.EofCoherent) : u.EofCoherent := by
  cases h with
  | gains _ hg => exact hg.keeps hs fun _ _ _ _ h => h
  | start => exact ⟨by simp, nofun, fun _ => rfl⟩
  | clear hrun => exact ⟨by simp, fun heof => by simp [hrun] at heof, fun _ => rfl⟩
  | clearToIdle => exact ⟨by simp, nofun, fun _ => rfl⟩
  | stop =>
    obtain ⟨hcause, -, -⟩ := hs
    exact ⟨hcause, nofun, nofun⟩
  | endOfStream _ hi => exact ⟨by simpa using hi, fun _ => rfl, nofun⟩
  | _ => exact hs

/-- An idle FIFO is empty (R46, R306): IDLE is entered by a clear, and what data transactions could do is shut out. -/
theorem Effect.idleEmpty (h : Effect s i u) (hs : s.IdleEmpty) : u.IdleEmpty := by
  cases h with
  | gains _ hg => exact hg.keeps hs fun _ _ _ _ h => h
  | start => exact nofun
  | clear | clearToIdle => exact fun _ => ⟨rfl, rfl, rfl⟩
  | stop => exact nofun
  | extract =>
    intro hidle
    obtain ⟨havail, hrx, htotal⟩ := hs hidle
    exact ⟨by simp [havail], hrx, htotal⟩
  | receive pin hrun => exact fun hidle => by simp [State.receive, hrun] at hidle
  | endOfStream => exact nofun
  | _ => exact hs

/-! ### The whole invariant -/

theorem Effect.inv (h : Effect s i u) (hs : s.Inv) : u.Inv where
  cfg := h.sameEnv.1 ▸ hs.cfg
  gains := h.gainsInRange hs.gains
  ring := h.ringOk hs.cfg hs.ring
  memory := h.memoryOk hs.cfg hs.memory
  coefs := h.coefFollowsGain hs.coefs
  defined := h.attachedDefined hs.defined
  eof := h.eofCoherent hs.eof
  idle := h.idleEmpty hs.idle
  flat := h.flatHistZero hs.flat
  noNaN := h.histNoNaN hs.noNaN

/-- Settles O35: each clause is kept by every effect, and none reads CMD_ERR or the boundary. -/
theorem invariantKeptByEveryStep : Obligations.InvariantKeptByEveryStep :=
  fun _ _ => step_keeps
    (fun _ _ _ _ _ h => ⟨h.cfg, h.gains, h.ring, h.memory, h.coefs, h.defined, h.eof, h.idle, h.flat, h.noNaN⟩)
    Effect.inv

/-- Settles O41: the ring relations with the parameters' constraints, which no effect writes. -/
theorem ringInvariantKept : Obligations.RingInvariantKept := fun _ _ hc hr hstep =>
  (step_keeps (P := fun s => s.cfg.Valid ∧ s.RingOk) (fun _ _ _ _ _ h => h)
    (fun h ⟨hc, hr⟩ => ⟨h.sameEnv.1 ▸ hc, h.ringOk hc hr⟩) ⟨hc, hr⟩ hstep).2

end Sys2Proof.Machine
end

-- Proofs: the status word (O11)
section
/-!
The status word (10_state.md R56), bit by bit: the flags are the bits of the word at their places, and the two codes its
fields.
-/

namespace Sys2Proof.Machine

open Sys2Proof

/-- A boolean word has its value in bit 0 and no other bit. -/
@[simp] theorem getLsbD_ofBool (b : Bool) (i : Nat) : (Word.ofBool b).getLsbD i = (decide (i = 0) && b) := by
  cases b <;> cases i <;> simp [Word.ofBool]

/-- The layout of R56: the flag, or the bit of a code, that stands at a place of the word. -/
def State.statusBit (s : State) : Nat → Bool
  | 0 => s.attached
  | 1 => s.eqActive
  | 2 => s.eofFlag
  | 3 => s.receiving
  | 4 => s.ready
  | 5 => s.session.code.getLsbD 0
  | 6 => s.session.code.getLsbD 1
  | 7 => s.eofCause.code.getLsbD 0
  | 8 => s.eofCause.code.getLsbD 1
  | 9 => s.eofCause.code.getLsbD 2
  | 10 => s.cmdErr
  | _ + 11 => false

theorem State.statusWord_getLsbD (s : State) (i : Nat) : s.statusWord.getLsbD i = s.statusBit i := by
  match i with
  | _ + 11 => simp [State.statusWord, State.statusBit]
  | 0 | 1 | 2 | 3 | 4 | 5 | 6 | 7 | 8 | 9 | 10 =>
    simp [State.statusWord, State.statusBit, -BitVec.getLsbD_eq_getElem]

/-- Bits 6:5 are the session code. -/
theorem State.statusWord_session (s : State) : s.statusWord.toNat / 2 ^ 5 % 4 = s.session.code.toNat := by
  have hfield : s.statusWord.extractLsb' 5 2 = s.session.code := by
    refine BitVec.eq_of_getLsbD_eq fun i hi => ?_
    rw [BitVec.getLsbD_extractLsb', State.statusWord_getLsbD]
    interval_cases i <;> simp [State.statusBit]
  rw [← hfield, BitVec.extractLsb'_toNat, Nat.shiftRight_eq_div_pow]

/-- Bits 9:7 are the cause code. -/
theorem State.statusWord_eofCause (s : State) : s.statusWord.toNat / 2 ^ 7 % 8 = s.eofCause.code.toNat := by
  have hfield : s.statusWord.extractLsb' 7 3 = s.eofCause.code := by
    refine BitVec.eq_of_getLsbD_eq fun i hi => ?_
    rw [BitVec.getLsbD_extractLsb', State.statusWord_getLsbD]
    interval_cases i <;> simp [State.statusBit]
  rw [← hfield, BitVec.extractLsb'_toNat, Nat.shiftRight_eq_div_pow]

/-- The bits from 11 on are 0. -/
theorem State.statusWord_lt (s : State) : s.statusWord.toNat < 2 ^ 11 := by
  refine Nat.lt_pow_two_of_testBit _ fun i hi => ?_
  obtain ⟨n, rfl⟩ := Nat.exists_eq_add_of_le' hi
  rw [BitVec.testBit_toNat, State.statusWord_getLsbD]; rfl

theorem State.receiving_iff (s : State) :
    s.receiving = true ↔ s.rxSeen = true ∧ (s.now - s.lastData).toNat < 3 * s.cfg.ticksPerSecond := by
  rw [State.receiving, Bool.and_eq_true, decide_eq_true_eq]; rfl

theorem State.ready_iff (s : State) : s.ready = true ↔ s.cfg.prebufferBytes ≤ s.avail.toNat := by
  simp [State.ready]

/-- Settles O11: the answer is the status word, read off its bits and fields. -/
theorem statusWordBits : Obligations.StatusWordBits := by
  intro s
  have hbit := s.statusWord_getLsbD
  refine ⟨s.answer s.statusWord [], rfl, rfl, hbit 0, ?_, hbit 2, ?_, ?_, ?_, ?_, hbit 10, s.statusWord_lt⟩
  · rw [State.answer_res, hbit 1]; exact s.eqActive_iff
  · rw [State.answer_res, hbit 3]; exact s.receiving_iff
  · rw [State.answer_res, hbit 4]; exact s.ready_iff
  · rw [State.answer_res, s.statusWord_session]; cases s.session <;> rfl
  · rw [State.answer_res, s.statusWord_eofCause]; cases s.eofCause <;> rfl

end Sys2Proof.Machine
end

-- Proofs: COEF follows the gain (O32)
section
/-!
COEF follows GAIN (10_state.md R40), and a flat band's row is unobservable: states that differ only in such rows stay so
under every instruction, which answers them alike.
-/

namespace Sys2Proof.Machine

open Sys2Proof

variable {s s' : State} {i : Instr}

/-! ### What the equalizer's operations do to states that differ only in COEF of flat bands -/

/-- The second state is the first with another COEF, the same in every band that is not flat. -/
theorem sameButFlatCoef_iff : SameButFlatCoef s s' ↔
    ∃ k, s' = { s with coef := k } ∧ ∀ b : Band, s.gain.get b ≠ 0 → k.get b = s.coef.get b := by
  constructor
  · rintro ⟨hs, hcoef⟩; exact ⟨s'.coef, hs, hcoef⟩
  · rintro ⟨k, rfl, hk⟩; exact ⟨rfl, hk⟩

theorem SameButFlatCoef.gain (h : SameButFlatCoef s s') : s'.gain = s.gain := by
  obtain ⟨k, rfl, -⟩ := sameButFlatCoef_iff.1 h
  rfl

theorem SameButFlatCoef.answer (h : SameButFlatCoef s s') (r : Word) (p : List Byte) :
    OutcomesAgree SameButFlatCoef (.next (s.answer r p)) (.next (s'.answer r p)) := by
  obtain ⟨k, rfl, hk⟩ := sameButFlatCoef_iff.1 h
  exact ⟨rfl, hk⟩

/-- A query: its word is the same in both states. -/
theorem SameButFlatCoef.query (h : SameButFlatCoef s s') {r r' : Word} (hr : r' = r) :
    OutcomesAgree SameButFlatCoef (.next (s.answer r [])) (.next (s'.answer r' [])) := hr ▸ h.answer r' []

theorem SameButFlatCoef.clearCmdErr (h : SameButFlatCoef s s') : SameButFlatCoef s.clearCmdErr s'.clearCmdErr := by
  obtain ⟨k, rfl, hk⟩ := sameButFlatCoef_iff.1 h
  exact ⟨rfl, hk⟩

theorem SameButFlatCoef.initEq (h : SameButFlatCoef s s') : SameButFlatCoef s.initEq s'.initEq := by
  obtain ⟨k, rfl, -⟩ := sameButFlatCoef_iff.1 h
  exact ⟨rfl, fun _ _ => rfl⟩

theorem SameButFlatCoef.detachEq (h : SameButFlatCoef s s') : SameButFlatCoef s.detachEq s'.detachEq := by
  obtain ⟨k, rfl, hk⟩ := sameButFlatCoef_iff.1 h
  exact ⟨rfl, hk⟩

/-- A gain change writes the band's row in both states, and leaves the other bands' rows and gains. -/
theorem SameButFlatCoef.changeGain (h : SameButFlatCoef s s') (b : Band) (g : Int) :
    SameButFlatCoef (s.changeGain b g) (s'.changeGain b g) := by
  obtain ⟨k, rfl, hk⟩ := sameButFlatCoef_iff.1 h
  refine ⟨rfl, fun b' hb' => ?_⟩
  by_cases hb : b' = b
  · subst hb; simp
  · simp only [State.changeGain_gain, State.changeGain_coef, ne_eq, hb, not_false_eq_true,
      PerBand.get_set_other] at hb' ⊢
    exact hk b' hb'

theorem SameButFlatCoef.setBandGain (h : SameButFlatCoef s s') (b : Band) (v : Int) :
    SameButFlatCoef (s.setBandGain b v) (s'.setBandGain b v) := by
  unfold State.setBandGain
  rw [h.gain]
  split_ifs
  · exact h
  · exact h.changeGain b _

theorem SameButFlatCoef.setGain (h : SameButFlatCoef s s') (band : Nat) (v : Int) :
    SameButFlatCoef (s.setGain band v) (s'.setGain band v) := by
  unfold State.setGain
  split
  · exact h
  · exact h.setBandGain _ v

theorem SameButFlatCoef.stepGain (h : SameButFlatCoef s s') (band : Nat) (d : Int) :
    SameButFlatCoef (s.stepGain band d) (s'.stepGain band d) := by
  unfold State.stepGain
  rw [h.gain]
  split
  · exact h
  · exact h.setBandGain _ _

theorem SameButFlatCoef.foldl_setBandGain (v : Int) : ∀ (bands : List Band) {s s' : State}, SameButFlatCoef s s' →
    SameButFlatCoef (bands.foldl (fun t b => t.setBandGain b v) s) (bands.foldl (fun t b => t.setBandGain b v) s')
  | [], _, _, h => h
  | b :: bands, _, _, h => foldl_setBandGain v bands (h.setBandGain b v)

theorem SameButFlatCoef.flattenAll (h : SameButFlatCoef s s') : SameButFlatCoef s.flattenAll s'.flattenAll :=
  h.foldl_setBandGain 0 Band.all

theorem SameButFlatCoef.gainWord (h : SameButFlatCoef s s') : s'.gainWord = s.gainWord := by
  funext b; simp [State.gainWord, h.gain]

theorem SameButFlatCoef.eqActive (h : SameButFlatCoef s s') : s'.eqActive = s.eqActive := by
  simp [State.eqActive, h.gain]

theorem SameButFlatCoef.statusWord (h : SameButFlatCoef s s') : s'.statusWord = s.statusWord := by
  obtain ⟨k, rfl, -⟩ := sameButFlatCoef_iff.1 h
  rfl

/-- EQ.PROCESS reads no row of a flat band: the cascade passes it by (R232). -/
theorem SameButFlatCoef.execEqProcess (h : SameButFlatCoef s s') (pin : List Byte) :
    OutcomesAgree SameButFlatCoef (execEqProcess pin s) (execEqProcess pin s') := by
  obtain ⟨k, rfl, hk⟩ := sameButFlatCoef_iff.1 h
  have hbuffer : filterBuffer { s with coef := k } pin s.hist = filterBuffer s pin s.hist :=
    filterBuffer_congr (s := s) (s' := { s with coef := k }) rfl rfl hk pin s.hist
  cases hp : (s.attached && s.eqActive) with
  | false =>
    rw [execEqProcess_pass hp, execEqProcess_pass (s := { s with coef := k }) hp]
    exact h.answer 0 pin
  | true =>
    rw [execEqProcess_filter hp, execEqProcess_filter (s := { s with coef := k }) hp, processBuffer, processBuffer,
      hbuffer]
    cases filterBuffer s pin s.hist with
    | error f => rfl
    | ok r => exact ⟨rfl, hk⟩

/-! ### The instructions, by unit -/

theorem SameButFlatCoef.exec_equalizer (h : SameButFlatCoef s s') (hi : isEqualizerInstr i = true) :
    OutcomesAgree SameButFlatCoef (exec i s) (exec i s') := by
  cases i, hi using equalizerInstr_cases with
  | eqInit => exact h.initEq.answer 0 []
  | eqDetach => exact h.detachEq.answer 0 []
  | eqSetGain band imm => exact (h.setGain band imm).answer 0 []
  | eqStepUp band => exact (h.stepGain band _).answer 0 []
  | eqStepDn band => exact (h.stepGain band _).answer 0 []
  | eqFlat => exact h.flattenAll.answer 0 []
  | eqGetGain band => exact h.query (by rw [h.gainWord])
  | eqNBands => exact h.answer _ []
  | eqGetFreq band => exact h.answer _ []
  | eqGetType band => exact h.answer _ []
  | eqActive => exact h.query (by rw [h.eqActive])
  | eqProcess pin => exact h.execEqProcess pin

theorem OutcomesAgree.imp {rel rel' : State → State → Prop} {o o' : Host.Outcome State Fault Refusal}
    (h : OutcomesAgree rel o o')
    (himp : ∀ t t', o = .next t → o' = .next t' → rel t t' → rel' t t') : OutcomesAgree rel' o o' := by
  unfold OutcomesAgree at h
  split at h
  · exact himp _ _ rfl rfl h
  · exact h
  · exact h
  · exact h.elim

/-- States that agree on the FIFO unit, NOW and the answer, and that keep everything else from states that differ only in
COEF of flat bands, differ in no more themselves. -/
theorem SameButFlatCoef.of_fifo (h : SameButFlatCoef s s') {t t' : State} (ht : KeepsAllButFifo s t)
    (ht' : KeepsAllButFifo s' t') (hfifo : SameFifoAndAnswer t t') : SameButFlatCoef t t' := by
  obtain ⟨k, rfl, hk⟩ := sameButFlatCoef_iff.1 h
  obtain ⟨⟨hgain, hcoef, hhist, hundef, hattached⟩, hcmdErr, hcfg, hpending⟩ := ht
  obtain ⟨⟨hgain', hcoef', hhist', hundef', hattached'⟩, hcmdErr', hcfg', hpending'⟩ := ht'
  obtain ⟨⟨hmem, hwr, hrd, havail, hsession, hflag, hcause, hseen, hlast, htotal⟩, hnow, hres, hpout⟩ := hfifo
  refine ⟨?_, fun b hb => ?_⟩
  · cases t; cases t'; simp_all
  · rw [hgain] at hb; rw [hcoef, hcoef']; exact hk b hb

/-- A FIFO or time transaction neither reads nor writes COEF: the units share no data (R2). -/
theorem SameButFlatCoef.exec_fifo (h : SameButFlatCoef s s') (hi : isFifoInstr i = true) :
    OutcomesAgree SameButFlatCoef (exec i s) (exec i s') := by
  have hinputs : FifoInputsAgree s s' := by
    obtain ⟨k, rfl, -⟩ := sameButFlatCoef_iff.1 h
    exact ⟨rfl, rfl, rfl, rfl, rfl, rfl, rfl, rfl, rfl, rfl, rfl, rfl⟩
  exact (hinputs.exec hi).imp fun t t' ht ht' hfifo =>
    h.of_fifo (exec_fifo_keepsAllButFifo hi ht) (exec_fifo_keepsAllButFifo hi ht') hfifo

theorem SameButFlatCoef.exec (h : SameButFlatCoef s s') (i : Instr) :
    OutcomesAgree SameButFlatCoef (exec i s) (exec i s') := by
  cases he : isEqualizerInstr i with
  | true => exact h.exec_equalizer he
  | false =>
    cases hf : isFifoInstr i with
    | true => exact h.exec_fifo hf
    | false =>
      obtain rfl | rfl | rfl := generalInstr_cases he hf
      · exact h.answer 0 []
      · exact h.query h.statusWord
      · exact h.clearCmdErr.answer 0 []

theorem reset_coefFollowsGain : State.reset.CoefFollowsGain := fun b hb => absurd (by simp) hb

/-- Settles O32: the relation is kept by every effect, and no instruction reads a flat band's row. -/
theorem coefFollowsTheGain : Obligations.CoefFollowsTheGain :=
  ⟨reset_coefFollowsGain, fun _ _ => step_keeps (fun _ _ _ _ _ h => h) Effect.coefFollowsGain, fun i _ _ h => h.exec i⟩

end Sys2Proof.Machine
end

-- Proofs: what is delivered was stored, in the same order (O52)
section
/-!
The FIFO's bytes are conserved (20_memory.md R91): what was unread followed by what a transaction stores is what it
delivers followed by what is unread after it. Over a run, the bytes stored since the last clear are those delivered since
then followed by the unread ones.
-/

namespace Sys2Proof.Machine

open Sys2Proof

variable {s t u : State} {i : Instr}

/-! ### The FIFO as every transaction keeps it -/

/-- Valid parameters, the ring relations (R45) and canonical storage (R41, R95). -/
structure State.FifoOk (s : State) : Prop where
  cfg : s.cfg.Valid
  ring : s.RingOk
  memory : s.MemoryOk

theorem Effect.fifoOk (h : Effect s i u) (hs : s.FifoOk) : u.FifoOk where
  cfg := h.sameEnv.1 ▸ hs.cfg
  ring := h.ringOk hs.cfg hs.ring
  memory := h.memoryOk hs.cfg hs.memory

theorem exec_fifoOk (h : exec i s = .next t) (hs : s.FifoOk) : t.FifoOk := by
  obtain ⟨u, r, p, hu, rfl⟩ := exec_answersFrom h
  obtain ⟨hc, hr, hm⟩ := hu.fifoOk hs
  exact ⟨hc, hr, hm⟩

/-! ### The unread bytes after each operation -/

@[simp] theorem State.answer_unread (s : State) (r : Word) (p : List Byte) : (s.answer r p).unread = s.unread := rfl

@[simp] theorem State.endOfStream_unread (s : State) (c : EofCause) : (s.endOfStream c).unread = s.unread :=
  State.unread_congr (by simp) (by simp) (by simp) (by simp)

theorem State.unread_eq_nil (h : s.avail = 0) : s.unread = [] := by
  rw [← List.length_eq_zero_iff, State.unread_length, h]; rfl

theorem State.free_of_empty (h : s.avail = 0) : s.free = s.cfg.fifoCapacity := by simp [State.free, h]

/-- An instruction that is listed neither for the storage nor for RD_POS or AVAIL (R58) leaves the unread bytes. -/
theorem exec_unread_of_not_writtenBy (hmem : Element.writtenBy .fifoMem i = false)
    (hrdPos : Element.writtenBy .rdPos i = false) (havail : Element.writtenBy .avail i = false)
    (h : exec i s = .next t) : t.unread = s.unread := by
  obtain ⟨hcfg, -⟩ := exec_sameEnv h
  have hread : ∀ a, Memory.read t.fifoMem a = Memory.read s.fifoMem a := exec_same hmem h
  have hrd : t.rdPos = s.rdPos := exec_same hrdPos h
  have hav : t.avail = s.avail := exec_same havail h
  simp [State.unread, memRead, hcfg, hread, hrd, hav]

theorem exec_fifoStart_running (h : s.session = .running) : exec .fifoStart s = .next (s.answer 0 []) := by
  show execFifoStart s = _
  rw [execFifoStart, if_pos h]

/-- FIFO.START outside a session and FIFO.RESET leave nothing unread (R300, R306). -/
theorem exec_unread_of_clearsFifo (hclear : clearsFifo i s = true) (h : exec i s = .next t) : t.unread = [] := by
  have hi : i = .fifoReset ∨ i = .fifoStart ∧ s.session ≠ .running := by simpa [clearsFifo] using hclear
  obtain rfl | ⟨rfl, hrun⟩ := hi
  · change execFifoReset s = .next t at h
    unfold execFifoReset at h
    split_ifs at h <;> (cases h; exact s.clearFifo_unread)
  · change execFifoStart s = .next t at h
    rw [execFifoStart, if_neg hrun] at h
    cases h; exact s.clearFifo_unread

/-- SRC.READ appends to the unread bytes what it stores (R88, R330, R331). -/
theorem execSrcRead_unread (hs : s.FifoOk) {pin : List Byte} (h : execSrcRead pin s = .next t) :
    t.unread = s.unread ++ storedBy (.srcRead pin) s := by
  unfold execSrcRead at h
  split_ifs at h with hrun hempty
  · cases h; simp [storedBy, hrun]
  · obtain rfl := List.isEmpty_iff.1 hempty
    cases h; simp [storedBy]
  · cases h
    rw [storedBy, if_pos (not_not.1 hrun)]
    exact State.fifoWrite_unread hs.cfg hs.ring hs.memory pin

/-- FIFO.EXTRACT delivers the chunk's bytes, the oldest unread ones, and leaves the rest (R89, R360). -/
theorem execFifoExtract_unread (hc : s.cfg.Valid) (h : execFifoExtract s = .next t) :
    deliveredBy .fifoExtract t = s.unread.take s.chunkBytes ∧ t.unread = s.unread.drop s.chunkBytes := by
  unfold execFifoExtract at h
  split_ifs at h with hchunk
  · cases h; simp [deliveredBy, hchunk]
  · obtain ⟨hdata, hrest⟩ := State.fifoRead_unread (s := s) hc s.chunkBytes
    cases h
    refine ⟨?_, hrest⟩
    rw [← hdata]
    exact List.drop_left' (wavHeader_length _)

/-! ### Conservation (R91) -/

/-- A transaction that does not clear the FIFO loses, adds and reorders no byte. -/
theorem exec_conserves_bytes (hs : s.FifoOk) (hclear : clearsFifo i s = false) (h : exec i s = .next t) :
    s.unread ++ storedBy i s = deliveredBy i t ++ t.unread := by
  cases i with
  | fifoReset => cases hclear
  | fifoStart =>
    have hrun : s.session = .running := by simpa [clearsFifo] using hclear
    rw [exec_fifoStart_running hrun] at h
    cases h; simp [storedBy, deliveredBy]
  | fifoExtract =>
    obtain ⟨hdelivered, hrest⟩ := execFifoExtract_unread hs.cfg h
    rw [hdelivered, hrest, List.take_append_drop, storedBy, List.append_nil]
    nofun
  | srcRead pin => exact (execSrcRead_unread hs h).symm
  | _ =>
    rw [exec_unread_of_not_writtenBy rfl rfl rfl h]
    exact List.append_nil s.unread

/-- A trace in order: what was stored is what was delivered and then what is unread. -/
structure Trace.InOrder (tr : Trace) : Prop where
  fifoOk : tr.state.FifoOk
  order : tr.stored = tr.delivered ++ tr.state.unread

theorem execTrace_inOrder : ∀ {is : List Instr} {tr tr' : Trace}, tr.InOrder → execTrace is tr = some tr' → tr'.InOrder
  | [], _, _, htr, h => by cases h; exact htr
  | i :: rest, tr, tr', htr, h => by
    obtain ⟨t, ht, hrest⟩ := execTrace_cons_some h
    refine execTrace_inOrder ?_ hrest
    have hok := exec_fifoOk ht htr.fifoOk
    split_ifs with hclear
    · exact ⟨hok, (exec_unread_of_clearsFifo hclear ht).symm⟩
    · refine ⟨hok, ?_⟩
      rw [Bool.not_eq_true] at hclear
      calc tr.stored ++ storedBy i tr.state
          = tr.delivered ++ (tr.state.unread ++ storedBy i tr.state) := by rw [htr.order, List.append_assoc]
        _ = tr.delivered ++ deliveredBy i t ++ t.unread := by
          rw [exec_conserves_bytes htr.fifoOk hclear ht, List.append_assoc]

/-- From an empty FIFO, nothing stored and nothing delivered is in order. -/
theorem execTrace_inOrder_of_empty {is : List Instr} {tr : Trace} (hs : s.FifoOk) (hempty : s.avail = 0)
    (h : execTrace is ⟨s, [], []⟩ = some tr) : tr.InOrder :=
  execTrace_inOrder ⟨hs, (State.unread_eq_nil hempty).symm⟩ h

/-- What FifoWrite stores whole in an empty FIFO, FifoRead returns. -/
theorem fifoRead_fifoWrite_of_empty (hs : s.FifoOk) (hempty : s.avail = 0) {data : List Byte}
    (hfits : data.length ≤ s.cfg.fifoCapacity) : ((s.fifoWrite data).fifoRead data.length).1 = data := by
  have hstored : (s.fifoWrite data).unread = data := by
    rw [State.fifoWrite_unread hs.cfg hs.ring hs.memory, State.unread_eq_nil hempty, State.free_of_empty hempty,
      List.nil_append, List.take_of_length_le hfits]
  have hread := (State.fifoRead_unread (s := s.fifoWrite data) hs.cfg data.length).1
  rw [hread, hstored, List.take_length]

/-- Settles O52: every transaction keeps a trace in order, by the conservation of bytes. -/
theorem fifoOrder : Obligations.FifoOrder :=
  ⟨fun _ _ _ hc hr hm hempty h => (execTrace_inOrder_of_empty ⟨hc, hr, hm⟩ hempty h).order,
    fun _ _ hc hr hm hempty hfits => fifoRead_fifoWrite_of_empty ⟨hc, hr, hm⟩ hempty hfits⟩

end Sys2Proof.Machine
end

-- Proofs: a step runs the decoded instruction (O8)
section
/-!
One step on a legal transaction, and with nothing pending (20_memory.md R100, R101, R425).
-/

namespace Sys2Proof.Machine

open Sys2Proof

variable {s : State}

theorem step_idle (hp : s.pending = []) : step s = .next s := by
  simp [step, State.takeTransaction, hp]

theorem step_legal {tr : Transaction} {rest : List Transaction} {i : Instr} (hp : s.pending = tr :: rest)
    (hd : decode tr = .ok i) : step s = exec i { s with pending := rest } := by
  simp [step, State.takeTransaction, hp, hd]

/-- Settles O8: the transaction is taken, decoded and executed, and nothing stands around it. -/
theorem stepRunsTheDecodedInstruction : Obligations.StepRunsTheDecodedInstruction := fun _ _ _ _ => step_legal

end Sys2Proof.Machine
end

-- Proofs: storage that is not unread is unobservable (O54)
section
/-!
The storage besides the unread bytes is unobservable (20_memory.md R90): states that differ only there stay so under every
instruction, which answers them alike. FifoRead returns unread bytes only, FifoWrite appends the same bytes to both, and
nothing else reads or writes the storage.
-/

namespace Sys2Proof.Machine

open Sys2Proof

variable {s s' t t' : State} {i : Instr}

/-! ### What the operations do to states that differ only in stale storage -/

/-- The second state is the first with another storage, canonical too, that holds the same unread bytes. -/
theorem sameButStale_iff : SameButStale s s' ↔
    ∃ m, s' = { s with fifoMem := m } ∧ State.unread { s with fifoMem := m } = s.unread ∧ s.MemoryOk ∧
      State.MemoryOk { s with fifoMem := m } := by
  constructor
  · rintro ⟨hs, hunread, hm, hm'⟩
    rw [hs] at hunread hm'
    exact ⟨s'.fifoMem, hs, hunread, hm, hm'⟩
  · rintro ⟨m, rfl, hunread, hm, hm'⟩; exact ⟨rfl, hunread, hm, hm'⟩

/-- Without its storage, the second state is the first: what reads no storage is the same in both. -/
theorem SameButStale.congr {α : Type} {f : State → α} (h : SameButStale s s')
    (hf : ∀ m, f { s with fifoMem := m } = f s) : f s' = f s := by
  obtain ⟨hs, -⟩ := h
  rw [hs]; exact hf _

theorem SameButStale.answer (h : SameButStale s s') (r : Word) (p : List Byte) :
    OutcomesAgree SameButStale (.next (s.answer r p)) (.next (s'.answer r p)) := by
  obtain ⟨m, rfl, hunread, hm, hm'⟩ := sameButStale_iff.1 h
  exact ⟨rfl, hunread, hm, hm'⟩

/-- A query that reads no storage: its word is the same in both states. -/
theorem SameButStale.query (h : SameButStale s s') {f : State → Word} (hf : ∀ m, f { s with fifoMem := m } = f s) :
    OutcomesAgree SameButStale (.next (s.answer (f s) [])) (.next (s'.answer (f s') [])) := by
  rw [h.congr hf]; exact h.answer _ []

theorem SameButStale.clearCmdErr (h : SameButStale s s') : SameButStale s.clearCmdErr s'.clearCmdErr := by
  obtain ⟨m, rfl, hunread, hm, hm'⟩ := sameButStale_iff.1 h
  exact ⟨rfl, hunread, hm, hm'⟩

theorem SameButStale.withSession (h : SameButStale s s') (x : Session) :
    SameButStale { s with session := x } { s' with session := x } := by
  obtain ⟨m, rfl, hunread, hm, hm'⟩ := sameButStale_iff.1 h
  exact ⟨rfl, hunread, hm, hm'⟩

theorem SameButStale.withPending (h : SameButStale s s') (ts : List Transaction) :
    SameButStale { s with pending := ts } { s' with pending := ts } := by
  obtain ⟨m, rfl, hunread, hm, hm'⟩ := sameButStale_iff.1 h
  exact ⟨rfl, hunread, hm, hm'⟩

theorem SameButStale.raiseCmdError (h : SameButStale s s') : SameButStale s.raiseCmdError s'.raiseCmdError := by
  obtain ⟨m, rfl, hunread, hm, hm'⟩ := sameButStale_iff.1 h
  exact ⟨rfl, hunread, hm, hm'⟩

theorem SameButStale.advance (h : SameButStale s s') (n : Nat) : SameButStale (s.advance n) (s'.advance n) := by
  obtain ⟨m, rfl, hunread, hm, hm'⟩ := sameButStale_iff.1 h
  exact ⟨rfl, hunread, hm, hm'⟩

/-- After a clear nothing is unread, so all of the storage is stale. -/
theorem SameButStale.clearFifo (h : SameButStale s s') : SameButStale s.clearFifo s'.clearFifo := by
  obtain ⟨m, rfl, -, hm, hm'⟩ := sameButStale_iff.1 h
  exact ⟨rfl, rfl, hm, hm'⟩

theorem SameButStale.session (h : SameButStale s s') : s'.session = s.session := h.congr fun _ => rfl

theorem SameButStale.endOfStream (h : SameButStale s s') (c : EofCause) :
    SameButStale (s.endOfStream c) (s'.endOfStream c) := by
  unfold State.endOfStream
  rw [h.session]
  split_ifs
  · obtain ⟨m, rfl, hunread, hm, hm'⟩ := sameButStale_iff.1 h
    exact ⟨rfl, hunread, hm, hm'⟩
  · exact h

/-- FifoWrite appends the same bytes to the unread ones of both states (R88). -/
theorem SameButStale.receive (h : SameButStale s s') (hc : s.cfg.Valid) (hr : s.RingOk) (d : List Byte) :
    SameButStale (s.receive d) (s'.receive d) := by
  obtain ⟨m, rfl, hunread, hm, hm'⟩ := sameButStale_iff.1 h
  refine ⟨rfl, ?_, State.fifoWrite_memoryOk hc hm d, State.fifoWrite_memoryOk (s := { s with fifoMem := m }) hc hm' d⟩
  calc (State.fifoWrite { s with fifoMem := m } d).unread
      = State.unread { s with fifoMem := m } ++ d.take s.free :=
        State.fifoWrite_unread (s := { s with fifoMem := m }) hc hr hm' d
    _ = (s.fifoWrite d).unread := by rw [hunread, State.fifoWrite_unread hc hr hm]

/-- FifoRead returns unread bytes (R89), so the same ones from both states. -/
theorem SameButStale.fifoRead_data (h : SameButStale s s') (hc : s.cfg.Valid) (n : Nat) :
    (s'.fifoRead n).1 = (s.fifoRead n).1 := by
  obtain ⟨m, rfl, hunread, -⟩ := sameButStale_iff.1 h
  rw [(State.fifoRead_unread (s := { s with fifoMem := m }) hc n).1, hunread, (State.fifoRead_unread hc n).1]

theorem SameButStale.fifoRead (h : SameButStale s s') (hc : s.cfg.Valid) (n : Nat) :
    SameButStale (s.fifoRead n).2 (s'.fifoRead n).2 := by
  obtain ⟨m, rfl, hunread, hm, hm'⟩ := sameButStale_iff.1 h
  refine ⟨rfl, ?_, hm, hm'⟩
  rw [(State.fifoRead_unread (s := { s with fifoMem := m }) hc n).2, hunread, (State.fifoRead_unread hc n).2]

/-! ### The instructions, by unit -/

theorem SameButStale.execFifoStart (h : SameButStale s s') :
    OutcomesAgree SameButStale (execFifoStart s) (execFifoStart s') := by
  unfold Machine.execFifoStart
  rw [h.session]
  split_ifs
  · exact h.answer 0 []
  · exact (h.clearFifo.withSession .running).answer 0 []

theorem SameButStale.execFifoStop (h : SameButStale s s') :
    OutcomesAgree SameButStale (execFifoStop s) (execFifoStop s') := by
  unfold Machine.execFifoStop
  rw [h.session]
  split_ifs
  · exact (h.withSession .stopped).answer 0 []
  · exact h.answer 0 []

theorem SameButStale.execFifoReset (h : SameButStale s s') :
    OutcomesAgree SameButStale (execFifoReset s) (execFifoReset s') := by
  unfold Machine.execFifoReset
  rw [h.session]
  split_ifs
  · exact h.clearFifo.answer 0 []
  · exact (h.clearFifo.withSession .idle).answer 0 []

/-- FIFO.EXTRACT: the same chunk is read, and the container is built from it alone. -/
theorem SameButStale.execFifoExtract (h : SameButStale s s') (hc : s.cfg.Valid) :
    OutcomesAgree SameButStale (execFifoExtract s) (execFifoExtract s') := by
  have hchunk : s'.chunkBytes = s.chunkBytes := h.congr fun _ => rfl
  unfold Machine.execFifoExtract
  rw [hchunk]
  split_ifs
  · exact h.answer 0 []
  · show OutcomesAgree _ (.next ((s.fifoRead s.chunkBytes).2.answerChunk (s.fifoRead s.chunkBytes).1))
      (.next ((s'.fifoRead s.chunkBytes).2.answerChunk (s'.fifoRead s.chunkBytes).1))
    rw [h.fifoRead_data hc]
    exact (h.fifoRead hc s.chunkBytes).answer _ _

theorem SameButStale.execSrcRead (h : SameButStale s s') (hc : s.cfg.Valid) (hr : s.RingOk) (pin : List Byte) :
    OutcomesAgree SameButStale (execSrcRead pin s) (execSrcRead pin s') := by
  unfold Machine.execSrcRead
  rw [h.session]
  split_ifs
  · exact h.answer 0 []
  · exact (h.endOfStream .closure).answer 0 []
  · exact (h.receive hc hr pin).answer 0 []

theorem SameButStale.exec_fifo (h : SameButStale s s') (hc : s.cfg.Valid) (hr : s.RingOk)
    (hi : isFifoInstr i = true) : OutcomesAgree SameButStale (exec i s) (exec i s') := by
  cases i, hi using fifoInstr_cases with
  | fifoStart => exact h.execFifoStart
  | fifoStop => exact h.execFifoStop
  | fifoReset => exact h.execFifoReset
  | fifoExtract => exact h.execFifoExtract hc
  | fifoReady => exact h.query (f := fun s => Word.ofBool s.ready) fun _ => rfl
  | fifoEof => exact h.query (f := fun s => Word.ofBool s.eofFlag) fun _ => rfl
  | fifoRecv => exact h.query (f := fun s => Word.ofBool s.receiving) fun _ => rfl
  | fifoAvail => exact h.query (f := State.avail) fun _ => rfl
  | fifoTotalLo => exact h.query (f := fun s => s.totalRx.extractLsb' 0 32) fun _ => rfl
  | fifoTotalHi => exact h.query (f := fun s => s.totalRx.extractLsb' 32 32) fun _ => rfl
  | fifoState => exact h.query (f := State.stateWord) fun _ => rfl
  | fifoCap => exact h.query (f := fun s => BitVec.ofNat 32 s.cfg.fifoCapacity) fun _ => rfl
  | srcRead pin => exact h.execSrcRead hc hr pin
  | srcError => exact (h.endOfStream .readError).answer 0 []
  | srcOpenFail => exact (h.endOfStream .openFailure).answer 0 []
  | srcWouldBlock => exact h.answer 0 []
  | timeTick imm => exact (h.advance imm).answer 0 []

/-- States that agree on the equalizer and the answer, and that keep everything else from states that differ only in stale
storage, differ in no more themselves. -/
theorem SameButStale.of_equalizer (h : SameButStale s s') (ht : KeepsAllButEq s t) (ht' : KeepsAllButEq s' t')
    (heq : SameEqAndAnswer t t') : SameButStale t t' := by
  obtain ⟨m, rfl, hunread, hm, hm'⟩ := sameButStale_iff.1 h
  obtain ⟨⟨hmem, hwr, hrd, havail, hsession, hflag, hcause, hseen, hlast, htotal⟩, hnow, hcmdErr, hcfg, hpending⟩ := ht
  obtain ⟨⟨hmem', hwr', hrd', havail', hsession', hflag', hcause', hseen', hlast', htotal'⟩, hnow', hcmdErr', hcfg',
    hpending'⟩ := ht'
  obtain ⟨⟨hgain, hcoef, hhist, hundef, hattached⟩, hres, hpout⟩ := heq
  refine ⟨?_, ?_, ?_, ?_⟩
  · cases t; cases t'; simp_all
  · rw [State.unread_congr hcfg' hmem' hrd' havail', hunread, State.unread_congr hcfg hmem hrd havail]
  · unfold State.MemoryOk; rw [hmem, hcfg]; exact hm
  · unfold State.MemoryOk; rw [hmem', hcfg']; exact hm'

/-- An equalizer transaction neither reads nor writes the storage: the units share no data (R2). -/
theorem SameButStale.exec_equalizer (h : SameButStale s s') (hi : isEqualizerInstr i = true) :
    OutcomesAgree SameButStale (exec i s) (exec i s') := by
  have hinputs : EqInputsAgree s s' := by
    obtain ⟨m, rfl, -⟩ := sameButStale_iff.1 h
    exact ⟨rfl, rfl, rfl, rfl, rfl, rfl⟩
  exact (hinputs.exec hi).imp fun t t' ht ht' heq =>
    h.of_equalizer (exec_equalizer_keepsAllButEq hi ht) (exec_equalizer_keepsAllButEq hi ht') heq

theorem SameButStale.exec (h : SameButStale s s') (hc : s.cfg.Valid) (hr : s.RingOk) (i : Instr) :
    OutcomesAgree SameButStale (exec i s) (exec i s') := by
  cases he : isEqualizerInstr i with
  | true => exact h.exec_equalizer he
  | false =>
    cases hf : isFifoInstr i with
    | true => exact h.exec_fifo hc hr hf
    | false =>
      obtain rfl | rfl | rfl := generalInstr_cases he hf
      · exact h.answer 0 []
      · exact h.query (f := State.statusWord) fun _ => rfl
      · exact h.clearCmdErr.answer 0 []

/-! ### Runs -/

/-- A relation of states that one step keeps, outcomes of one kind, is kept by runs of equal length. -/
theorem core_run_agree {rel : State → State → Prop}
    (hstep : ∀ s s', rel s s' → OutcomesAgree rel (step s) (step s')) :
    ∀ (n : Nat) (s s' : State), rel s s' → OutcomesAgree rel (Sys2Proof.core.run n s) (Sys2Proof.core.run n s')
  | 0, _, _, h => h
  | n + 1, s, s', h => by
    have hout := hstep s s' h
    unfold OutcomesAgree at hout
    split at hout
    · next t t' ht ht' =>
      rw [core_run_next n ht, core_run_next n ht']
      exact core_run_agree hstep n t t' hout
    · next f f' hf hf' => rw [core_run_fault n hf, core_run_fault n hf']; exact hout
    · next r r' hr hr' => rw [core_run_refused n hr, core_run_refused n hr']; exact hout
    · exact hout.elim

/-- States that differ only in stale storage, with a FIFO as every run keeps it. -/
structure RunsAlike (s s' : State) : Prop where
  fifoOk : s.FifoOk
  stale : SameButStale s s'

/-- A step takes the same transaction in both states, and an illegal one touches no storage. -/
theorem RunsAlike.step (h : RunsAlike s s') : OutcomesAgree RunsAlike (step s) (step s') := by
  have hpending : s'.pending = s.pending := h.stale.congr fun _ => rfl
  obtain ⟨hc, hr, hm⟩ := h.fifoOk
  obtain ⟨hp, hn⟩ | ⟨tr, rest, hp, ⟨e, hd, hn⟩ | ⟨i, hd, hn⟩⟩ := step_cases s
  · rw [hn, step_idle (hpending.trans hp)]; exact h
  · rw [hn, step_illegal (hpending.trans hp) hd]
    exact ⟨⟨hc, hr, hm⟩, (h.stale.withPending rest).raiseCmdError⟩
  · rw [hn, step_legal (hpending.trans hp) hd]
    refine ((h.stale.withPending rest).exec hc hr i).imp fun t t' ht _ hstale => ⟨?_, hstale⟩
    exact exec_fifoOk ht ⟨hc, hr, hm⟩

theorem RunsAlike.sameAnswer (h : RunsAlike s s') : SameAnswer s s' :=
  ⟨h.stale.congr fun _ => rfl, h.stale.congr fun _ => rfl⟩

theorem Params.default_valid : Params.default.Valid := by decide

/-- At reset nothing is unread: any two canonical storages differ in stale bytes only. -/
theorem runsAlike_reset {m m' : Memory} (ts : List Transaction) (hm : Memory.wf m = true) (hm' : Memory.wf m' = true)
    (hin : Memory.inside 882000 m = true) (hin' : Memory.inside 882000 m' = true) :
    RunsAlike { State.reset with fifoMem := m, pending := ts } { State.reset with fifoMem := m', pending := ts } where
  fifoOk := ⟨Params.default_valid, State.clearFifo_ringOk (s := { State.reset with fifoMem := m, pending := ts })
    Params.default_valid, hm, hin⟩
  stale := ⟨rfl, rfl, ⟨hm, hin⟩, hm', hin'⟩

theorem runAll_reset_sameAnswer {m m' : Memory} (ts : List Transaction) (hm : Memory.wf m = true)
    (hm' : Memory.wf m' = true) (hin : Memory.inside 882000 m = true) (hin' : Memory.inside 882000 m' = true) :
    OutcomesAgree SameAnswer (State.runAll { State.reset with fifoMem := m } ts)
      (State.runAll { State.reset with fifoMem := m' } ts) :=
  (core_run_agree (fun _ _ => RunsAlike.step) ts.length _ _ (runsAlike_reset ts hm hm' hin hin')).imp
    fun _ _ _ _ h => h.sameAnswer

/-- Settles O54: the relation is kept by every instruction and so by every run, and what is delivered is in order. -/
theorem staleStorageIsUnobservable : Obligations.StaleStorageIsUnobservable :=
  ⟨fun i _ _ hc hr h => h.exec hc hr i,
    fun _ _ ts hm hm' hin hin' => runAll_reset_sameAnswer ts hm hm' hin hin',
    fun _ _ tr hc hr hm hempty h =>
      ⟨tr.state.unread, (execTrace_inOrder_of_empty ⟨hc, hr, hm⟩ hempty h).order.symm⟩⟩

end Sys2Proof.Machine
end

-- Proofs: only EQ.PROCESS can stop (O36)
section
/-!
Which transactions can stop (20_memory.md R105, 60_exceptions.md R402): every instruction but EQ.PROCESS answers a next
state by its definition; EQ.PROCESS passes on the faults of the cascade, which stops with UndefState only at an undefined
band.
-/

namespace Sys2Proof.Machine

open Sys2Proof

variable {s : State}

/-! ### The instructions that always complete -/

theorem execFifoStart_completes (s : State) : ∃ t, execFifoStart s = .next t := by
  unfold execFifoStart; split_ifs <;> exact ⟨_, rfl⟩

theorem execFifoStop_completes (s : State) : ∃ t, execFifoStop s = .next t := by
  unfold execFifoStop; split_ifs <;> exact ⟨_, rfl⟩

theorem execFifoReset_completes (s : State) : ∃ t, execFifoReset s = .next t := by
  unfold execFifoReset; split_ifs <;> exact ⟨_, rfl⟩

theorem execFifoExtract_completes (s : State) : ∃ t, execFifoExtract s = .next t := by
  unfold execFifoExtract; split_ifs <;> exact ⟨_, rfl⟩

theorem execSrcRead_completes (pin : List Byte) (s : State) : ∃ t, execSrcRead pin s = .next t := by
  unfold execSrcRead; split_ifs <;> exact ⟨_, rfl⟩

theorem exec_completes {i : Instr} (hi : ∀ pin : List Byte, i ≠ .eqProcess pin) (s : State) :
    ∃ t, exec i s = .next t := by
  cases i with
  | eqProcess pin => exact absurd rfl (hi pin)
  | fifoStart => exact execFifoStart_completes s
  | fifoStop => exact execFifoStop_completes s
  | fifoReset => exact execFifoReset_completes s
  | fifoExtract => exact execFifoExtract_completes s
  | srcRead pin => exact execSrcRead_completes pin s
  | _ => exact ⟨_, rfl⟩

/-! ### The faults of the datapath (R183, R240) -/

/-- With no band undefined, the cascade stops at a NaN only. -/
theorem cascade_error_of_defined (hdef : ∀ b : Band, s.undef.get b = false) {c : Channel} {f : Fault} :
    ∀ {bs : List Band} {v : F64} {hs : Hists}, cascade s c bs v hs = .error f → f = .nonFinite
  | [], _, _, h => by cases h
  | b :: bs, v, hs, h => by
    simp only [cascade, hdef b, Bool.false_eq_true, if_false] at h
    split_ifs at h
    · exact cascade_error_of_defined hdef h
    · cases h; rfl
    · exact cascade_error_of_defined hdef h

/-- A frame stops where the cascade does, on one of its channels. -/
theorem filterFrame_error {a0 a1 b0 b1 : Byte} {hs : Hists} {f : Fault}
    (h : filterFrame s a0 a1 b0 b1 hs = .error f) : ∃ c v hs', cascade s c Band.all v hs' = .error f := by
  unfold filterFrame filterSample at h
  cases h0 : cascade s .c0 Band.all (F64.ofInt (le16s a0 a1)) hs with
  | error g => simp only [h0, Except.error.injEq] at h; exact ⟨_, _, _, h ▸ h0⟩
  | ok r =>
    obtain ⟨v, hs1⟩ := r
    simp only [h0] at h
    cases h1 : cascade s .c1 Band.all (F64.ofInt (le16s b0 b1)) hs1 with
    | error g => simp only [h1, Except.error.injEq] at h; exact ⟨_, _, _, h ▸ h1⟩
    | ok r => simp [h1] at h

/-- A buffer stops where the cascade does, at one of its samples. -/
theorem filterBuffer_error {f : Fault} : ∀ {pin : List Byte} {hs : Hists}, filterBuffer s pin hs = .error f →
    ∃ c v hs', cascade s c Band.all v hs' = .error f
  | [], _, h | [_], _, h | [_, _], _, h | [_, _, _], _, h => by cases h
  | a0 :: a1 :: b0 :: b1 :: rest, hs, h => by
    simp only [filterBuffer] at h
    cases hf : filterFrame s a0 a1 b0 b1 hs with
    | error g => simp only [hf, Except.error.injEq] at h; exact filterFrame_error (h ▸ hf)
    | ok r =>
      obtain ⟨out, hs1⟩ := r
      simp only [hf] at h
      cases hr : filterBuffer s rest hs1 with
      | error g => simp only [hr, Except.error.injEq] at h; exact filterBuffer_error (h ▸ hr)
      | ok r => simp [hr] at h

/-- EQ.PROCESS answers a next state, or filters and stops with the fault of its datapath. -/
theorem execEqProcess_cases (pin : List Byte) (s : State) :
    (∃ t, execEqProcess pin s = .next t) ∨
      s.attached = true ∧ ∃ f, filterBuffer s pin s.hist = .error f ∧ execEqProcess pin s = .fault f := by
  cases hp : (s.attached && s.eqActive) with
  | false => exact .inl ⟨_, execEqProcess_pass hp pin⟩
  | true =>
    obtain ⟨hattached, -⟩ := Bool.and_eq_true_iff.1 hp
    rw [execEqProcess_filter hp, processBuffer]
    cases hf : filterBuffer s pin s.hist with
    | ok r => exact .inl ⟨_, rfl⟩
    | error f => exact .inr ⟨hattached, f, rfl, rfl⟩

/-- Settles O36: by cases on the instruction; EQ.PROCESS filters only while attached, and its faults are the cascade's. -/
theorem onlyEqProcessCanStop : Obligations.OnlyEqProcessCanStop := by
  refine ⟨fun i s hi => exec_completes hi s, fun s pin hdef => ?_, fun s pin => ?_⟩
  · obtain hnext | ⟨hattached, f, hf, hfault⟩ := execEqProcess_cases pin s
    · exact .inl hnext
    · obtain ⟨c, v, hs, hc⟩ := filterBuffer_error hf
      obtain rfl := cascade_error_of_defined (hdef hattached) hc
      exact .inr hfault
  · obtain hnext | ⟨-, f, -, hfault⟩ := execEqProcess_cases pin s
    · exact .inl hnext
    · cases f with
      | undefState => exact .inr (.inl hfault)
      | nonFinite => exact .inr (.inr hfault)

end Sys2Proof.Machine
end

-- Proofs: the queries have no side effect (O40)
section
/-!
The queries answer a word that they read off the state, and no query reads the last answer, so a second one answers the
same (20_memory.md R94). The session and gain transactions that find their state already reached only answer.
-/

namespace Sys2Proof.Machine

open Sys2Proof

variable {s : State}

/-- A query's next state is its argument with a word that does not depend on the last answer. -/
theorem exec_query {i : Instr} (hi : isQueryInstr i = true) : ∃ f : State → Word,
    (∀ s, exec i s = .next (s.answer (f s) [])) ∧ ∀ (s : State) (r : Word) (p : List Byte), f (s.answer r p) = f s := by
  cases i with
  | getStatus => exact ⟨State.statusWord, fun _ => rfl, fun _ _ _ => rfl⟩
  | eqGetGain band => exact ⟨fun s => bandQuery band s.gainWord, fun _ => rfl, fun _ _ _ => rfl⟩
  | eqNBands | eqGetFreq | eqGetType => exact ⟨fun _ => _, fun _ => rfl, fun _ _ _ => rfl⟩
  | eqActive => exact ⟨fun s => Word.ofBool s.eqActive, fun _ => rfl, fun _ _ _ => rfl⟩
  | fifoReady => exact ⟨fun s => Word.ofBool s.ready, fun _ => rfl, fun _ _ _ => rfl⟩
  | fifoEof => exact ⟨fun s => Word.ofBool s.eofFlag, fun _ => rfl, fun _ _ _ => rfl⟩
  | fifoRecv => exact ⟨fun s => Word.ofBool s.receiving, fun _ => rfl, fun _ _ _ => rfl⟩
  | fifoAvail => exact ⟨State.avail, fun _ => rfl, fun _ _ _ => rfl⟩
  | fifoTotalLo => exact ⟨fun s => s.totalRx.extractLsb' 0 32, fun _ => rfl, fun _ _ _ => rfl⟩
  | fifoTotalHi => exact ⟨fun s => s.totalRx.extractLsb' 32 32, fun _ => rfl, fun _ _ _ => rfl⟩
  | fifoState => exact ⟨State.stateWord, fun _ => rfl, fun _ _ _ => rfl⟩
  | fifoCap => exact ⟨fun s => BitVec.ofNat 32 s.cfg.fifoCapacity, fun _ => rfl, fun _ _ _ => rfl⟩
  | _ => cases hi

theorem exec_query_idempotent {i : Instr} (hi : isQueryInstr i = true) (s : State) :
    ∃ t, exec i s = .next t ∧ t = { s with res := t.res, pout := [] } ∧ exec i t = .next t := by
  obtain ⟨f, hexec, hf⟩ := exec_query hi
  refine ⟨s.answer (f s) [], hexec s, rfl, ?_⟩
  rw [hexec, hf]; rfl

/-- FIFO.STOP has nothing to end in IDLE and STOPPED (R303). -/
theorem exec_fifoStop_ended (h : s.session = .idle ∨ s.session = .stopped) :
    exec .fifoStop s = .next (s.answer 0 []) := by
  have hended : ¬(s.session = .running ∨ s.session = .eof) := by obtain h | h := h <;> simp [h]
  show execFifoStop s = _
  rw [execFifoStop, if_neg hended]

/-- SetGain to the gain that a band holds writes nothing, when the clamp leaves that gain (R184). -/
theorem setBandGain_held {b : Band} (h : -12 ≤ (s.gain.get b).toInt ∧ (s.gain.get b).toInt ≤ 12) :
    s.setBandGain b (s.gain.get b).toInt = s := by
  rw [State.setBandGain, if_pos (clampGain_of_range h)]

theorem exec_eqSetGain_held {b : Band} (h : s.GainsInRange) :
    exec (.eqSetGain b.index (s.gain.get b).toInt) s = .next (s.answer 0 []) := by
  show execEqSetGain b.index _ s = _
  rw [execEqSetGain, State.setGain_of_index, setBandGain_held (h b)]

/-- Settles O40: a query's word does not depend on the last answer, and the other three only answer. -/
theorem queriesHaveNoSideEffect : Obligations.QueriesHaveNoSideEffect :=
  ⟨fun _ s hi => exec_query_idempotent hi s, fun _ => exec_fifoStart_running, fun _ => exec_fifoStop_ended,
    fun _ _ => exec_eqSetGain_held⟩

end Sys2Proof.Machine
end

-- Proofs: SRC.READ stores what fits (O47)
section
/-!
SRC.READ of data in a running session (20_memory.md R88, 45_fifo_producer.md R331): the first bytes that fit read back
from WR_POS on, the rest of the storage as before.
-/

namespace Sys2Proof.Machine

open Sys2Proof

variable {s : State}

theorem exec_srcRead_data (hrun : s.session = .running) {pin : List Byte} (hpin : pin ≠ []) :
    exec (.srcRead pin) s = .next ((s.receive pin).answer 0 []) := by
  show execSrcRead pin s = _
  rw [execSrcRead, if_neg (not_not.2 hrun), if_neg (by simpa using hpin)]

/-- The stored bytes read back in order, index FIFO_CAPACITY - 1 followed by index 0 (R81). -/
theorem read_fifoWrite_stored (hm : s.MemoryOk) (d : List Byte) {j : Nat} (hj : j < min d.length s.free) :
    some (Memory.read (s.fifoWrite d).fifoMem ((s.wrPos.toNat + j) % s.cfg.fifoCapacity)) = d[j]? := by
  have hfree : s.free ≤ s.cfg.fifoCapacity := Nat.sub_le _ _
  have hj' : j < (d.take (min d.length s.free)).length := by simpa using hj
  rw [State.fifoWrite_fifoMem, read_memWrite_same hm.1 _ _ (by simp only [List.length_take]; omega) j hj',
    List.getElem_take, List.getElem?_eq_getElem]

/-- Every byte that the run of stored bytes does not reach reads as before. -/
theorem read_fifoWrite_other (d : List Byte) {a : Nat}
    (ha : ∀ j, j < min d.length s.free → a ≠ (s.wrPos.toNat + j) % s.cfg.fifoCapacity) :
    Memory.read (s.fifoWrite d).fifoMem a = Memory.read s.fifoMem a := by
  rw [State.fifoWrite_fifoMem]
  exact read_memWrite_other _ _ _ _ _ fun j hj => ha j (by simpa using hj)

/-- Settles O47: the writes of SRC.READ are FifoWrite's and the bookkeeping of received data. -/
theorem srcReadStoresWhatFits : Obligations.SrcReadStoresWhatFits := fun _ pin hc hr hm hrun hpin =>
  ⟨_, exec_srcRead_data hrun hpin, rfl, _, rfl, fun _ => read_fifoWrite_stored hm pin, fun _ => read_fifoWrite_other pin,
    State.fifoWrite_wrPos_toNat hc pin, State.fifoWrite_avail_toNat hc hr pin⟩

end Sys2Proof.Machine
end

-- Proofs: decoding gives back an encoded instruction (O1)
section
/-!
The decoder on a word of the encoder (30_encoding.md R121 to R130): one lemma per format for a row of that format, and
the instructions by the format of their row.
-/

namespace Sys2Proof

/-- The decoder on a word that the encoder builds: RSV is 0, so the opcode's row decides with its zero fields and its
payload rule. -/
theorem decode_encodeWord {op : BitVec 8} {r : OpRow} {band : BitVec 4} {imm : BitVec 16} {pin : List Byte} (a : Agent)
    (hrow : opcodeRow op = some r) (hzero : zeroFieldsOk r.format (encodeWord op band imm) = true)
    (hpay : payloadOk r.format pin = true) :
    decode ⟨a, encodeWord op band imm, pin⟩ = .ok (r.build ⟨band.toNat, imm.toInt, imm.toNat, pin⟩) := by
  simp [decode, operandsOf, hrow, hzero, hpay]

theorem decode_formatN {op : BitVec 8} {name : String} {i : Instr}
    (hrow : opcodeRow op = some ⟨op, name, .n, fun _ => i⟩) (a : Agent) :
    decode ⟨a, encodeWord op 0 0, []⟩ = .ok i :=
  decode_encodeWord a hrow (by simp [zeroFieldsOk]) rfl

theorem decode_formatB {op : BitVec 8} {name : String} {con : Nat → Instr} {band : Nat}
    (hrow : opcodeRow op = some ⟨op, name, .b, fun o => con o.band⟩) (hband : bandFits band = true) (a : Agent) :
    decode ⟨a, encodeWord op (BitVec.ofNat 4 band) 0, []⟩ = .ok (con band) := by
  rw [decode_encodeWord a hrow (by simp [zeroFieldsOk]) rfl, bandField_toNat hband]

theorem decode_formatP {op : BitVec 8} {name : String} {con : List Byte → Instr}
    (hrow : opcodeRow op = some ⟨op, name, .p, fun o => con o.pin⟩) (a : Agent) (pin : List Byte) :
    decode ⟨a, encodeWord op 0 0, pin⟩ = .ok (con pin) :=
  decode_encodeWord a hrow (by simp [zeroFieldsOk]) rfl

/-- EQ.SETGAIN is the one row of format BI. -/
theorem decode_eqSetGain {band : Nat} {imm : Int} (hband : bandFits band = true) (himm : gainImmFits imm = true)
    (a : Agent) : decode { encode (.eqSetGain band imm) with issuer := a } = .ok (.eqSetGain band imm) := by
  show decode ⟨a, encodeWord 0x12 _ _, []⟩ = _
  rw [decode_encodeWord a rfl rfl rfl, bandField_toNat hband, gainImmField_toInt himm]

/-- TIME.TICK is the one row of format I. -/
theorem decode_timeTick {imm : Nat} (himm : tickImmFits imm = true) (a : Agent) :
    decode { encode (.timeTick imm) with issuer := a } = .ok (.timeTick imm) := by
  show decode ⟨a, encodeWord 0x38 _ _, []⟩ = _
  rw [decode_encodeWord a rfl (by simp [zeroFieldsOk]) rfl, tickImmField_toNat himm]

/-- Settles O1: each instruction by the format of its row. -/
theorem decodeEncodeAgree : Obligations.DecodeEncodeAgree := by
  intro i hwf a
  cases i with
  | nop | getStatus | clrErr | eqInit | eqDetach | eqFlat | eqNBands | eqActive | fifoStart | fifoStop | fifoReset
  | fifoExtract | fifoReady | fifoEof | fifoRecv | fifoAvail | fifoTotalLo | fifoTotalHi | fifoState | fifoCap
  | srcError | srcOpenFail | srcWouldBlock => exact decode_formatN rfl a
  | eqStepUp | eqStepDn | eqGetGain | eqGetFreq | eqGetType => exact decode_formatB rfl hwf a
  | eqProcess pin | srcRead pin => exact decode_formatP rfl a pin
  | eqSetGain =>
    obtain ⟨hband, himm⟩ := Bool.and_eq_true_iff.1 hwf
    exact decode_eqSetGain hband himm a
  | timeTick => exact decode_timeTick hwf a

end Sys2Proof
end

-- Proofs: a transaction that decodes is its instruction's encoding (O2)
section
/-!
From a legal transaction back to the encoder (30_encoding.md R121, R122, R126, R130): a row of each format builds an
instruction whose encoding has the transaction's fields, and RSV, which is 0, is the only field left.
-/

namespace Sys2Proof

/-- Two command words with the same four fields are the same. -/
theorem word_ext_fields {v w : Word} (hop : cmdOp v = cmdOp w) (hband : cmdBand v = cmdBand w)
    (hrsv : cmdRsv v = cmdRsv w) (himm : cmdImm v = cmdImm w) : v = w := by
  simp only [cmdOp, cmdBand, cmdRsv, cmdImm, ← BitVec.toNat_inj, BitVec.extractLsb'_toNat,
    Nat.shiftRight_eq_div_pow] at *
  omega

/-- A command word with RSV 0 is the encoder's word of its other fields. -/
theorem encodeWord_fields {w : Word} (hrsv : cmdRsv w = 0) : encodeWord (cmdOp w) (cmdBand w) (cmdImm w) = w :=
  word_ext_fields (by simp) (by simp) (by simp [hrsv]) (by simp)

/-- The formats with a band operand (R122). -/
def Format.hasBand : Format → Bool
  | .b | .bi => true
  | .n | .i | .p => false

/-- The formats with an immediate operand (R122). -/
def Format.hasImm : Format → Bool
  | .bi | .i => true
  | .n | .b | .p => false

/-- A format marks "0" each of BAND and IMM that it has no operand in. -/
theorem zeroFieldsOk_iff {f : Format} {w : Word} : zeroFieldsOk f w = true ↔
    (f.hasBand = false → cmdBand w = 0) ∧ (f.hasImm = false → cmdImm w = 0) := by
  cases f <;> simp [zeroFieldsOk, Format.hasBand, Format.hasImm]

theorem payloadOk_iff {f : Format} {pin : List Byte} : payloadOk f pin = true ↔ f = .p ∨ pin = [] := by
  simp [payloadOk]

/-- The instruction is well-formed, and its encoding has these fields and this payload. -/
structure Instr.EncodedAs (i : Instr) (op : BitVec 8) (band : BitVec 4) (imm : BitVec 16) (pin : List Byte) : Prop where
  wellFormed : i.wellFormed = true
  cmd : encodeCmd i = encodeWord op band imm
  payload : encodePayload i = pin

/-- The row's instruction, built from a transaction that its format admits, is encoded with the transaction's fields. -/
def OpRow.KeepsFields (r : OpRow) : Prop := ∀ t : Transaction, zeroFieldsOk r.format t.cmd = true →
  payloadOk r.format t.pin = true → (r.build (operandsOf t)).EncodedAs r.op (cmdBand t.cmd) (cmdImm t.cmd) t.pin

theorem bandFits_toNat (b : BitVec 4) : bandFits b.toNat = true := by
  simpa [bandFits] using b.isLt

theorem gainImmFits_toInt (v : BitVec 16) : gainImmFits v.toInt = true := by
  have hlo := v.le_toInt
  have hhi := v.toInt_lt
  simp only [gainImmFits, Bool.and_eq_true, decide_eq_true_eq]
  omega

theorem tickImmFits_toNat (v : BitVec 16) : tickImmFits v.toNat = true := by
  simpa [tickImmFits] using v.isLt

theorem saturateImm_of_fits {v : Int} (h : gainImmFits v = true) : saturateImm v = v := by
  simp only [gainImmFits, Bool.and_eq_true, decide_eq_true_eq] at h
  rw [saturateImm, if_neg (by omega), if_neg (by omega)]

variable {op : BitVec 8} {name : String}

theorem keepsFields_n {i : Instr} (hi : i.EncodedAs op 0 0 []) : OpRow.KeepsFields ⟨op, name, .n, fun _ => i⟩ := by
  intro t hzero hpay
  obtain ⟨hband, himm⟩ := zeroFieldsOk_iff.1 hzero
  have hpin : t.pin = [] := (payloadOk_iff.1 hpay).resolve_left nofun
  rw [hband rfl, himm rfl, hpin]
  exact hi

theorem keepsFields_b {con : Nat → Instr}
    (hcon : ∀ band, bandFits band = true → (con band).EncodedAs op (BitVec.ofNat 4 band) 0 []) :
    OpRow.KeepsFields ⟨op, name, .b, fun o => con o.band⟩ := by
  intro t hzero hpay
  have hpin : t.pin = [] := (payloadOk_iff.1 hpay).resolve_left nofun
  rw [(zeroFieldsOk_iff.1 hzero).2 rfl, hpin]
  simpa [operandsOf] using hcon (cmdBand t.cmd).toNat (bandFits_toNat _)

theorem keepsFields_p {con : List Byte → Instr} (hcon : ∀ pin, (con pin).EncodedAs op 0 0 pin) :
    OpRow.KeepsFields ⟨op, name, .p, fun o => con o.pin⟩ := by
  intro t hzero hpay
  obtain ⟨hband, himm⟩ := zeroFieldsOk_iff.1 hzero
  rw [hband rfl, himm rfl]
  exact hcon t.pin

theorem keepsFields_eqSetGain : OpRow.KeepsFields ⟨0x12, name, .bi, fun o => .eqSetGain o.band o.simm⟩ := by
  intro t _ hpay
  have hpin : t.pin = [] := (payloadOk_iff.1 hpay).resolve_left nofun
  have hfits := gainImmFits_toInt (cmdImm t.cmd)
  refine ⟨Bool.and_eq_true_iff.2 ⟨bandFits_toNat _, hfits⟩, ?_, hpin.symm⟩
  simp [operandsOf, encodeCmd, saturateImm_of_fits hfits]

theorem keepsFields_timeTick : OpRow.KeepsFields ⟨0x38, name, .i, fun o => .timeTick o.uimm⟩ := by
  intro t hzero hpay
  have hpin : t.pin = [] := (payloadOk_iff.1 hpay).resolve_left nofun
  refine ⟨tickImmFits_toNat (cmdImm t.cmd), ?_, hpin.symm⟩
  simp [operandsOf, encodeCmd, (zeroFieldsOk_iff.1 hzero).1 rfl]

/-! ### The rows of R126, group by group -/

theorem generalRows_keepFields : ∀ r ∈ generalRows, r.KeepsFields := by
  simp only [generalRows, List.forall_mem_cons]
  exact ⟨keepsFields_n ⟨rfl, rfl, rfl⟩, keepsFields_n ⟨rfl, rfl, rfl⟩, keepsFields_n ⟨rfl, rfl, rfl⟩, nofun⟩

theorem equalizerRows_keepFields : ∀ r ∈ equalizerRows, r.KeepsFields := by
  simp only [equalizerRows, List.forall_mem_cons]
  exact ⟨keepsFields_n ⟨rfl, rfl, rfl⟩, keepsFields_n ⟨rfl, rfl, rfl⟩, keepsFields_eqSetGain,
    keepsFields_b fun _ h => ⟨h, rfl, rfl⟩, keepsFields_b fun _ h => ⟨h, rfl, rfl⟩, keepsFields_n ⟨rfl, rfl, rfl⟩,
    keepsFields_b fun _ h => ⟨h, rfl, rfl⟩, keepsFields_n ⟨rfl, rfl, rfl⟩, keepsFields_b fun _ h => ⟨h, rfl, rfl⟩,
    keepsFields_b fun _ h => ⟨h, rfl, rfl⟩, keepsFields_n ⟨rfl, rfl, rfl⟩, keepsFields_p fun _ => ⟨rfl, rfl, rfl⟩,
    nofun⟩

theorem fifoRows_keepFields : ∀ r ∈ fifoRows, r.KeepsFields := by
  intro r hr
  simp only [fifoRows, List.mem_cons, List.not_mem_nil, or_false] at hr
  rcases hr with rfl | rfl | rfl | rfl | rfl | rfl | rfl | rfl | rfl | rfl | rfl | rfl <;>
    exact keepsFields_n ⟨rfl, rfl, rfl⟩

theorem producerRows_keepFields : ∀ r ∈ producerRows, r.KeepsFields := by
  simp only [producerRows, List.forall_mem_cons]
  exact ⟨keepsFields_p fun _ => ⟨rfl, rfl, rfl⟩, keepsFields_n ⟨rfl, rfl, rfl⟩, keepsFields_n ⟨rfl, rfl, rfl⟩,
    keepsFields_n ⟨rfl, rfl, rfl⟩, keepsFields_timeTick, nofun⟩

theorem opcodeMap_keepFields {r : OpRow} (hr : r ∈ opcodeMap) : r.KeepsFields := by
  simp only [opcodeMap, List.mem_append] at hr
  obtain ((hr | hr) | hr) | hr := hr
  · exact generalRows_keepFields r hr
  · exact equalizerRows_keepFields r hr
  · exact fifoRows_keepFields r hr
  · exact producerRows_keepFields r hr

/-- A legal transaction: the checks (a) to (d) pass, and the instruction is what the opcode's row builds. -/
theorem decode_eq_ok {t : Transaction} {i : Instr} : decode t = .ok i ↔
    ∃ r, opcodeRow (cmdOp t.cmd) = some r ∧ cmdRsv t.cmd = 0 ∧ zeroFieldsOk r.format t.cmd = true ∧
      payloadOk r.format t.pin = true ∧ r.build (operandsOf t) = i := by
  obtain ⟨hrow, h⟩ | ⟨r, hrow, ⟨hrsv, h⟩ | ⟨hrsv, hzero, h⟩ | ⟨hrsv, hzero, hpay, h⟩ | ⟨hrsv, hzero, hpay, h⟩⟩ :=
    decode_cases t <;> simp_all

/-- Settles O2: the row keeps the fields and the payload, and the opcode is the row's. -/
theorem decodedTransactionIsTheEncoding : Obligations.DecodedTransactionIsTheEncoding := by
  intro t i hd
  obtain ⟨r, hrow, hrsv, hzero, hpay, rfl⟩ := decode_eq_ok.1 hd
  obtain ⟨hmem, hop⟩ := opcodeRow_eq_some.1 hrow
  obtain ⟨hwf, hcmd, hpayload⟩ := opcodeMap_keepFields hmem t hzero hpay
  exact ⟨hwf, by rw [hcmd, hop, encodeWord_fields hrsv], hpayload⟩

end Sys2Proof
end

-- Proofs: illegal by the four checks (O3)
section
/-!
When the decoder gives each reason of 30_encoding.md R130, in terms of the opcode's row, and the legal transactions as
those that a row of R126 matches.
-/

namespace Sys2Proof

variable {t : Transaction}

theorem exists_row_iff {op : BitVec 8} {P : OpRow → Prop} :
    (∃ r ∈ opcodeMap, r.op = op ∧ P r) ↔ ∃ r, opcodeRow op = some r ∧ P r := by
  simp only [opcodeRow_eq_some, and_assoc]

theorem exists_row_op_iff {op : BitVec 8} : (∃ r ∈ opcodeMap, r.op = op) ↔ ∃ r, opcodeRow op = some r := by
  simp only [opcodeRow_eq_some]

theorem payloadOk_eq_false {f : Format} {pin : List Byte} : payloadOk f pin = false ↔ f ≠ .p ∧ pin ≠ [] := by
  rw [← Bool.not_eq_true, payloadOk_iff, not_or]

/-- The checks (a) to (d) of R130: when a reason is the first that holds. -/
def Illegal.AppliesTo : Illegal → Transaction → Prop
  | .reservedOpcode, t => ∀ r ∈ opcodeMap, r.op ≠ cmdOp t.cmd
  | .rsvNotZero, t => (∃ r ∈ opcodeMap, r.op = cmdOp t.cmd) ∧ cmdRsv t.cmd ≠ 0
  | .fieldNotZero, t => ∃ r ∈ opcodeMap, r.op = cmdOp t.cmd ∧ cmdRsv t.cmd = 0 ∧ zeroFieldsOk r.format t.cmd = false
  | .payloadNotAllowed, t => ∃ r ∈ opcodeMap, r.op = cmdOp t.cmd ∧ cmdRsv t.cmd = 0 ∧
      zeroFieldsOk r.format t.cmd = true ∧ r.format ≠ .p ∧ t.pin ≠ []

/-- Each answer of the decoder satisfies the condition of its reason and of no other. -/
theorem decode_eq_error (e : Illegal) : decode t = .error e ↔ e.AppliesTo t := by
  cases e <;>
    simp only [Illegal.AppliesTo, ← opcodeRow_eq_none, exists_row_iff, exists_row_op_iff, ← payloadOk_eq_false]
  all_goals
    obtain ⟨hrow, h⟩ | ⟨r, hrow, ⟨hrsv, h⟩ | ⟨hrsv, hzero, h⟩ | ⟨hrsv, hzero, hpay, h⟩ | ⟨hrsv, hzero, hpay, h⟩⟩ :=
      decode_cases t <;> simp_all

/-! ### Masked words (R122, R126) -/

@[simp] theorem cmdOp_and (v w : Word) : cmdOp (v &&& w) = cmdOp v &&& cmdOp w := BitVec.extractLsb'_and
@[simp] theorem cmdBand_and (v w : Word) : cmdBand (v &&& w) = cmdBand v &&& cmdBand w := BitVec.extractLsb'_and
@[simp] theorem cmdRsv_and (v w : Word) : cmdRsv (v &&& w) = cmdRsv v &&& cmdRsv w := BitVec.extractLsb'_and
@[simp] theorem cmdImm_and (v w : Word) : cmdImm (v &&& w) = cmdImm v &&& cmdImm w := BitVec.extractLsb'_and

theorem word_eq_iff_fields {v w : Word} :
    v = w ↔ cmdOp v = cmdOp w ∧ cmdBand v = cmdBand w ∧ cmdRsv v = cmdRsv w ∧ cmdImm v = cmdImm w :=
  ⟨by rintro rfl; simp, fun ⟨hop, hband, hrsv, himm⟩ => word_ext_fields hop hband hrsv himm⟩

theorem rowMatch_eq (r : OpRow) : rowMatch r = encodeWord r.op 0 0 := by
  refine BitVec.eq_of_getLsbD_eq fun i hi => ?_
  simp only [rowMatch, encodeWord, BitVec.getLsbD_append]
  grind

/-- A format's mask keeps OP and RSV, and those of BAND and IMM that the format marks "0". -/
theorem formatMask_fields (f : Format) :
    cmdOp (formatMask f) = BitVec.allOnes 8 ∧
      cmdBand (formatMask f) = (if f.hasBand then 0 else BitVec.allOnes 4) ∧
      cmdRsv (formatMask f) = BitVec.allOnes 4 ∧
      cmdImm (formatMask f) = (if f.hasImm then 0 else BitVec.allOnes 16) := by
  cases f <;> decide

theorem and_mask_eq_zero {n : Nat} {x : BitVec n} {c : Bool} :
    x &&& (if c then 0 else BitVec.allOnes n) = 0 ↔ (c = false → x = 0) := by
  cases c <;> simp

/-- What `(cmd & mask) == match` says of the fields. -/
theorem and_formatMask_eq_iff {f : Format} {op : BitVec 8} {w : Word} :
    w &&& formatMask f = encodeWord op 0 0 ↔ cmdOp w = op ∧ cmdRsv w = 0 ∧ zeroFieldsOk f w = true := by
  obtain ⟨hop, hband, hrsv, himm⟩ := formatMask_fields f
  rw [word_eq_iff_fields, cmdOp_and, cmdBand_and, cmdRsv_and, cmdImm_and, hop, hband, hrsv, himm, cmdOp_encodeWord,
    cmdBand_encodeWord, cmdRsv_encodeWord, cmdImm_encodeWord, BitVec.and_allOnes, BitVec.and_allOnes, and_mask_eq_zero,
    and_mask_eq_zero, zeroFieldsOk_iff]
  tauto

/-- A row's match and mask (R126): the row's opcode, and the checks (b) and (c). -/
theorem row_matches_word_iff {r : OpRow} {w : Word} : ((w &&& formatMask r.format) == rowMatch r) = true ↔
    r.op = cmdOp w ∧ cmdRsv w = 0 ∧ zeroFieldsOk r.format w = true := by
  rw [beq_iff_eq, rowMatch_eq, and_formatMask_eq_iff, eq_comm (a := cmdOp w)]

/-- A transaction is legal exactly when a row matches its word and takes its payload (R130). -/
theorem decodes_iff_rowMatches : (∃ i, decode t = .ok i) ↔ ∃ r ∈ opcodeMap, rowMatches r t = true := by
  simp only [rowMatches, Bool.and_eq_true, row_matches_word_iff, and_assoc, exists_row_iff, decode_eq_ok]
  constructor
  · rintro ⟨i, r, hrow, hrsv, hzero, hpay, -⟩
    exact ⟨r, hrow, hrsv, hzero, hpay⟩
  · rintro ⟨r, hrow, hrsv, hzero, hpay⟩
    exact ⟨_, r, hrow, hrsv, hzero, hpay, rfl⟩

/-- Settles O3: the decoder's reasons are the checks, a row matches what passes them, and CmdError is all that an
illegal transaction does. -/
theorem illegalByTheFourChecks : Obligations.IllegalByTheFourChecks := fun _ =>
  ⟨decode_eq_error .reservedOpcode, decode_eq_error .rsvNotZero, decode_eq_error .fieldNotZero,
    decode_eq_error .payloadNotAllowed, decodes_iff_rowMatches, fun _ _ _ hd hp => Machine.step_illegal hp hd⟩

end Sys2Proof
end

-- Proofs: the opcode map is the table (O4)
section
/-!
The rows of R126 (30_encoding.md) as literals, how many of them match a word, and the reserved opcodes of R131.
-/

namespace Sys2Proof

variable {t : Transaction}

theorem opcodes_nodup : (opcodeMap.map OpRow.op).Nodup := by decide

theorem row_unique {r r' : OpRow} (hr : r ∈ opcodeMap) (hr' : r' ∈ opcodeMap) (hop : r.op = r'.op) : r = r' :=
  Option.some.inj ((opcodeRow_of_mem r hr).symm.trans (hop ▸ opcodeRow_of_mem r' hr'))

/-- One row has an assigned opcode. -/
theorem countP_op_of_mem {r : OpRow} (hr : r ∈ opcodeMap) : opcodeMap.countP (fun r' => r'.op == r.op) = 1 := by
  have hcount := List.count_eq_one_of_mem opcodes_nodup (List.mem_map_of_mem hr)
  rwa [List.count, List.countP_map] at hcount

/-- A legal word is matched by the row of its opcode and by no other. -/
theorem matching_rows_of_ok {i : Instr} (hd : decode t = .ok i) :
    (opcodeMap.filter fun r => (t.cmd &&& formatMask r.format) == rowMatch r).length = 1 := by
  obtain ⟨r, hrow, hrsv, hzero, -, -⟩ := decode_eq_ok.1 hd
  obtain ⟨hmem, hop⟩ := opcodeRow_eq_some.1 hrow
  rw [← List.countP_eq_length_filter, ← countP_op_of_mem hmem]
  refine List.countP_congr fun r' hmem' => ?_
  rw [row_matches_word_iff, beq_iff_eq, hop]
  refine ⟨fun h => h.1, fun hop' => ⟨hop', hrsv, ?_⟩⟩
  rwa [row_unique hmem' hmem (hop'.trans hop.symm)]

/-- A row that matches a word passes the checks (a) to (c), and no other row has the word's opcode. -/
theorem matching_rows_of_error
    (hd : decode t = .error .reservedOpcode ∨ decode t = .error .rsvNotZero ∨ decode t = .error .fieldNotZero) :
    (opcodeMap.filter fun r => (t.cmd &&& formatMask r.format) == rowMatch r) = [] := by
  refine List.filter_eq_nil_iff.2 fun r hmem hmatch => ?_
  obtain ⟨hop, hrsv, hzero⟩ := row_matches_word_iff.1 hmatch
  simp only [decode_eq_error] at hd
  obtain hnone | ⟨-, hrsv'⟩ | ⟨r', hmem', hop', -, hzero'⟩ := hd
  · exact hnone r hmem hop
  · exact hrsv' hrsv
  · rw [row_unique hmem' hmem (hop'.trans hop.symm), hzero] at hzero'
    cases hzero'

/-- The opcodes without a row are the reserved values (R131). -/
theorem opcodeRow_eq_none_iff_reserved (op : BitVec 8) :
    opcodeRow op = none ↔ Machine.reservedOpcodeValue op.toNat := by
  unfold Machine.reservedOpcodeValue
  revert op
  decide

/-- Settles O4: the table by evaluation; the rest by the fields that a row's match and mask compare. -/
theorem opcodeMapIsTheTable : Obligations.OpcodeMapIsTheTable :=
  ⟨rfl, fun _ _ => matching_rows_of_ok, fun _ => matching_rows_of_error,
    fun _ => (decode_eq_error _).trans (opcodeRow_eq_none.symm.trans (opcodeRow_eq_none_iff_reserved _))⟩

end Sys2Proof
end

-- Proofs: the encoding examples (O5)
section
/-! The examples of 30_encoding.md R135: the legal words by the round trip, the illegal ones evaluated. -/

namespace Sys2Proof

/-- The round trip for a word and a payload given as literals. -/
theorem decode_word {i : Instr} {w : Word} {pin : List Byte} (a : Agent)
    (h : i.wellFormed = true ∧ encodeCmd i = w ∧ encodePayload i = pin) : decode ⟨a, w, pin⟩ = .ok i := by
  obtain ⟨hwf, rfl, rfl⟩ := h
  exact decodeEncodeAgree i hwf a

/-- No check reads the issuer, so an illegal word's reason can be evaluated for one agent. -/
theorem decode_issuer (a a' : Agent) (w : Word) (pin : List Byte) : decode ⟨a, w, pin⟩ = decode ⟨a', w, pin⟩ := rfl

/-- Settles O5: what is left to evaluate is the encoder on each legal instruction, and the decoder on each illegal
word. -/
theorem exampleWordsDecode : Obligations.ExampleWordsDecode := by
  intro a
  have illegal (w : Word) (pin : List Byte) := decode_issuer a .controlHost w pin
  refine ⟨decode_word a ?_, decode_word a ?_, decode_word a ?_, decode_word a ?_, decode_word a ?_, decode_word a ?_,
    decode_word a ?_, fun _ => rfl, decode_word a ?_, decode_word a ?_, decode_word a ?_, (illegal _ _).trans ?_,
    (illegal _ _).trans ?_, (illegal _ _).trans ?_, (illegal _ _).trans ?_, (illegal _ _).trans ?_⟩ <;> decide

end Sys2Proof
end

-- Proofs: operands are their fields (O6)
section
/-!
The operands of a decoded instruction as arithmetic on its word (30_encoding.md R123), read off the word that the
encoder writes for it, and the saturation of a gain that is wider than the immediate.
-/

namespace Sys2Proof

variable {t : Transaction}

theorem cmdBand_toNat (w : Word) : (cmdBand w).toNat = w.toNat / 2 ^ 20 % 16 := by
  rw [cmdBand, BitVec.extractLsb'_toNat, Nat.shiftRight_eq_div_pow]

theorem cmdImm_toNat (w : Word) : (cmdImm w).toNat = w.toNat % 65536 := by
  rw [cmdImm, BitVec.extractLsb'_toNat]; rfl

/-- The sign extension of IMM. -/
theorem cmdImm_toInt (w : Word) : (cmdImm w).toInt =
    if w.toNat % 65536 < 32768 then (w.toNat % 65536 : Int) else (w.toNat % 65536 : Int) - 65536 := by
  rw [BitVec.toInt_eq_toNat_cond, cmdImm_toNat]
  split_ifs <;> omega

/-- The fields of a legal word, when the encoder writes `band` and `imm` for its instruction. -/
theorem fields_of_decode {i : Instr} {op : BitVec 8} {band : BitVec 4} {imm : BitVec 16} (hd : decode t = .ok i)
    (hcmd : encodeCmd i = encodeWord op band imm) : cmdBand t.cmd = band ∧ cmdImm t.cmd = imm := by
  obtain ⟨-, hword, -⟩ := decodedTransactionIsTheEncoding t i hd
  rw [← hword, hcmd]
  exact ⟨cmdBand_encodeWord _ _ _, cmdImm_encodeWord _ _ _⟩

theorem wellFormed_of_decode {i : Instr} (hd : decode t = .ok i) : i.wellFormed = true :=
  (decodedTransactionIsTheEncoding t i hd).1

theorem band_of_decode {i : Instr} {op : BitVec 8} {band : Nat} {imm : BitVec 16} (hd : decode t = .ok i)
    (hfits : bandFits band = true) (hcmd : encodeCmd i = encodeWord op (BitVec.ofNat 4 band) imm) :
    band = t.cmd.toNat / 2 ^ 20 % 16 := by
  obtain ⟨hband, -⟩ := fields_of_decode hd hcmd
  rw [← cmdBand_toNat, hband, bandField_toNat hfits]

theorem eqSetGain_operands {band : Nat} {v : Int} (hd : decode t = .ok (.eqSetGain band v)) :
    band = t.cmd.toNat / 2 ^ 20 % 16 ∧
      v = if t.cmd.toNat % 65536 < 32768 then (t.cmd.toNat % 65536 : Int) else (t.cmd.toNat % 65536 : Int) - 65536 := by
  obtain ⟨hband, himm⟩ := Bool.and_eq_true_iff.1 (wellFormed_of_decode hd)
  refine ⟨band_of_decode hd hband rfl, ?_⟩
  rw [← cmdImm_toInt, (fields_of_decode hd rfl).2, gainImmField_toInt himm]

theorem band_operand {band : Nat}
    (hd : decode t = .ok (.eqStepUp band) ∨ decode t = .ok (.eqStepDn band) ∨ decode t = .ok (.eqGetGain band) ∨
      decode t = .ok (.eqGetFreq band) ∨ decode t = .ok (.eqGetType band)) :
    band = t.cmd.toNat / 2 ^ 20 % 16 := by
  obtain hd | hd | hd | hd | hd := hd <;> exact band_of_decode hd (wellFormed_of_decode hd) rfl

theorem timeTick_operand {n : Nat} (hd : decode t = .ok (.timeTick n)) : n = t.cmd.toNat % 65536 := by
  rw [← cmdImm_toNat, (fields_of_decode hd rfl).2, tickImmField_toNat (wellFormed_of_decode hd)]

theorem gainImmFits_saturateImm (v : Int) : gainImmFits (saturateImm v) = true := by
  rw [gainImmFits, Bool.and_eq_true, decide_eq_true_eq, decide_eq_true_eq, saturateImm]
  split_ifs <;> omega

/-- Saturating twice saturates once, so a wider gain is encoded as its saturation is. -/
theorem encodeCmd_eqSetGain_saturateImm (band : Nat) (v : Int) :
    encodeCmd (.eqSetGain band (saturateImm v)) = encodeCmd (.eqSetGain band v) := by
  rw [encodeCmd, encodeCmd, saturateImm_of_fits (gainImmFits_saturateImm v)]

theorem decode_encode_eqSetGain_wide {band : Nat} (hband : bandFits band = true) (v : Int) :
    decode (encode (.eqSetGain band v)) = .ok (.eqSetGain band (saturateImm v)) := by
  have hdec := decode_eqSetGain hband (gainImmFits_saturateImm v) (usualIssuer (.eqSetGain band v))
  rwa [encode, encodeCmd_eqSetGain_saturateImm] at hdec

end Sys2Proof

namespace Sys2Proof.Machine

open Sys2Proof

/-- The clamp to [-12, 12] does not see the saturation to 16 bits. -/
theorem clampGain_saturateImm (v : Int) : clampGain (saturateImm v) = clampGain v := by
  simp only [clampGain, clamp, saturateImm, Config.gainMin, Config.gainMax]
  split_ifs <;> omega

theorem setGain_saturateImm (s : State) (band : Nat) (v : Int) : s.setGain band (saturateImm v) = s.setGain band v := by
  simp only [State.setGain, State.setBandGain, clampGain_saturateImm]

theorem exec_eqSetGain_saturateImm (s : State) (band : Nat) (v : Int) :
    exec (.eqSetGain band (saturateImm v)) s = exec (.eqSetGain band v) s := by
  show execEqSetGain _ _ s = execEqSetGain _ _ s
  rw [execEqSetGain, execEqSetGain, setGain_saturateImm]

/-- Settles O6: a decoded instruction's word holds its operands, and SetGain clamps what the encoder saturates. -/
theorem operandsAreTheirFields : Obligations.OperandsAreTheirFields :=
  ⟨fun _ _ _ => eqSetGain_operands, fun _ _ => band_operand, fun _ _ => timeTick_operand, fun _ v s hband =>
    ⟨_, decode_encode_eqSetGain_wide (decide_eq_true hband) v, exec_eqSetGain_saturateImm s _ v⟩⟩

end Sys2Proof.Machine
end

-- Proofs: out-of-range bands (O7)
section
/-!
Band fields 5 to 15 (30_encoding.md R124): the round trip makes them legal, and SetGain, the gain steps and the band
queries answer (0, []) for them.
-/

namespace Sys2Proof.Machine

open Sys2Proof

variable {band : Nat}

theorem stepGain_out_of_range (h : 4 < band) (s : State) (d : Int) : s.stepGain band d = s := by
  simp [State.stepGain, Band.ofIndex_eq_none.2 h]

theorem bandQuery_out_of_range (h : 4 < band) (value : Band → Word) : bandQuery band value = 0 := by
  simp [bandQuery, Band.ofIndex_eq_none.2 h]

theorem exec_eqSetGain_out_of_range (h : 4 < band) (s : State) (v : Int) :
    exec (.eqSetGain band v) s = .next (s.answer 0 []) := by
  show execEqSetGain band v s = _
  rw [execEqSetGain, State.setGain_out_of_range s h]

theorem exec_gainStep_out_of_range (h : 4 < band) (s : State) :
    exec (.eqStepUp band) s = .next (s.answer 0 []) ∧ exec (.eqStepDn band) s = .next (s.answer 0 []) := by
  show execEqStepUp band s = _ ∧ execEqStepDn band s = _
  rw [execEqStepUp, execEqStepDn, stepGain_out_of_range h, stepGain_out_of_range h]
  exact ⟨rfl, rfl⟩

theorem exec_bandQuery_out_of_range (h : 4 < band) (s : State) :
    exec (.eqGetGain band) s = .next (s.answer 0 []) ∧ exec (.eqGetFreq band) s = .next (s.answer 0 []) ∧
      exec (.eqGetType band) s = .next (s.answer 0 []) := by
  show execEqGetGain band s = _ ∧ execEqGetFreq band s = _ ∧ execEqGetType band s = _
  rw [execEqGetGain, execEqGetFreq, execEqGetType, bandQuery_out_of_range h, bandQuery_out_of_range h,
    bandQuery_out_of_range h]
  exact ⟨rfl, rfl, rfl⟩

/-- Settles O7: such a band fits its field, and every operation by index leaves an index above 4 alone. -/
theorem outOfRangeBandIsIgnored : Obligations.OutOfRangeBandIsIgnored := by
  refine ⟨Band.ofIndex_index, fun n hout hn => ?_⟩
  have hband : bandFits n = true := decide_eq_true hn
  have hsetGain (v : Int) (hlo : -32768 ≤ v) (hhi : v ≤ 32767) : (Instr.eqSetGain n v).wellFormed = true := by
    simp [Instr.wellFormed, gainImmFits, hband, hlo, hhi]
  refine ⟨fun v hlo hhi => decodeEncodeAgree _ (hsetGain v hlo hhi) _, decodeEncodeAgree (.eqStepUp n) hband _,
    decodeEncodeAgree (.eqStepDn n) hband _, decodeEncodeAgree (.eqGetGain n) hband _,
    decodeEncodeAgree (.eqGetFreq n) hband _, decodeEncodeAgree (.eqGetType n) hband _, fun s => ?_⟩
  obtain ⟨hup, hdn⟩ := exec_gainStep_out_of_range hout s
  exact ⟨exec_eqSetGain_out_of_range hout s, hup, hdn, exec_bandQuery_out_of_range hout s⟩

end Sys2Proof.Machine
end

-- Proofs: the general transactions (O10, O12)
section
/-!
The transactions that compute nothing (40_general.md R160, R162; 45_fifo_producer.md R337): each one's next state, in the
model's own state operations; the statements then write those operations out.
-/

namespace Sys2Proof.Machine

open Sys2Proof

theorem exec_nop (s : State) : exec .nop s = .next (s.answer 0 []) := rfl

theorem exec_srcWouldBlock (s : State) : exec .srcWouldBlock s = .next (s.answer 0 []) := rfl

theorem exec_clrErr (s : State) : exec .clrErr s = .next (s.clearCmdErr.answer 0 []) := rfl

/-- Settles O10: both only answer, and an answer writes `res` and `pout` alone. -/
theorem nopAndWouldBlockChangeNothing : Obligations.NopAndWouldBlockChangeNothing := by
  intro s
  rw [exec_nop, exec_srcWouldBlock, State.answer]
  exact ⟨rfl, rfl⟩

/-- Settles O12: CLRERR answers from the state with CMD_ERR cleared. -/
theorem clrErrClearsOnlyCmdErr : Obligations.ClrErrClearsOnlyCmdErr := by
  intro s
  rw [exec_clrErr, State.clearCmdErr, State.answer]

end Sys2Proof.Machine
end

-- Proofs: the equalizer's control transactions (O14 to O18)
section
/-!
The equalizer's control transactions (41_eq_control.md R180 to R202): SetGain by band index with its frame, what a flat
equalizer makes of a buffer, and the word of each query.
-/

namespace Sys2Proof.Machine

open Sys2Proof

variable {s u : State} {n : Nat} {v : Band → Int}

/-! ### SetGain by index (R184) -/

theorem State.SameEq.refl (s : State) : s.SameEq s := ⟨rfl, rfl, rfl, rfl, rfl⟩

theorem Band.index_le (b : Band) : b.index ≤ 4 := by cases b <;> decide

theorem Band.index_inj {b b' : Band} (h : b'.index = b.index) : b' = b :=
  Option.some.inj ((Band.ofIndex_index b').symm.trans (Band.ofIndex_eq_some.2 h))

theorem setGainEffect_out_of_range (h : 4 < n) (v : Band → Int) (s : State) : SetGainEffect n v s s :=
  ⟨rfl, fun _ => State.SameEq.refl s, fun b hb => absurd (hb ▸ b.index_le) (Nat.not_le.2 h)⟩

/-- A gain change has SetGain's effect on the band that changes and leaves the other bands alone. -/
theorem setGainEffect_changeGain {b : Band} (hne : clampGain (v b) ≠ (s.gain.get b).toInt) :
    SetGainEffect b.index v s (s.changeGain b (clampGain (v b))) := by
  refine ⟨rfl, fun hout => absurd b.index_le (Nat.not_le.2 hout), fun b' hb' => ?_⟩
  obtain rfl := Band.index_inj hb'
  refine ⟨fun hheld => absurd hheld hne, fun _ => ⟨?_, ?_, ?_, ?_, ?_, fun b'' hb'' => ?_⟩⟩
  · rw [State.changeGain_gain, PerBand.get_set_same, gain_field_toInt (clampGain_range (v b'))]; rfl
  · simp [Hists.at, zeroHists, PerChannel.get]
  · simp [Hists.at, zeroHists, PerChannel.get]
  · rw [State.changeGain_coef, PerBand.get_set_same]; rfl
  · simp
  · simp [SameBand, hb'']

theorem setGainEffect_setBandGain (v : Band → Int) (s : State) (b : Band) :
    SetGainEffect b.index v s (s.setBandGain b (v b)) := by
  obtain ⟨hheld, hk⟩ | ⟨hne, hk⟩ := s.setBandGain_cases b (v b)
  · rw [hk]
    refine ⟨rfl, fun _ => State.SameEq.refl s, fun b' hb' => ⟨fun _ => State.SameEq.refl s, fun hne => ?_⟩⟩
    obtain rfl := Band.index_inj hb'
    exact absurd hheld hne
  · rw [hk]; exact setGainEffect_changeGain hne

theorem setGainEffect_setGain (s : State) (n : Nat) (v : Int) : SetGainEffect n (fun _ => v) s (s.setGain n v) := by
  obtain ⟨hout, hk⟩ | ⟨b, rfl, hk⟩ := s.setGain_cases n v
  · rw [hk]; exact setGainEffect_out_of_range hout _ s
  · rw [hk]; exact setGainEffect_setBandGain (fun _ => v) s b

theorem setGainEffect_stepGain (s : State) (n : Nat) (d : Int) :
    SetGainEffect n (fun b => (s.gain.get b).toInt + d) s (s.stepGain n d) := by
  obtain ⟨hout, hk⟩ | ⟨b, rfl, hk⟩ := s.stepGain_cases n d
  · rw [hk]; exact setGainEffect_out_of_range hout _ s
  · rw [hk]; exact setGainEffect_setBandGain (fun b => (s.gain.get b).toInt + d) s b

/-- The empty answer from `u` reads in the equalizer and around it as `u` does. -/
theorem answers_setGainEffect (hkeeps : KeepsAllButEq s u) (heffect : SetGainEffect n v s u) :
    ∃ t, (.next (u.answer 0 []) : Host.Outcome State Fault Refusal) = .next t ∧ t.res = 0 ∧ t.pout = [] ∧
      KeepsAllButEq s t ∧ SetGainEffect n v s t :=
  ⟨_, rfl, rfl, rfl, hkeeps, heffect⟩

/-- Settles O16: the three transactions are SetGain by index, which is out of range, or leaves a held gain, or makes the
writes of a gain change. -/
theorem setGainRule : Obligations.SetGainRule := fun s n =>
  ⟨fun v => answers_setGainEffect (keepsAllButEq_setGain s n v) (setGainEffect_setGain s n v),
    answers_setGainEffect (keepsAllButEq_stepGain s n 2) (setGainEffect_stepGain s n 2),
    answers_setGainEffect (keepsAllButEq_stepGain s n (-2)) (setGainEffect_stepGain s n (-2))⟩

/-! ### A flat equalizer (R180, R192, R231) -/

/-- With every gain 0, EQ.PROCESS passes its buffer through, attached or not. -/
theorem exec_eqProcess_of_flat (h : ∀ b : Band, s.gain.get b = 0) (pin : List Byte) :
    exec (.eqProcess pin) s = .next (s.answer 0 pin) :=
  execEqProcess_pass (by rw [s.eqActive_eq_false_iff.2 h, Bool.and_false]) pin

theorem passthrough_eq : Coef.passthrough = ⟨F64.ofInt 1, 0, 0, 0, 0⟩ := by rw [F64.ofInt_one]; rfl

/-- What EQ.FLAT owes a band between two states: the gain 0; a flat band as it was, any other at rest on the ROM's row. -/
def FlattensBand (s u : State) (b : Band) : Prop :=
  u.gain.get b = 0 ∧ (s.gain.get b = 0 → SameBand b s u) ∧
    (s.gain.get b ≠ 0 → u.hist.at b .c0 = Hist.zero ∧ u.hist.at b .c1 = Hist.zero ∧
      u.coef.get b = coefRom s.cfg b 0 ∧ u.undef.get b = false)

theorem flattenAll_flattensBand (s : State) (b : Band) : FlattensBand s s.flattenAll b := by
  obtain ⟨hflat, hkept, hchanged⟩ := s.flattenAll_spec b
  refine ⟨hflat, hkept, fun hne => ?_⟩
  obtain ⟨hhist, hcoef, hundef⟩ := hchanged hne
  have hzero (c : Channel) : s.flattenAll.hist.at b c = Hist.zero := by rw [Hists.at, hhist]; cases c <;> rfl
  exact ⟨hzero .c0, hzero .c1, hcoef, hundef⟩

/-- The empty answer from a state `u` with every band flattened, and the EQ.PROCESS after it. -/
theorem answers_flattened (hattached : u.attached = s.attached) (hkeeps : KeepsAllButEq s u)
    (hbands : ∀ b, FlattensBand s u b) :
    ∃ t, (.next (u.answer 0 []) : Host.Outcome State Fault Refusal) = .next t ∧ t.res = 0 ∧ t.pout = [] ∧
      t.attached = s.attached ∧ KeepsAllButEq s t ∧ (∀ b, FlattensBand s t b) ∧
      ∀ pin : List Byte, exec (.eqProcess pin) t = .next { t with res := 0, pout := pin } :=
  ⟨u.answer 0 [], rfl, rfl, rfl, hattached, hkeeps, hbands, exec_eqProcess_of_flat fun b => (hbands b).1⟩

/-- Settles O17: what the five SetGain(b, 0) leave in each band, and the flat equalizer after them. -/
theorem eqFlatFlattensEveryBand : Obligations.EqFlatFlattensEveryBand := fun s =>
  answers_flattened s.flattenAll_attached (keepsAllButEq_flattenAll s) (flattenAll_flattensBand s)

/-- Settles O14: EQ.INIT writes the same values to every band, all of them flat. -/
theorem eqInitAttachesFlat : Obligations.EqInitAttachesFlat := fun s =>
  ⟨s.initEq.answer 0 [], rfl, rfl, rfl, rfl,
    fun b => ⟨PerBand.get_all 0 b, (PerBand.get_all _ b).trans passthrough_eq, Hists.at_zero b, PerBand.get_all false b⟩,
    keepsAllButEq_initEq s, exec_eqProcess_of_flat (PerBand.get_all 0)⟩

/-- Settles O15: EQ.DETACH writes ATTACHED and UNDEF alone. -/
theorem eqDetachKeepsTheGains : Obligations.EqDetachKeepsTheGains := fun s =>
  ⟨s.detachEq.answer 0 [], rfl, rfl, rfl, rfl, rfl, PerBand.get_all true, keepsAllButEq_detachEq s⟩

/-! ### The queries (R194 to R202) -/

theorem bandQuery_index (b : Band) (value : Band → Word) : bandQuery b.index value = value b := by
  rw [bandQuery, Band.ofIndex_index]

theorem exec_bandQuery_index (s : State) (b : Band) :
    exec (.eqGetGain b.index) s = .next (s.answer (s.gainWord b) []) ∧
      exec (.eqGetFreq b.index) s = .next (s.answer (BitVec.ofNat 32 (bandFreq b)) []) ∧
      exec (.eqGetType b.index) s = .next (s.answer (BitVec.ofNat 32 (typeCode (bandType b))) []) := by
  show execEqGetGain b.index s = _ ∧ execEqGetFreq b.index s = _ ∧ execEqGetType b.index s = _
  rw [execEqGetGain, execEqGetFreq, execEqGetType, bandQuery_index, bandQuery_index, bandQuery_index]
  exact ⟨rfl, rfl, rfl⟩

theorem exec_eqActive (s : State) : exec .eqActive s = .next (s.answer (Word.ofBool s.eqActive) []) := rfl

/-- Settles O18: each query answers its word from the unchanged state; the band table is read band by band. -/
theorem equalizerQueryResults : Obligations.EqualizerQueryResults := by
  refine fun s => ⟨fun b => ?_, rfl, fun hflat => ?_, fun hactive => ?_⟩
  · obtain ⟨hgain, hfreq, htype⟩ := exec_bandQuery_index s b
    rw [hgain, hfreq, htype]
    exact ⟨rfl, by cases b <;> rfl, by cases b <;> rfl⟩
  · rw [exec_eqActive, s.eqActive_eq_false_iff.2 hflat]; rfl
  · rw [exec_eqActive, s.eqActive_iff.2 hactive]; rfl

end Sys2Proof.Machine
end

-- Proofs: where EQ.PROCESS stops (O33)
section
/-!
The two stops of EQ.PROCESS at its first sample (41_eq_control.md R183, 42_eq_process.md R240): the cascade passes the
flat bands and stops at the first other one, and the buffer stops with it.
-/

namespace Sys2Proof.Machine

open Sys2Proof

variable {s : State} {c : Channel} {b : Band} {bs : List Band} {x : F64} {hs : Hists}

/-! ### The cascade's first non-flat band (R232) -/

theorem cascade_undef (hgain : s.gain.get b ≠ 0) (hundef : s.undef.get b = true) :
    cascade s c (b :: bs) x hs = .error .undefState := by
  rw [cascade, if_neg hgain, if_pos hundef]

theorem cascade_nan (hgain : s.gain.get b ≠ 0) (hdef : s.undef.get b = false)
    (hnan : F64.isNaN (recurrence (s.coef.get b) (hs.at b c) x) = true) :
    cascade s c (b :: bs) x hs = .error .nonFinite := by
  rw [cascade, if_neg hgain, hdef, if_neg Bool.false_ne_true]
  exact if_pos hnan

/-- Flat bands in front pass the sample on as it is. -/
theorem cascade_flat_append {front : List Band} (hflat : ∀ b' ∈ front, s.gain.get b' = 0) :
    cascade s c (front ++ bs) x hs = cascade s c bs x hs := by
  induction front with
  | nil => rfl
  | cons a front ih =>
    obtain ⟨ha, hfront⟩ := List.forall_mem_cons.1 hflat
    rw [List.cons_append, cascade, if_pos ha, ih hfront]

/-- The cascade visits a band after the bands of lower index only. -/
theorem Band.all_split (b : Band) :
    ∃ front back, Band.all = front ++ b :: back ∧ ∀ b' ∈ front, b'.index < b.index := by
  cases b with
  | b0 => exact ⟨[], [.b1, .b2, .b3, .b4], rfl, by decide⟩
  | b1 => exact ⟨[.b0], [.b2, .b3, .b4], rfl, by decide⟩
  | b2 => exact ⟨[.b0, .b1], [.b3, .b4], rfl, by decide⟩
  | b3 => exact ⟨[.b0, .b1, .b2], [.b4], rfl, by decide⟩
  | b4 => exact ⟨[.b0, .b1, .b2, .b3], [], rfl, by decide⟩

theorem cascade_all_from (hflat : ∀ b' : Band, b'.index < b.index → s.gain.get b' = 0) :
    ∃ back, ∀ (c : Channel) (x : F64) (hs : Hists), cascade s c Band.all x hs = cascade s c (b :: back) x hs := by
  obtain ⟨front, back, hall, hfront⟩ := b.all_split
  exact ⟨back, fun c x hs => by rw [hall, cascade_flat_append fun b' hb' => hflat b' (hfront b' hb')]⟩

/-! ### A buffer that stops at its first sample (R230) -/

theorem filterBuffer_first_error {a0 a1 b0 b1 : Byte} {rest : List Byte} {f : Fault}
    (h : cascade s .c0 Band.all (F64.ofInt (le16s a0 a1)) hs = .error f) :
    filterBuffer s (a0 :: a1 :: b0 :: b1 :: rest) hs = .error f := by
  simp only [filterBuffer, filterFrame, filterSample, h]

theorem exec_eqProcess_fault (hattached : s.attached = true) (hgain : s.gain.get b ≠ 0) {pin : List Byte} {f : Fault}
    (h : filterBuffer s pin s.hist = .error f) : exec (.eqProcess pin) s = .fault f := by
  have hpath : (s.attached && s.eqActive) = true := by rw [hattached, s.eqActive_iff.2 ⟨b, hgain⟩]; rfl
  show execEqProcess pin s = _
  rw [execEqProcess_filter hpath, processBuffer, h]

/-- Settles O33: at the first non-flat band the cascade stops by that band's UNDEF or NaN, and EQ.PROCESS with it. -/
theorem processStopsByName : Obligations.ProcessStopsByName := by
  intro s b a0 a1 b0 b1 rest hattached hgain hflat
  obtain ⟨back, hfirst⟩ := cascade_all_from hflat
  refine ⟨fun hundef => ?_, fun hdef hnan => ?_⟩
  · exact exec_eqProcess_fault hattached hgain
      (filterBuffer_first_error ((hfirst _ _ _).trans (cascade_undef hgain hundef)))
  · exact exec_eqProcess_fault hattached hgain
      (filterBuffer_first_error ((hfirst _ _ _).trans (cascade_nan hgain hdef hnan)))

end Sys2Proof.Machine
end

-- Proofs: the channels never cross (O30)
section
/-!
The channels never cross (42_eq_process.md R234). For EQ.PROCESS: the cascade on one channel reads and writes that
channel's histories only, so two frames, and then two buffers, that agree on a channel's bytes give the same bytes and
histories of that channel. For the other instructions: the relation of two states that agree on one channel is kept by
the equalizer's operations, and the FIFO unit does not touch what it reads.
-/

namespace Sys2Proof.Machine

open Sys2Proof

variable {s s' t t' u u' : State} {c : Channel} {i : Instr}

/-! ### One channel's bytes (R83) -/

/-- Two byte lists with the same bytes at the places of one channel. -/
def SameBytesOn (c : Channel) (p p' : List Byte) : Prop := ∀ j : Nat, j % 4 / 2 = c.index → p'[j]? = p[j]?

theorem SameBytesOn.refl (c : Channel) (p : List Byte) : SameBytesOn c p p := fun _ _ => rfl

/-- A frame and what follows it agree on a channel each for itself. -/
theorem sameBytesOn_append {p p' q q' : List Byte} (hp : p.length = 4) (hp' : p'.length = 4) :
    SameBytesOn c (p ++ q) (p' ++ q') ↔ SameBytesOn c p p' ∧ SameBytesOn c q q' := by
  have hrest (j : Nat) : (p ++ q)[j + 4]? = q[j]? ∧ (p' ++ q')[j + 4]? = q'[j]? := by
    rw [List.getElem?_append_right (by omega), List.getElem?_append_right (by omega), hp, hp', Nat.add_sub_cancel]
    exact ⟨rfl, rfl⟩
  have hframe {j : Nat} (hj : j < 4) : (p ++ q)[j]? = p[j]? ∧ (p' ++ q')[j]? = p'[j]? :=
    ⟨List.getElem?_append_left (by omega), List.getElem?_append_left (by omega)⟩
  constructor
  · refine fun h => ⟨fun j hj => ?_, fun j hj => ?_⟩
    · rcases Nat.lt_or_ge j 4 with hlt | hge
      · rw [← (hframe hlt).1, ← (hframe hlt).2, h j hj]
      · rw [List.getElem?_eq_none (by omega), List.getElem?_eq_none (by omega)]
    · rw [← (hrest j).1, ← (hrest j).2, h (j + 4) (by rwa [Nat.add_mod_right])]
  · rintro ⟨h, h'⟩ j hj
    rcases Nat.lt_or_ge j 4 with hlt | hge
    · rw [(hframe hlt).1, (hframe hlt).2, h j hj]
    · obtain ⟨j, rfl⟩ := Nat.exists_eq_add_of_le' hge
      rw [(hrest j).1, (hrest j).2, h' j (by rwa [Nat.add_mod_right] at hj)]

/-- The channel's sample in a frame: its first two bytes, or its last two. -/
theorem sameBytesOn_frame {a0 a1 b0 b1 a0' a1' b0' b1' : Byte}
    (h : SameBytesOn c [a0, a1, b0, b1] [a0', a1', b0', b1']) :
    (c = .c0 → a0' = a0 ∧ a1' = a1) ∧ (c = .c1 → b0' = b0 ∧ b1' = b1) := by
  constructor
  · rintro rfl; exact ⟨by simpa using h 0 rfl, by simpa using h 1 rfl⟩
  · rintro rfl; exact ⟨by simpa using h 2 rfl, by simpa using h 3 rfl⟩

theorem sameBytesOn_c0 {p q q' : List Byte} (hp : p.length = 2) (hq : q.length = 2) (hq' : q'.length = 2) :
    SameBytesOn .c0 (p ++ q) (p ++ q') := by
  intro j hj
  rcases Nat.lt_or_ge j 4 with hlt | hge
  · have hj2 : j < p.length := by simp only [Channel.index] at hj; omega
    rw [List.getElem?_append_left hj2, List.getElem?_append_left hj2]
  · rw [List.getElem?_eq_none (by simp; omega), List.getElem?_eq_none (by simp; omega)]

theorem sameBytesOn_c1 {p p' q : List Byte} (hp : p.length = 2) (hp' : p'.length = 2) :
    SameBytesOn .c1 (p ++ q) (p' ++ q) := by
  intro j hj
  have hj2 : 2 ≤ j := by simp only [Channel.index] at hj; omega
  rw [List.getElem?_append_right (by omega), List.getElem?_append_right (by omega), hp, hp']

/-- Two histories that agree on one channel. -/
def SameHistsOn (c : Channel) (hs hs' : Hists) : Prop := ∀ b : Band, hs'.at b c = hs.at b c

theorem SameHistsOn.symm {hs hs' : Hists} (h : SameHistsOn c hs hs') : SameHistsOn c hs' hs := fun b => (h b).symm

theorem SameHistsOn.trans {hs hs' hs'' : Hists} (h : SameHistsOn c hs hs') (h' : SameHistsOn c hs' hs'') :
    SameHistsOn c hs hs'' := fun b => (h' b).trans (h b)

/-! ### EQ.PROCESS (R230, R234) -/

/-- The other channel's cascade leaves this channel's histories alone. -/
theorem cascade_sameHistsOn_other {c' : Channel} (hc : c ≠ c') {bs : List Band} {v w : F64} {hs hs' : Hists}
    (h : cascade s c' bs v hs = .ok (w, hs')) : SameHistsOn c hs hs' :=
  fun b => cascade_at_other h b c (.inl hc)

/-- Two frames that agree on a channel, filtered from histories that agree on it: so do the outputs and the histories
left. Each channel's sample goes through that channel's cascade only. -/
theorem filterFrame_channel {a0 a1 b0 b1 a0' a1' b0' b1' : Byte} {out out' : List Byte} {hs hs' hs1 hs1' : Hists}
    (hp : SameBytesOn c [a0, a1, b0, b1] [a0', a1', b0', b1']) (hh : SameHistsOn c hs hs')
    (h : filterFrame s a0 a1 b0 b1 hs = .ok (out, hs1)) (h' : filterFrame s a0' a1' b0' b1' hs' = .ok (out', hs1')) :
    SameBytesOn c out out' ∧ SameHistsOn c hs1 hs1' := by
  obtain ⟨v, w, m, hc0, hc1, rfl⟩ := filterFrame_ok h
  obtain ⟨v', w', m', hc0', hc1', rfl⟩ := filterFrame_ok h'
  obtain ⟨hp0, hp1⟩ := sameBytesOn_frame hp
  cases c with
  | c0 =>
    obtain ⟨rfl, rfl⟩ := hp0 rfl
    obtain ⟨rfl, hm⟩ := cascade_channel hh hc0 hc0'
    have hk := cascade_sameHistsOn_other (c := .c0) (by decide) hc1
    have hk' := cascade_sameHistsOn_other (c := .c0) (by decide) hc1'
    exact ⟨sameBytesOn_c0 (by simp) (by simp) (by simp), hk.symm.trans (SameHistsOn.trans hm hk')⟩
  | c1 =>
    obtain ⟨rfl, rfl⟩ := hp1 rfl
    have hm := cascade_sameHistsOn_other (c := .c1) (by decide) hc0
    have hm' := cascade_sameHistsOn_other (c := .c1) (by decide) hc0'
    obtain ⟨rfl, hk⟩ := cascade_channel (hm.symm.trans (hh.trans hm')) hc1 hc1'
    exact ⟨sameBytesOn_c1 (by simp) (by simp), hk⟩

theorem filterFrame_length {a0 a1 b0 b1 : Byte} {out : List Byte} {hs hs' : Hists}
    (h : filterFrame s a0 a1 b0 b1 hs = .ok (out, hs')) : out.length = 4 := by
  obtain ⟨v, w, -, -, -, rfl⟩ := filterFrame_ok h
  simp

/-- Two buffers of one length that agree on a channel, frame by frame; a partial frame comes back as it is. -/
theorem filterBuffer_channel : ∀ {pin pin' out out' : List Byte} {hs hs' hs1 hs1' : Hists},
    pin'.length = pin.length → SameBytesOn c pin pin' → SameHistsOn c hs hs' →
    filterBuffer s pin hs = .ok (out, hs1) → filterBuffer s pin' hs' = .ok (out', hs1') →
      SameBytesOn c out out' ∧ SameHistsOn c hs1 hs1'
  | a0 :: a1 :: b0 :: b1 :: rest, a0' :: a1' :: b0' :: b1' :: rest', _, _, _, _, _, _, hlen, hp, hh, h, h' => by
    obtain ⟨o, k, o2, hframe, hrest, rfl⟩ := filterBuffer_cons_ok h
    obtain ⟨o', k', o2', hframe', hrest', rfl⟩ := filterBuffer_cons_ok h'
    obtain ⟨hp4, hp⟩ := (sameBytesOn_append (p := [a0, a1, b0, b1]) (p' := [a0', a1', b0', b1']) rfl rfl).1 hp
    obtain ⟨ho4, hk⟩ := filterFrame_channel hp4 hh hframe hframe'
    obtain ⟨ho, hh1⟩ := filterBuffer_channel (by simpa using hlen) hp hk hrest hrest'
    exact ⟨(sameBytesOn_append (filterFrame_length hframe) (filterFrame_length hframe')).2 ⟨ho4, ho⟩, hh1⟩
  | [], pin', _, _, _, _, _, _, hlen, hp, hh, h, h' | [_], pin', _, _, _, _, _, _, hlen, hp, hh, h, h'
  | [_, _], pin', _, _, _, _, _, _, hlen, hp, hh, h, h' | [_, _, _], pin', _, _, _, _, _, _, hlen, hp, hh, h, h' => by
    rw [filterBuffer_short s (by rw [hlen]; simp)] at h'
    cases h; cases h'
    exact ⟨hp, hh⟩

/-- Two EQ.PROCESS from states that agree on a channel, with payloads that agree on it: so do the answers and the states
left. -/
theorem execEqProcess_channel {pin pin' : List Byte} (hs : SameChannel c s s') (hlen : pin'.length = pin.length)
    (hp : SameBytesOn c pin pin') (h : execEqProcess pin s = .next t) (h' : execEqProcess pin' s' = .next t') :
    SameBytesOn c t.pout t'.pout ∧ SameChannel c t t' := by
  obtain ⟨hgain, hcoef, hundef, hattached, hhist⟩ := hs
  have hpath : (s'.attached && s'.eqActive) = (s.attached && s.eqActive) := by simp [State.eqActive, hgain, hattached]
  obtain ⟨hpass, rfl⟩ | ⟨hfilter, out, hs1, hf, rfl⟩ := execEqProcess_next h
  · obtain ⟨-, rfl⟩ | ⟨hfilter', -⟩ := execEqProcess_next h'
    · exact ⟨hp, hgain, hcoef, hundef, hattached, hhist⟩
    · rw [hpath, hpass] at hfilter'; cases hfilter'
  · obtain ⟨hpass', -⟩ | ⟨-, out', hs1', hf', rfl⟩ := execEqProcess_next h'
    · rw [hpath, hfilter] at hpass'; cases hpass'
    · rw [filterBuffer_congr hgain hundef fun b _ => by rw [hcoef]] at hf'
      obtain ⟨ho, hh1⟩ := filterBuffer_channel hlen hp hhist hf hf'
      exact ⟨ho, hgain, hcoef, hundef, hattached, hh1⟩

/-! ### Relations that a gain change keeps (R184) -/

/-- A relation of two states that agree on the gains, kept by a gain change made in both. -/
structure KeptByGainChange (rel : State → State → Prop) : Prop where
  gain : ∀ {s s' : State}, rel s s' → s'.gain = s.gain
  changeGain : ∀ {s s' : State}, rel s s' → ∀ (b : Band) (g : Int), rel (s.changeGain b g) (s'.changeGain b g)

section
variable {rel : State → State → Prop}

theorem KeptByGainChange.setBandGain (hrel : KeptByGainChange rel) (h : rel s s') (b : Band) (v : Int) :
    rel (s.setBandGain b v) (s'.setBandGain b v) := by
  unfold State.setBandGain
  rw [hrel.gain h]
  split_ifs
  · exact h
  · exact hrel.changeGain h b _

theorem KeptByGainChange.setGain (hrel : KeptByGainChange rel) (h : rel s s') (band : Nat) (v : Int) :
    rel (s.setGain band v) (s'.setGain band v) := by
  unfold State.setGain
  split
  · exact h
  · exact hrel.setBandGain h _ v

theorem KeptByGainChange.stepGain (hrel : KeptByGainChange rel) (h : rel s s') (band : Nat) (d : Int) :
    rel (s.stepGain band d) (s'.stepGain band d) := by
  unfold State.stepGain
  rw [hrel.gain h]
  split
  · exact h
  · exact hrel.setBandGain h _ _

theorem KeptByGainChange.foldl_setBandGain (hrel : KeptByGainChange rel) (v : Int) :
    ∀ (bands : List Band) {s s' : State}, rel s s' →
      rel (bands.foldl (fun t b => t.setBandGain b v) s) (bands.foldl (fun t b => t.setBandGain b v) s')
  | [], _, _, h => h
  | b :: bands, _, _, h => hrel.foldl_setBandGain v bands (hrel.setBandGain h b v)

theorem KeptByGainChange.flattenAll (hrel : KeptByGainChange rel) (h : rel s s') :
    rel s.flattenAll s'.flattenAll := hrel.foldl_setBandGain 0 Band.all h

end

/-! ### Two states that agree on a channel and on COEF_ROM -/

/-- States that agree on all that one channel's samples pass through, now and after a gain change (R234, R280). -/
structure ChannelAgrees (c : Channel) (s s' : State) : Prop where
  channel : SameChannel c s s'
  rom : s'.cfg.coefRom = s.cfg.coefRom

theorem ChannelAgrees.initEq (h : ChannelAgrees c s s') : ChannelAgrees c s.initEq s'.initEq :=
  ⟨⟨rfl, rfl, rfl, rfl, fun _ => rfl⟩, h.rom⟩

theorem ChannelAgrees.detachEq (h : ChannelAgrees c s s') : ChannelAgrees c s.detachEq s'.detachEq := by
  obtain ⟨⟨hgain, hcoef, -, -, hhist⟩, hrom⟩ := h
  exact ⟨⟨hgain, hcoef, rfl, rfl, hhist⟩, hrom⟩

/-- A gain change zeroes the band's histories and leaves the others, on either channel. -/
theorem changeGain_hist_at (s : State) (b b' : Band) (g : Int) (c : Channel) :
    (s.changeGain b g).hist.at b' c = if b' = b then Hist.zero else s.hist.at b' c := by
  rw [State.changeGain_hist, Hists.at, PerBand.get_set]
  split_ifs
  · cases c <;> rfl
  · rfl

theorem ChannelAgrees.changeGain (h : ChannelAgrees c s s') (b : Band) (g : Int) :
    ChannelAgrees c (s.changeGain b g) (s'.changeGain b g) := by
  obtain ⟨⟨hgain, hcoef, hundef, hattached, hhist⟩, hrom⟩ := h
  refine ⟨⟨?_, ?_, ?_, hattached, fun b' => ?_⟩, hrom⟩
  · rw [State.changeGain_gain, State.changeGain_gain, hgain]
  · rw [State.changeGain_coef, State.changeGain_coef, hcoef, coefRom, coefRom, hrom]
  · rw [State.changeGain_undef, State.changeGain_undef, hundef]
  · rw [changeGain_hist_at, changeGain_hist_at, hhist]

theorem channelAgrees_keptByGainChange (c : Channel) : KeptByGainChange (ChannelAgrees c) where
  gain := fun ⟨⟨hgain, _⟩, _⟩ => hgain
  changeGain := ChannelAgrees.changeGain

theorem SameChannel.of_sameEq (h : SameChannel c s s') (ht : s.SameEq t) (ht' : s'.SameEq t') : SameChannel c t t' := by
  obtain ⟨hgain, hcoef, hhist, hundef, hattached⟩ := ht
  obtain ⟨hgain', hcoef', hhist', hundef', hattached'⟩ := ht'
  rw [SameChannel, hgain, hcoef, hhist, hundef, hattached, hgain', hcoef', hhist', hundef', hattached']
  exact h

/-- The answer is none of what a channel passes through. -/
theorem SameChannel.of_next (hu : SameChannel c u u') {r r' : Word} {p p' : List Byte}
    (h : (.next (u.answer r p) : Host.Outcome State Fault Refusal) = .next t)
    (h' : (.next (u'.answer r' p') : Host.Outcome State Fault Refusal) = .next t') : SameChannel c t t' := by
  cases h; cases h'; exact hu

theorem ChannelAgrees.exec_equalizer (hs : ChannelAgrees c s s') (hi : isEqualizerInstr i = true)
    (h : exec i s = .next t) (h' : exec i s' = .next t') : SameChannel c t t' := by
  have hkept := channelAgrees_keptByGainChange c
  cases i, hi using equalizerInstr_cases with
  | eqInit => exact hs.initEq.channel.of_next h h'
  | eqDetach => exact hs.detachEq.channel.of_next h h'
  | eqSetGain band imm => exact (hkept.setGain hs band imm).channel.of_next h h'
  | eqStepUp band => exact (hkept.stepGain hs band _).channel.of_next h h'
  | eqStepDn band => exact (hkept.stepGain hs band _).channel.of_next h h'
  | eqFlat => exact (hkept.flattenAll hs).channel.of_next h h'
  | eqGetGain | eqNBands | eqGetFreq | eqGetType | eqActive => exact hs.channel.of_next h h'
  | eqProcess pin => exact (execEqProcess_channel hs.channel rfl (SameBytesOn.refl c pin) h h').2

/-- Every other instruction leaves the equalizer alone. -/
theorem exec_sameEq (hi : isEqualizerInstr i = false) (h : exec i s = .next t) : s.SameEq t := by
  cases hf : isFifoInstr i with
  | true => exact (exec_fifo_keepsAllButFifo hf h).1
  | false => exact (exec_general_keepsUnits hi hf h).1

theorem ChannelAgrees.exec (hs : ChannelAgrees c s s') (h : exec i s = .next t) (h' : exec i s' = .next t') :
    ChannelAgrees c t t' where
  channel := by
    cases hi : isEqualizerInstr i with
    | true => exact hs.exec_equalizer hi h h'
    | false => exact hs.channel.of_sameEq (exec_sameEq hi h) (exec_sameEq hi h')
  rom := by
    obtain ⟨hcfg, -⟩ := exec_sameEnv h
    obtain ⟨hcfg', -⟩ := exec_sameEnv h'
    rw [hcfg, hcfg', hs.rom]

/-- Settles O30: EQ.PROCESS by frames, each channel's cascade on its own; the other instructions by the operations they
are made of. -/
theorem channelsNeverCross : Obligations.ChannelsNeverCross :=
  ⟨fun _ _ _ _ _ _ _ hs hlen hp h h' => execEqProcess_channel hs hlen hp h h',
    fun _ _ _ _ _ _ hs hrom h h' =>
      have hagree := ChannelAgrees.exec ⟨hs, hrom⟩ h h'
      ⟨hagree.channel, hagree.rom⟩⟩

end Sys2Proof.Machine
end

-- Proofs: a bounded cascade completes (O22, O37)
section
/-!
When the cascade completes (42_eq_process.md R232, R233, R240): a bound on the value that enters each band, carried from
band to band, rules out a NaN. With the default COEF_ROM the histories stay bounded too, so no run from reset stops; in
a single frame the sample's value and the histories are those of the recurrence.
-/

namespace Sys2Proof.Machine

open Sys2Proof

variable {s t u : State} {c : Channel} {i : Instr}

/-! ### Bounds on values (R13) -/

/-- A magnitude within 2^k, as a rational bound. -/
theorem bounded_of_within {k : Nat} (hk : k ≤ 1000) {x : F64} (h : within k x = true) : F64.Bounded (2 ^ k) x := by
  have hmag : F64.magBits x ≤ (k + 1023) * 2 ^ 52 := of_decide_eq_true h
  have hunits : F64.unitsOf ((k + 1023) * 2 ^ 52) = 2 ^ k * 2 ^ 1074 := by
    rw [show (k + 1023) * 2 ^ 52 = (k + 1022) * 2 ^ 52 + 2 ^ 52 by ring,
      F64.unitsOf_encode (by norm_num) (fun _ => le_rfl), ← pow_add, ← pow_add,
      show 52 + (k + 1022) = k + 1074 by omega]
  constructor
  · rw [F64.isFinite, decide_eq_true_eq, F64.infBits]; omega
  · have hle := F64.unitsOf_mono hmag
    rw [hunits] at hle
    have hcast : ((F64.unitsOf (F64.magBits x) : Nat) : ℚ) ≤ ((2 ^ k * 2 ^ 1074 : Nat) : ℚ) := Nat.cast_le.2 hle
    rw [← F64.unitsOf_div, div_le_iff₀ (by positivity)]
    rwa [Nat.cast_mul, Nat.cast_pow, Nat.cast_pow, Nat.cast_ofNat] at hcast

theorem bounded_two_pow_mono {m n : Nat} (h : m ≤ n) {x : F64} : F64.Bounded (2 ^ m) x → F64.Bounded (2 ^ n) x
  | ⟨hfin, hle⟩ => ⟨hfin, hle.trans (pow_le_pow_right₀ (by norm_num) h)⟩

/-- A sample's value is an integer of 16 bits (R235). -/
theorem sample_bounded (a b : Byte) : F64.Bounded (2 ^ 15) (F64.ofInt (le16s a b)) := by
  have hlo : -2 ^ 15 ≤ le16s a b := BitVec.le_toInt _
  have hhi : le16s a b < 2 ^ 15 := BitVec.toInt_lt
  obtain ⟨hfin, hnum, -⟩ := F64.ofInt_exact (n := le16s a b) (by omega)
  have hval : F64.val (F64.ofInt (le16s a b)) = le16s a b := by
    rw [F64.val, hnum, F64.unitsPerOne_eq, Int.cast_mul, Int.cast_natCast, Nat.cast_pow, Nat.cast_ofNat,
      mul_div_cancel_right₀ _ (by positivity)]
  refine ⟨hfin, ?_⟩
  rw [hval, abs_le]
  exact ⟨by exact_mod_cast hlo, by exact_mod_cast hhi.le⟩

/-! ### Carrying a bound through the cascade (R232) -/

section
variable {b : Band} {bs : List Band} {v : F64} {hs : Hists}

/-- A flat band passes its input on. -/
theorem cascade_flat (hflat : s.gain.get b = 0) : cascade s c (b :: bs) v hs = cascade s c bs v hs := by
  rw [cascade, if_pos hflat]

/-- A defined band that is not flat passes its output on, with its history shifted, when the output is no NaN. -/
theorem cascade_filtered (hgain : s.gain.get b ≠ 0) (hdef : s.undef.get b = false)
    (hnan : F64.isNaN (biquad (s.coef.get b) (hs.at b c) v).1 = false) :
    cascade s c (b :: bs) v hs =
      cascade s c bs (biquad (s.coef.get b) (hs.at b c) v).1 (hs.put b c (biquad (s.coef.get b) (hs.at b c) v).2) := by
  rw [cascade, if_neg hgain, hdef, if_neg Bool.false_ne_true]
  dsimp only
  rw [hnan, if_neg Bool.false_ne_true]

/-- Bands with rising indices: the first does not come again. -/
theorem not_mem_of_row {n : Nat} (hrow : bs.map Band.index = List.range' (b.index + 1) n) : b ∉ bs := by
  intro hmem
  have hindex := List.mem_map_of_mem (f := Band.index) hmem
  rw [hrow, List.mem_range'_1] at hindex
  omega

end

/-- `I k` bounds the value that enters the band of index `k`, `P` the histories of the bands that are not flat. A flat
band passes its input on; any other is defined, answers no NaN within the next bound, and leaves a history with `Q`. -/
structure CarriesBounds (s : State) (I : Nat → F64 → Prop) (P Q : Band → Hist → Prop) : Prop where
  flat : ∀ {k : Nat} {v : F64}, I k v → I (k + 1) v
  filter : ∀ {b : Band} {v : F64} {h : Hist}, s.gain.get b ≠ 0 → I b.index v → P b h →
    s.undef.get b = false ∧ F64.isNaN (biquad (s.coef.get b) h v).1 = false ∧
      I (b.index + 1) (biquad (s.coef.get b) h v).1 ∧ Q b (biquad (s.coef.get b) h v).2

/-- With bounds carried from band to band, the cascade of bands in a row completes. -/
theorem CarriesBounds.cascade_completes {I : Nat → F64 → Prop} {P Q : Band → Hist → Prop}
    (hcarry : CarriesBounds s I P Q) :
    ∀ {bs : List Band} {k : Nat} {v : F64} {hs : Hists}, bs.map Band.index = List.range' k bs.length → I k v →
      (∀ b ∈ bs, s.gain.get b ≠ 0 → P b (hs.at b c)) →
        ∃ w hs', cascade s c bs v hs = .ok (w, hs') ∧ ∀ b ∈ bs, s.gain.get b ≠ 0 → Q b (hs'.at b c)
  | [], _, v, hs, _, _, _ => ⟨v, hs, rfl, nofun⟩
  | b :: bs, k, v, hs, hrow, hv, hP => by
    rw [List.map_cons, List.length_cons, List.range'_succ, List.cons.injEq] at hrow
    obtain ⟨rfl, hrow⟩ := hrow
    have hb := not_mem_of_row hrow
    obtain ⟨hPb, hPs⟩ := List.forall_mem_cons.1 hP
    by_cases hflat : s.gain.get b = 0
    · obtain ⟨w, hs', hc, hQ⟩ := hcarry.cascade_completes hrow (hcarry.flat hv) hPs
      rw [cascade_flat hflat]
      exact ⟨w, hs', hc, List.forall_mem_cons.2 ⟨fun hne => absurd hflat hne, hQ⟩⟩
    · obtain ⟨hdef, hnan, hy, hQb⟩ := hcarry.filter hflat hv (hPb hflat)
      obtain ⟨w, hs', hc, hQ⟩ := hcarry.cascade_completes
        (hs := hs.put b c (biquad (s.coef.get b) (hs.at b c) v).2) hrow hy fun b' hb' hne => by
          rw [Hists.at_put_other _ _ (.inl (ne_of_mem_of_not_mem hb' hb))]; exact hPs b' hb' hne
      rw [cascade_filtered hflat hdef hnan]
      refine ⟨w, hs', hc, List.forall_mem_cons.2 ⟨fun _ => ?_, hQ⟩⟩
      rw [cascade_at_other hc b c (.inr (.inr hb)), Hists.at_put_same]
      exact hQb

/-- The whole cascade, from its first band. -/
theorem CarriesBounds.cascade_all {I : Nat → F64 → Prop} {P Q : Band → Hist → Prop} (hcarry : CarriesBounds s I P Q)
    {v : F64} {hs : Hists} (hv : I 0 v) (hP : ∀ b : Band, s.gain.get b ≠ 0 → P b (hs.at b c)) :
    ∃ w hs', cascade s c Band.all v hs = .ok (w, hs') ∧ ∀ b : Band, s.gain.get b ≠ 0 → Q b (hs'.at b c) := by
  obtain ⟨w, hs', hc, hQ⟩ := hcarry.cascade_completes (c := c) (bs := Band.all) rfl hv fun b _ => hP b
  exact ⟨w, hs', hc, fun b => hQ b (Band.mem_all b)⟩

/-- A frame whose two cascades complete. -/
theorem filterFrame_of_cascades {a0 a1 b0 b1 : Byte} {hs hs0 hs1 : Hists} {v w : F64}
    (h0 : cascade s .c0 Band.all (F64.ofInt (le16s a0 a1)) hs = .ok (v, hs0))
    (h1 : cascade s .c1 Band.all (F64.ofInt (le16s b0 b1)) hs0 = .ok (w, hs1)) :
    filterFrame s a0 a1 b0 b1 hs = .ok (sampleOut v ++ sampleOut w, hs1) := by
  simp only [filterFrame, filterSample, h0, h1]

/-- A property of the histories under which every sample completes, and which it keeps: every buffer completes. -/
theorem filterBuffer_completes {P : Hists → Prop}
    (hP : ∀ (c : Channel) (a b : Byte) (hs : Hists), P hs →
      ∃ w hs', cascade s c Band.all (F64.ofInt (le16s a b)) hs = .ok (w, hs') ∧ P hs') :
    ∀ {pin : List Byte} {hs : Hists}, P hs → ∃ out hs', filterBuffer s pin hs = .ok (out, hs') ∧ P hs'
  | [], hs, h | [_], hs, h | [_, _], hs, h | [_, _, _], hs, h => ⟨_, hs, rfl, h⟩
  | a0 :: a1 :: b0 :: b1 :: rest, hs, h => by
    obtain ⟨v, hs0, hc0, h0⟩ := hP .c0 a0 a1 hs h
    obtain ⟨w, hs1, hc1, h1⟩ := hP .c1 b0 b1 hs0 h0
    obtain ⟨out, hs2, hrest, h2⟩ := filterBuffer_completes hP (pin := rest) h1
    have hall : filterBuffer s (a0 :: a1 :: b0 :: b1 :: rest) hs = .ok (sampleOut v ++ sampleOut w ++ out, hs2) := by
      simp only [filterBuffer, filterFrame_of_cascades hc0 hc1, hrest]
    exact ⟨_, hs2, hall, h2⟩

/-- EQ.PROCESS on the filtering path, its buffer completing. -/
theorem exec_eqProcess_filtered {pin out : List Byte} {hists : Hists} (hpath : (s.attached && s.eqActive) = true)
    (hf : filterBuffer s pin s.hist = .ok (out, hists)) :
    exec (.eqProcess pin) s = .next (State.answer { s with hist := hists } 0 out) := by
  show execEqProcess pin s = _
  rw [execEqProcess_filter hpath, processBuffer, hf]

/-! ### The default table (R240, R289) -/

/-- Every band that is not flat has histories as a stable row keeps them. -/
def State.HistsBounded (s : State) (hs : Hists) : Prop :=
  ∀ (b : Band) (c : Channel), s.gain.get b ≠ 0 → BandBounded (s.coef.get b) (bandLimit b) (hs.at b c)

/-- The third clause of `RunInv`: bounded histories in the defined bands that are not flat. -/
def State.DefinedBounded (s : State) : Prop := ∀ (b : Band) (c : Channel), s.gain.get b ≠ 0 → s.undef.get b = false →
  BandBounded (s.coef.get b) (bandLimit b) (s.hist.at b c)

theorem one_le_bandLimit (b : Band) : 1 ≤ bandLimit b := one_le_pow₀ (by norm_num)

theorem bandLimit_le (b : Band) : bandLimit b ≤ 2 ^ 700 :=
  pow_le_pow_right₀ (by norm_num) (by have := b.index_le; omega)

/-- The row of a defined band that is not flat is one of the default table, hence stable. -/
theorem State.RunInv.coef_stable (hs : s.RunInv) {b : Band} (hgain : s.gain.get b ≠ 0)
    (hdef : s.undef.get b = false) : (s.coef.get b).Stable := by
  rw [hs.inv.coefs b hgain hdef]
  exact coefRom_stable hs.rom b (hs.inv.gains b).2

/-- Attached, each band's output is at most 2^21 times its input, and the histories stay bounded. -/
theorem State.RunInv.carriesBounds (hs : s.RunInv) (hattached : s.attached = true) :
    CarriesBounds s (fun k v => F64.Bounded (2 ^ (15 + 21 * k)) v)
      (fun b h => BandBounded (s.coef.get b) (bandLimit b) h)
      (fun b h => BandBounded (s.coef.get b) (bandLimit b) h) where
  flat := bounded_two_pow_mono (by omega)
  filter {b v h} hgain hv hh := by
    have hdef := hs.inv.defined hattached b
    obtain ⟨hy, hh'⟩ := biquad_bounded (hs.coef_stable hgain hdef) (one_le_bandLimit b) (bandLimit_le b) hv hh
    refine ⟨hdef, F64.isNaN_of_isFinite hy.1, ?_, hh'⟩
    have hlimit : (2 : ℚ) ^ (15 + 21 * (b.index + 1)) = 2 ^ 21 * bandLimit b := by
      rw [bandLimit, ← pow_add]; congr 1; omega
    rwa [hlimit]

/-- Attached, a sample completes and keeps the histories of both channels bounded. -/
theorem State.RunInv.cascade_completes (hs : s.RunInv) (hattached : s.attached = true) (c : Channel) (a b : Byte)
    (hists : Hists) (hh : s.HistsBounded hists) :
    ∃ w hists', cascade s c Band.all (F64.ofInt (le16s a b)) hists = .ok (w, hists') ∧ s.HistsBounded hists' := by
  obtain ⟨w, hists', hc, hh'⟩ := (hs.carriesBounds hattached).cascade_all (c := c) (sample_bounded a b)
    fun b hgain => hh b c hgain
  refine ⟨w, hists', hc, fun b' c' hgain => ?_⟩
  by_cases hcc : c' = c
  · rw [hcc]; exact hh' b' hgain
  · rw [cascade_at_other hc b' c' (.inl hcc)]; exact hh b' c' hgain

/-- EQ.PROCESS completes: passed through, or filtered within the bounds. -/
theorem State.RunInv.eqProcess_completes (hs : s.RunInv) (pin : List Byte) :
    ∃ t, exec (.eqProcess pin) s = .next t ∧ t.DefinedBounded := by
  cases hp : (s.attached && s.eqActive) with
  | false => exact ⟨_, execEqProcess_pass hp pin, hs.bounded⟩
  | true =>
    obtain ⟨hattached, -⟩ := Bool.and_eq_true_iff.1 hp
    have hstart : s.HistsBounded s.hist := fun b c hgain => hs.bounded b c hgain (hs.inv.defined hattached b)
    obtain ⟨out, hists, hf, hh⟩ := filterBuffer_completes (hs.cascade_completes hattached) (pin := pin) hstart
    exact ⟨_, exec_eqProcess_filtered hp hf, fun b c hgain _ => hh b c hgain⟩

/-! ### Every step (R183, R240) -/

/-- Every other effect: a band gets a gain with zero histories, or becomes flat or undefined, or is left as it is. -/
theorem Effect.definedBounded (h : Effect s i u) (hi : ∀ pin : List Byte, i ≠ .eqProcess pin)
    (hs : s.DefinedBounded) : u.DefinedBounded := by
  cases h with
  | eqInit => exact fun b _ hgain => absurd (by simp) hgain
  | eqDetach => exact fun b _ _ hdef => by simp at hdef
  | gains _ hg =>
    refine hg.keeps hs fun t b g _ ht b' c hgain hdef => ?_
    rw [changeGain_hist_at]
    by_cases hb : b' = b
    · rw [if_pos hb]; exact BandBounded_zero (one_le_bandLimit b')
    · simp only [State.changeGain_gain, State.changeGain_coef, State.changeGain_undef, ne_eq, hb, not_false_eq_true,
        PerBand.get_set_other, if_false] at hgain hdef ⊢
      exact ht b' c hgain hdef
  | process => exact absurd rfl (hi _)
  | _ => exact hs

/-- The invariants read neither CMD_ERR nor what stands at the block's boundary. -/
theorem State.Inv.withBoundary (h : s.Inv) (err : Bool) (ts : List Transaction) (r : Word) (p : List Byte) :
    State.Inv { s with cmdErr := err, pending := ts, res := r, pout := p } :=
  ⟨h.cfg, h.gains, h.ring, h.memory, h.coefs, h.defined, h.eof, h.idle, h.flat, h.noNaN⟩

theorem State.RunInv.withBoundary (h : s.RunInv) (err : Bool) (ts : List Transaction) (r : Word) (p : List Byte) :
    State.RunInv { s with cmdErr := err, pending := ts, res := r, pout := p } :=
  ⟨h.inv.withBoundary err ts r p, h.rom, h.bounded⟩

theorem State.RunInv.exec_definedBounded (hs : s.RunInv) (i : Instr) : ∃ t, exec i s = .next t ∧ t.DefinedBounded := by
  by_cases hi : ∃ pin : List Byte, i = .eqProcess pin
  · obtain ⟨pin, rfl⟩ := hi
    exact hs.eqProcess_completes pin
  · have hi : ∀ pin : List Byte, i ≠ .eqProcess pin := fun pin h => hi ⟨pin, h⟩
    obtain ⟨t, ht⟩ := exec_completes hi s
    obtain ⟨u, r, p, hu, rfl⟩ := exec_answersFrom ht
    exact ⟨_, ht, hu.definedBounded hi hs.bounded⟩

/-- Every instruction completes and keeps the invariant of a run. -/
theorem State.RunInv.exec (hs : s.RunInv) (i : Instr) : ∃ t, exec i s = .next t ∧ t.RunInv := by
  obtain ⟨t, ht, hbounded⟩ := hs.exec_definedBounded i
  obtain ⟨u, r, p, hu, rfl⟩ := exec_answersFrom ht
  exact ⟨_, ht, (hu.inv hs.inv).withBoundary u.cmdErr u.pending r p, hu.sameEnv.1 ▸ hs.rom, hbounded⟩

/-- Every step completes and keeps the invariant of a run. -/
theorem State.RunInv.step (s : State) (hs : s.RunInv) : ∃ t, step s = .next t ∧ t.RunInv := by
  obtain ⟨-, hn⟩ | ⟨tr, rest, -, ⟨e, -, hn⟩ | ⟨i, -, hn⟩⟩ := step_cases s
  · exact ⟨s, hn, hs⟩
  · exact ⟨_, hn, hs.withBoundary true rest 0 []⟩
  · rw [hn]; exact (hs.withBoundary s.cmdErr rest s.res s.pout).exec i

theorem reset_inv {p : Params} (hp : p.Valid) : State.Inv { State.reset with cfg := p } where
  cfg := hp
  gains b := by simp
  ring := State.clearFifo_ringOk (s := { State.reset with cfg := p }) hp
  memory := ⟨rfl, rfl⟩
  coefs b hgain := absurd (by simp) hgain
  defined := nofun
  eof := ⟨by simp, nofun, fun _ => rfl⟩
  idle _ := ⟨rfl, rfl, rfl⟩
  flat b _ := by simp
  noNaN b c := by rw [State.reset_hist, Hists.at_zero]; exact Hist.zero_noNaN

/-- At reset every band is flat. -/
theorem reset_runInv {p : Params} (hp : p.Valid) (hrom : p.coefRom = defaultRom) :
    State.RunInv { State.reset with cfg := p } where
  inv := reset_inv hp
  rom := hrom
  bounded b _ hgain := absurd (by simp) hgain

/-- Settles O37: the invariant at reset, at each step, and so along every run. -/
theorem noRunFromResetStops : Obligations.NoRunFromResetStops := by
  refine ⟨fun p => reset_runInv, State.RunInv.step, fun p ts hp hrom => ?_⟩
  obtain ⟨t, ht, -⟩ := core_run_completes State.RunInv.step ts.length _
    ((reset_runInv hp hrom).withBoundary false ts 0 [])
  exact ⟨t, ht⟩

/-! ### One frame (R230 to R238) -/

/-- The value that leaves a row of bands, each with the histories of the state. -/
def State.throughBands (s : State) (c : Channel) (bs : List Band) (v : F64) : F64 :=
  bs.foldl (fun v b => s.bandOut c b v) v

theorem State.throughBands_all (s : State) (c : Channel) (x : F64) :
    s.throughBands c Band.all x = s.cascadeOut c x := rfl

/-- What enters a band is what leaves the bands before it. -/
theorem State.throughBands_front (s : State) (c : Channel) (b : Band) :
    ∃ front back, Band.all = front ++ b :: back ∧ ∀ x, s.throughBands c front x = s.bandIn c b x := by
  cases b with
  | b0 => exact ⟨[], [.b1, .b2, .b3, .b4], rfl, fun _ => rfl⟩
  | b1 => exact ⟨[.b0], [.b2, .b3, .b4], rfl, fun _ => rfl⟩
  | b2 => exact ⟨[.b0, .b1], [.b3, .b4], rfl, fun _ => rfl⟩
  | b3 => exact ⟨[.b0, .b1, .b2], [.b4], rfl, fun _ => rfl⟩
  | b4 => exact ⟨[.b0, .b1, .b2, .b3], [], rfl, fun _ => rfl⟩

/-- A cascade that completes, at its first band: the band's output goes on, and its history is shifted by one where it
is not flat. -/
theorem cascade_cons_ok {a : Band} {bs : List Band} {v w : F64} {hs hs' : Hists} (hstart : hs.at a c = s.hist.at a c)
    (h : cascade s c (a :: bs) v hs = .ok (w, hs')) :
    ∃ hs1, cascade s c bs (s.bandOut c a v) hs1 = .ok (w, hs') ∧ (∀ b, b ≠ a → hs1.at b c = hs.at b c) ∧
      (s.gain.get a ≠ 0 → hs1.at a c = (biquad (s.coef.get a) (s.hist.at a c) v).2) := by
  rw [cascade, hstart] at h
  split_ifs at h with hflat hundef
  · have hout : s.bandOut c a v = v := if_pos hflat
    exact ⟨hs, by rwa [hout], fun _ _ => rfl, fun hgain => absurd hflat hgain⟩
  · dsimp only at h
    split_ifs at h with hnan
    have hout : s.bandOut c a v = (biquad (s.coef.get a) (s.hist.at a c) v).1 := if_neg hflat
    exact ⟨_, by rwa [hout], fun b hb => Hists.at_put_other _ _ (.inl hb), fun _ => Hists.at_put_same _ _ _ _⟩

/-- A cascade that completes, each band met once with the histories of the state: its value, and the history that each
band that is not flat is left with. -/
theorem cascade_exact : ∀ {bs : List Band} {v w : F64} {hs hs' : Hists}, bs.Nodup →
    (∀ b ∈ bs, hs.at b c = s.hist.at b c) → cascade s c bs v hs = .ok (w, hs') →
      w = s.throughBands c bs v ∧ ∀ (front : List Band) (b : Band) (back : List Band), bs = front ++ b :: back →
        s.gain.get b ≠ 0 → hs'.at b c = (biquad (s.coef.get b) (s.hist.at b c) (s.throughBands c front v)).2
  | [], _, _, _, _, _, _, h => by
    cases h
    exact ⟨rfl, fun _ _ _ hsplit => by simp at hsplit⟩
  | a :: bs, v, w, hs, hs', hnodup, hstart, h => by
    obtain ⟨ha, hnodup⟩ := List.nodup_cons.1 hnodup
    obtain ⟨hstart_a, hstart⟩ := List.forall_mem_cons.1 hstart
    obtain ⟨hs1, hrest, hother, hshift⟩ := cascade_cons_ok hstart_a h
    obtain ⟨hw, hhist⟩ := cascade_exact hnodup
      (fun b hb => (hother b (ne_of_mem_of_not_mem hb ha)).trans (hstart b hb)) hrest
    refine ⟨hw, fun front b back hsplit hgain => ?_⟩
    cases front with
    | nil =>
      obtain ⟨rfl, -⟩ := List.cons.inj hsplit
      rw [cascade_at_other hrest a c (.inr (.inr ha)), hshift hgain]; rfl
    | cons a' front =>
      obtain ⟨rfl, htail⟩ := List.cons.inj hsplit
      exact hhist front b back htail hgain

/-- The whole cascade, in the statement's terms. -/
theorem cascade_all_exact {x w : F64} {hs hs' : Hists} (hstart : ∀ b, hs.at b c = s.hist.at b c)
    (h : cascade s c Band.all x hs = .ok (w, hs')) :
    w = s.cascadeOut c x ∧ ∀ b : Band, s.gain.get b ≠ 0 → hs'.at b c =
      ⟨s.bandIn c b x, (s.hist.at b c).x1, recurrence (s.coef.get b) (s.hist.at b c) (s.bandIn c b x),
        (s.hist.at b c).y1⟩ := by
  obtain ⟨hw, hhist⟩ := cascade_exact (by decide) (fun b _ => hstart b) h
  refine ⟨hw.trans (s.throughBands_all c x), fun b hgain => ?_⟩
  obtain ⟨front, back, hall, hfront⟩ := s.throughBands_front c b
  rw [hhist front b back hall hgain, hfront]; rfl

/-- A band's history with every value at most 2^900. -/
def HistWithin (h : Hist) : Prop :=
  F64.Bounded (2 ^ 900) h.x1 ∧ F64.Bounded (2 ^ 900) h.x2 ∧ F64.Bounded (2 ^ 900) h.y1 ∧ F64.Bounded (2 ^ 900) h.y2

theorem State.FilterBounded.histWithin (hs : s.FilterBounded) {b : Band} (hgain : s.gain.get b ≠ 0) (c : Channel) :
    HistWithin (s.hist.at b c) := by
  obtain ⟨-, -, hhist⟩ := hs b hgain
  have h := hhist c
  simp only [Bool.and_eq_true] at h
  obtain ⟨⟨⟨hx1, hx2⟩, hy1⟩, hy2⟩ := h
  exact ⟨bounded_of_within (by norm_num) hx1, bounded_of_within (by norm_num) hx2, bounded_of_within (by norm_num) hy1,
    bounded_of_within (by norm_num) hy2⟩

theorem State.FilterBounded.coef_small (hs : s.FilterBounded) {b : Band} (hgain : s.gain.get b ≠ 0) :
    (s.coef.get b).Small := by
  obtain ⟨-, hcoef, -⟩ := hs b hgain
  have two {x : F64} (h : within 1 x = true) : F64.Bounded 2 x := by simpa using bounded_of_within (by norm_num) h
  simp only [Bool.and_eq_true] at hcoef
  obtain ⟨⟨⟨⟨hb0, hb1⟩, hb2⟩, ha1⟩, ha2⟩ := hcoef
  exact ⟨two hb0, two hb1, two hb2, two ha1, two ha2⟩

/-- Any small row multiplies its bound by at most 2^4, so five of them do not overflow in one frame. -/
theorem State.FilterBounded.carriesBounds (hs : s.FilterBounded) :
    CarriesBounds s (fun k v => k ≤ 5 → F64.Bounded (2 ^ (900 + 4 * k)) v) (fun _ h => HistWithin h)
      (fun _ _ => True) where
  flat hv hk := bounded_two_pow_mono (by omega) (hv (by omega))
  filter {b v h} hgain hv hh := by
    obtain ⟨hx1, hx2, hy1, hy2⟩ := hh
    obtain ⟨hdef, -⟩ := hs b hgain
    have hb := b.index_le
    have hle : 900 ≤ 900 + 4 * b.index := by omega
    have hy := biquad_output_bounded (by omega) (hs.coef_small hgain) (hv (by omega)) (bounded_two_pow_mono hle hx1)
      (bounded_two_pow_mono hle hx2) (bounded_two_pow_mono hle hy1) (bounded_two_pow_mono hle hy2)
    exact ⟨hdef, F64.isNaN_of_isFinite hy.1, fun _ => hy, trivial⟩

/-- A sample completes from histories that are the state's on its channel. -/
theorem State.FilterBounded.cascade_completes (hs : s.FilterBounded) {hists : Hists} {c : Channel}
    (hstart : ∀ b, hists.at b c = s.hist.at b c) (a b : Byte) :
    ∃ w hists', cascade s c Band.all (F64.ofInt (le16s a b)) hists = .ok (w, hists') := by
  obtain ⟨w, hists', hc, -⟩ := hs.carriesBounds.cascade_all (c := c) (hs := hists)
    (fun _ => bounded_two_pow_mono (by norm_num) (sample_bounded a b))
    fun b hgain => hstart b ▸ hs.histWithin hgain c
  exact ⟨w, hists', hc⟩

/-- Settles O22: the two cascades complete, each is exact on its channel, and each leaves the other channel's histories
alone. -/
theorem oneFrameIsFiltered : Obligations.OneFrameIsFiltered := by
  intro s a0 a1 b0 b1 hattached hactive hs
  obtain ⟨v, hs0, hc0⟩ := hs.cascade_completes (c := .c0) (fun _ => rfl) a0 a1
  have hstart1 (b : Band) : hs0.at b .c1 = s.hist.at b .c1 := cascade_at_other hc0 b .c1 (.inl (by decide))
  obtain ⟨w, hs1, hc1⟩ := hs.cascade_completes hstart1 b0 b1
  have hf : filterBuffer s [a0, a1, b0, b1] s.hist = .ok (sampleOut v ++ sampleOut w ++ [], hs1) := by
    rw [filterBuffer, filterFrame_of_cascades hc0 hc1]; rfl
  obtain ⟨hv, hhist0⟩ := cascade_all_exact (fun _ => rfl) hc0
  obtain ⟨hw, hhist1⟩ := cascade_all_exact hstart1 hc1
  have hpath : (s.attached && s.eqActive) = true := by rw [hattached, s.eqActive_iff.2 hactive]; rfl
  refine ⟨_, exec_eqProcess_filtered hpath hf, rfl, ?_, fun b => ⟨fun hflat => ?_, fun hgain => ⟨?_, hhist1 b hgain⟩⟩⟩
  · rw [State.answer_pout, List.append_nil, hv, hw]; rfl
  · exact PerChannel.ext_get (filterBuffer_at_flat hf hflat)
  · rw [← hhist0 b hgain]; exact cascade_at_other hc1 b .c0 (.inl (by decide))

end Sys2Proof.Machine
end

-- Proofs: the limiter and the truncation (O27, O28, O29)
section
/-!
The limiter and the truncation (42_eq_process.md R236, R237). A value that is no NaN is a sign and a magnitude, and the
limiter keeps the one and limits the other (`softClip_pack`); the order of such values is that of their signed
magnitudes.
-/

namespace Sys2Proof

/-! ### The order of values that are no NaN -/

variable {x y u v : F64}

theorem F64.le_iff : F64.le x y = true ↔ F64.isNaN x = false ∧ F64.isNaN y = false ∧ F64.key x ≤ F64.key y := by
  simp [F64.le, and_assoc]

theorem F64.not_lt_of_le (h : F64.le x y = true) : ¬ F64.lt y x = true := by
  obtain ⟨hx, hy, hle⟩ := F64.le_iff.1 h
  simp [F64.lt, hx, hy, hle]

theorem F64.lt_iff : F64.lt x y = true ↔ F64.isNaN x = false ∧ F64.isNaN y = false ∧ F64.key x < F64.key y := by
  simp [F64.lt, and_assoc]

theorem F64.key_pack (neg : Bool) {m : Nat} (h : m ≤ F64.infBits) :
    F64.key (F64.pack neg m) = if neg then -(m : Int) else (m : Int) := by
  have hm := lt_of_le_of_lt h F64.infBits_lt
  rw [F64.key, F64.sign_pack neg hm, F64.magBits_pack neg hm]

theorem F64.neg_pack (neg : Bool) {m : Nat} (h : m ≤ F64.infBits) : F64.neg (F64.pack neg m) = F64.pack (!neg) m := by
  have hm := lt_of_le_of_lt h F64.infBits_lt
  rw [F64.neg, F64.sign_pack neg hm, F64.magBits_pack neg hm]

/-- A value that is no NaN: a sign, and a magnitude up to infinity. -/
theorem F64.exists_pack (h : F64.isNaN v = false) : ∃ neg m, m ≤ F64.infBits ∧ v = F64.pack neg m :=
  ⟨F64.sign v, F64.magBits v, not_lt.1 (of_decide_eq_false h), (F64.pack_self v).symm⟩

/-- A value of at least 0.0 is its magnitude; both zeros have magnitude 0. -/
theorem F64.magBits_eq_key (h : 0 ≤ F64.key u) : (F64.magBits u : Int) = F64.key u := by
  unfold F64.key at h ⊢
  split_ifs at h ⊢ <;> omega

/-- `real(-n)` is the negated `real(n)`. -/
theorem F64.ofInt_neg {n : Int} (h : 0 < n) : F64.ofInt (-n) = F64.neg (F64.ofInt n) := by
  rw [F64.ofInt, F64.ofInt, F64.neg_pack _ (F64.roundUnits_le_inf _ _), Int.natAbs_neg,
    decide_eq_true (neg_neg_of_pos h), decide_eq_false h.le.not_gt]; rfl

/-! ### TANH (R236) -/

theorem F64.key_zero : F64.key F64.zero = 0 := by decide

theorem F64.isNaN_tanh (u : F64) : F64.isNaN (F64.tanh u) = false :=
  F64.isNaN_pack _ ((F64.tanhBits_le_one _).trans (by decide))

theorem F64.key_tanh (u : F64) : F64.key (F64.tanh u) = F64.tanhBits (F64.magBits u) :=
  F64.key_pack false ((F64.tanhBits_le_one _).trans (by decide))

theorem F64.ofInt_one_eq : F64.ofInt 1 = F64.pack false F64.oneBits := by rw [F64.ofInt_one]; decide

theorem F64.tanh_range (u : F64) : F64.le F64.zero (F64.tanh u) = true ∧ F64.le (F64.tanh u) (F64.ofInt 1) = true := by
  have hone : F64.oneBits ≤ F64.infBits := by decide
  rw [F64.ofInt_one_eq, F64.le_iff, F64.le_iff, F64.key_tanh, F64.key_zero, F64.key_pack false hone]
  exact ⟨⟨by decide, F64.isNaN_tanh u, Int.natCast_nonneg _⟩, F64.isNaN_tanh u, F64.isNaN_pack false hone,
    Int.ofNat_le.2 (F64.tanhBits_le_one _)⟩

theorem F64.tanh_mono (h0 : F64.le F64.zero u = true) (h : F64.le u v = true) :
    F64.le (F64.tanh u) (F64.tanh v) = true := by
  obtain ⟨-, -, hu⟩ := F64.le_iff.1 h0
  obtain ⟨-, -, huv⟩ := F64.le_iff.1 h
  rw [F64.key_zero] at hu
  have hmag : F64.magBits u ≤ F64.magBits v := by
    have := F64.magBits_eq_key hu
    have := F64.magBits_eq_key (hu.trans huv)
    omega
  rw [F64.le_iff, F64.key_tanh, F64.key_tanh]
  exact ⟨F64.isNaN_tanh u, F64.isNaN_tanh v, Int.ofNat_le.2 (F64.tanhBits_mono hmag)⟩

theorem F64.tanh_inf : F64.tanh (F64.pack false F64.infBits) = F64.ofInt 1 := by
  rw [F64.tanh, F64.magBits_pack false F64.infBits_lt, F64.tanhBits_inf, F64.ofInt_one_eq]

end Sys2Proof

namespace Sys2Proof.Machine

open Sys2Proof

variable {v w : F64}

/-! ### The limiter's branches (R236) -/

theorem clipK_eq_ofInt : clipK = F64.ofInt 1767 := congrArg F64.ofInt (by decide)

theorem key_clipT : F64.key clipT = clipTBits := by rw [clipT_eq]; exact F64.key_pack false (by decide)

theorem key_neg_clipT : F64.key (F64.neg clipT) = -(clipTBits : Int) := by
  rw [clipT_eq, F64.neg_pack false (by decide)]; exact F64.key_pack true (by decide)

theorem softClip_above (h : F64.lt clipT v = true) : softClip v = clipCurve v := if_pos h

theorem softClip_below (h : F64.lt v (F64.neg clipT) = true) : softClip v = F64.neg (clipCurve (F64.neg v)) := by
  have hle : F64.le v clipT = true := by
    obtain ⟨hv, hT, hlt⟩ := F64.lt_iff.1 h
    rw [key_neg_clipT] at hlt
    rw [F64.isNaN_neg] at hT
    exact F64.le_iff.2 ⟨hv, hT, by rw [key_clipT]; omega⟩
  rw [softClip, if_neg (F64.not_lt_of_le hle), if_pos h]

theorem softClip_between (hlo : F64.le (F64.neg clipT) v = true) (hhi : F64.le v clipT = true) : softClip v = v := by
  rw [softClip, if_neg (F64.not_lt_of_le hhi), if_neg (F64.not_lt_of_le hlo)]

/-- Settles O27: the three branches with T and K as integers, and TANH on magnitudes. -/
theorem softClipRule : Obligations.SoftClipRule := by
  refine ⟨fun v h => ?_, fun v h => ?_, fun v => softClip_between, fun u _ => F64.tanh_range u,
    fun u u' => F64.tanh_mono, F64.tanh_inf⟩
  · rw [softClip_above h, clipCurve, clipK_eq_ofInt]; rfl
  · rw [softClip_below h, clipCurve, clipK_eq_ofInt]; rfl

/-! ### Odd and non-decreasing -/

theorem limitBits_le_inf (m : Nat) : limitBits m ≤ F64.infBits := (limitBits_le m).trans (by decide)

theorem softClip_noNaN (h : F64.isNaN v = false) : F64.isNaN (softClip v) = false := by
  obtain ⟨neg, m, hm, rfl⟩ := F64.exists_pack h
  rw [softClip_pack neg hm]
  exact F64.isNaN_pack neg (limitBits_le_inf m)

/-- The limiter keeps the sign and limits the magnitude, so negation passes through it. -/
theorem softClip_neg (h : F64.isNaN v = false) : softClip (F64.neg v) = F64.neg (softClip v) := by
  obtain ⟨neg, m, hm, rfl⟩ := F64.exists_pack h
  rw [F64.neg_pack neg hm, softClip_pack _ hm, softClip_pack neg hm, F64.neg_pack neg (limitBits_le_inf m)]

theorem limitBits_zero : limitBits 0 = 0 := if_neg (by decide)

/-- The signed magnitude does not decrease: on either side by the limited magnitude, across 0 by the signs. -/
theorem softClip_mono (h : F64.le v w = true) : F64.le (softClip v) (softClip w) = true := by
  obtain ⟨hv, hw, hkey⟩ := F64.le_iff.1 h
  refine F64.le_iff.2 ⟨softClip_noNaN hv, softClip_noNaN hw, ?_⟩
  obtain ⟨neg, m, hm, rfl⟩ := F64.exists_pack hv
  obtain ⟨neg', m', hm', rfl⟩ := F64.exists_pack hw
  rw [F64.key_pack neg hm, F64.key_pack neg' hm'] at hkey
  rw [softClip_pack neg hm, softClip_pack neg' hm', F64.key_pack neg (limitBits_le_inf m),
    F64.key_pack neg' (limitBits_le_inf m')]
  cases neg <;> cases neg' <;> simp only [Bool.false_eq_true, if_false, if_true] at hkey ⊢
  case false.false =>
    have := limitBits_mono (m := m) (m' := m') (by omega) hm'
    omega
  case false.true =>
    obtain ⟨rfl, rfl⟩ : m = 0 ∧ m' = 0 := by omega
    rw [limitBits_zero]; rfl
  case true.false => omega
  case true.true =>
    have := limitBits_mono (m := m') (m' := m) (by omega) hm
    omega

/-- The ceiling as a value. -/
theorem ofInt_ceiling : F64.ofInt 32767 = F64.pack false clipMaxBits := F64.ofInt_clipCeiling.trans (by decide)

theorem ofInt_neg_ceiling : F64.ofInt (-32767) = F64.pack true clipMaxBits := by
  rw [F64.ofInt_neg (by decide), ofInt_ceiling, F64.neg_pack false (by decide)]; rfl

theorem softClip_inf (neg : Bool) : softClip (F64.pack neg F64.infBits) = F64.pack neg clipMaxBits := by
  have hinf : clipTBits < F64.infBits := by decide
  rw [softClip_pack neg le_rfl, limitBits, if_pos hinf, curveBits_inf]

/-- Settles O28: the limiter on signs and magnitudes. -/
theorem softClipIsOddAndMonotone : Obligations.SoftClipIsOddAndMonotone :=
  ⟨fun _ => softClip_neg, fun _ _ => softClip_mono, (softClip_inf false).trans ofInt_ceiling.symm,
    (softClip_inf true).trans ofInt_neg_ceiling.symm⟩

/-! ### Truncation (R237) -/

theorem trunc16_natAbs (r : F64) : (trunc16 r).natAbs = F64.unitsOf (F64.magBits r) / F64.unitsPerOne := by
  rw [trunc16, F64.truncInt]
  split_ifs
  · rw [Int.natAbs_neg, Int.natAbs_natCast]
  · exact Int.natAbs_natCast _

/-- The truncated magnitude is the greatest integer up to the value's magnitude, with the value's sign. -/
theorem trunc16_toward_zero (r : F64) :
    (trunc16 r).natAbs * F64.unitsPerOne ≤ F64.unitsOf (F64.magBits r) ∧
      F64.unitsOf (F64.magBits r) < ((trunc16 r).natAbs + 1) * F64.unitsPerOne ∧
      (F64.sign r = false → 0 ≤ trunc16 r) ∧ (F64.sign r = true → trunc16 r ≤ 0) := by
  rw [trunc16_natAbs]
  refine ⟨Nat.div_mul_le_self _ _, Nat.lt_mul_of_div_lt (Nat.lt_succ_self _) F64.unitsPerOne_pos, fun h => ?_,
    fun h => ?_⟩
  · rw [trunc16, F64.truncInt, h]; exact Int.natCast_nonneg _
  · rw [trunc16, F64.truncInt, h]; exact Int.neg_nonpos_of_nonneg (Int.natCast_nonneg _)

theorem unitsOf_ceiling : F64.unitsOf clipMaxBits = 32767 * F64.unitsPerOne := by decide +kernel

/-- The limited magnitude is at most the ceiling, and so is the truncated one. -/
theorem trunc16_softClip_range (h : F64.isNaN v = false) :
    -32767 ≤ trunc16 (softClip v) ∧ trunc16 (softClip v) ≤ 32767 := by
  obtain ⟨neg, m, hm, rfl⟩ := F64.exists_pack h
  have habs : (trunc16 (softClip (F64.pack neg m))).natAbs ≤ 32767 := by
    rw [trunc16_natAbs, softClip_pack neg hm, F64.magBits_pack neg (lt_of_le_of_lt (limitBits_le_inf m) F64.infBits_lt)]
    refine Nat.div_le_of_le_mul ?_
    rw [Nat.mul_comm, ← unitsOf_ceiling]
    exact F64.unitsOf_mono (limitBits_le m)
  omega

theorem softClip_range (h : F64.isNaN v = false) :
    F64.le (F64.ofInt (-32767)) (softClip v) = true ∧ F64.le (softClip v) (F64.ofInt 32767) = true := by
  have hnan := softClip_noNaN h
  obtain ⟨neg, m, hm, rfl⟩ := F64.exists_pack h
  have hmax : clipMaxBits ≤ F64.infBits := by decide
  obtain ⟨hlo, hhi⟩ : -(clipMaxBits : Int) ≤ F64.key (softClip (F64.pack neg m)) ∧
      F64.key (softClip (F64.pack neg m)) ≤ clipMaxBits := by
    have hle := limitBits_le m
    rw [softClip_pack neg hm, F64.key_pack neg (limitBits_le_inf m)]
    split_ifs <;> omega
  rw [F64.le_iff, F64.le_iff, ofInt_ceiling, ofInt_neg_ceiling, F64.key_pack true hmax, F64.key_pack false hmax]
  exact ⟨⟨F64.isNaN_pack true hmax, hnan, hlo⟩, hnan, F64.isNaN_pack false hmax, hhi⟩

/-- The two bytes of an output sample read back as it. -/
theorem sampleAt_sampleOut (h : F64.isNaN v = false) (rest : List Byte) :
    sampleAt (sampleOut v ++ rest) 0 = trunc16 (softClip v) := by
  obtain ⟨hlo, hhi⟩ := trunc16_softClip_range h
  obtain ⟨x, y, hbytes, hread⟩ := le16s_bytesLe (n := trunc16 (softClip v)) (by omega)
  rw [sampleOut, hbytes]; exact hread

/-- Settles O29: truncation as division of the units, on the limited magnitude; the examples evaluated. -/
theorem truncatedOutputFits16Bits : Obligations.TruncatedOutputFits16Bits := by
  refine ⟨fun r _ _ => trunc16_toward_zero r, fun v h => ?_, by decide +kernel, by decide +kernel, by decide +kernel⟩
  obtain ⟨hlo, hhi⟩ := softClip_range h
  obtain ⟨hlo', hhi'⟩ := trunc16_softClip_range h
  have hread := sampleAt_sampleOut h []
  rw [List.append_nil, sampleOut] at hread
  exact ⟨hlo, hhi, hlo', hhi', hread⟩

end Sys2Proof.Machine
end

-- Proofs: EQ.PROCESS on whole buffers (O20, O21, O23, O24, O25, O31)
section
/-!
EQ.PROCESS on whole buffers (42_eq_process.md R230, R231, R237, R239, R241, R242): when it passes its payload through,
what becomes of a buffer's parts, the shape and range of what it answers, and a band taken from 0 dB to a gain and back.
-/

namespace Sys2Proof.Machine

open Sys2Proof

variable {s t u : State} {i : Instr}

/-! ### The payload passed through (R230, R231) -/

/-- Settles O20: with every gain 0, whatever ATTACHED is. -/
theorem fastPathReturnsTheBuffer : Obligations.FastPathReturnsTheBuffer :=
  fun _ pin _ hflat => exec_eqProcess_of_flat hflat pin

theorem exec_eqProcess_of_detached (h : s.attached = false) (pin : List Byte) :
    exec (.eqProcess pin) s = .next (s.answer 0 pin) :=
  execEqProcess_pass (by rw [h, Bool.false_and]) pin

/-- Only EQ.INIT attaches (R58): EQ.DETACH writes 0, and nothing else writes ATTACHED. -/
theorem exec_keeps_detached (hi : i ≠ .eqInit) (hs : s.attached = false) (h : exec i s = .next t) :
    t.attached = false := by
  by_cases hd : i = .eqDetach
  · subst hd; cases h; rfl
  · have hw : Element.writtenBy .attached i = false := by simp [Element.writtenBy, hi, hd]
    exact (exec_same hw h).trans hs

/-- Settles O21: detached, EQ.PROCESS passes its payload through; EQ.DETACH detaches, and a run without EQ.INIT does not
attach again. -/
theorem detachedUntilInit : Obligations.DetachedUntilInit := by
  refine ⟨fun s pin h => exec_eqProcess_of_detached h pin, fun s t u is pin hdetach hinit hrun => ?_⟩
  have ht : t.attached = false := by cases hdetach; rfl
  refine exec_eqProcess_of_detached (s := u) (execAll_keeps (P := fun s => s.attached = false) ?_ ht hrun) pin
  exact fun i hi s t => exec_keeps_detached (ne_of_mem_of_not_mem hi hinit)

/-! ### The outcome of EQ.PROCESS by that of its buffer -/

theorem exec_eqProcess_passed {pin : List Byte} (hpath : (s.attached && s.eqActive) = false) :
    exec (.eqProcess pin) s = .next (s.answer 0 pin) := execEqProcess_pass hpath pin

theorem exec_eqProcess_stopped {pin : List Byte} {f : Fault} (hpath : (s.attached && s.eqActive) = true)
    (hf : filterBuffer s pin s.hist = .error f) : exec (.eqProcess pin) s = .fault f := by
  show execEqProcess pin s = _
  rw [execEqProcess_filter hpath, processBuffer, hf]

/-! ### A buffer in parts (R239, R241) -/

section
variable {a b out out' : List Byte} {hs hs1 hs2 : Hists} {f : Fault}

theorem filterBuffer_append_ok (ha : a.length % 4 = 0) (hfa : filterBuffer s a hs = .ok (out, hs1))
    (hfb : filterBuffer s b hs1 = .ok (out', hs2)) : filterBuffer s (a ++ b) hs = .ok (out ++ out', hs2) := by
  simp only [filterBuffer_append s b a ha, hfa, hfb]

theorem filterBuffer_append_error_left (ha : a.length % 4 = 0) (hfa : filterBuffer s a hs = .error f) (b : List Byte) :
    filterBuffer s (a ++ b) hs = .error f := by
  simp only [filterBuffer_append s b a ha, hfa]

theorem filterBuffer_append_error_right (ha : a.length % 4 = 0) (hfa : filterBuffer s a hs = .ok (out, hs1))
    (hfb : filterBuffer s b hs1 = .error f) : filterBuffer s (a ++ b) hs = .error f := by
  simp only [filterBuffer_append s b a ha, hfa, hfb]

/-- The datapath reads neither the histories field nor the answer: the histories are threaded through. -/
theorem filterBuffer_after (s : State) (hs hs1 : Hists) (r : Word) (p pin : List Byte) :
    filterBuffer (State.answer { s with hist := hs } r p) pin hs1 = filterBuffer s pin hs1 :=
  filterBuffer_congr (s := s) (s' := State.answer { s with hist := hs } r p) rfl rfl (fun _ _ => rfl) pin hs1

end

/-- Settles O23: passed through, the parts are; filtered, the second part starts from the histories the first leaves,
and either part's stop is the whole's. -/
theorem splitBuffersGiveTheSame : Obligations.SplitBuffersGiveTheSame := by
  intro s a b ha
  cases hpath : (s.attached && s.eqActive) with
  | false =>
    rw [exec_eqProcess_passed hpath, exec_eqProcess_passed hpath]
    simp only [exec_eqProcess_passed (s := s.answer 0 a) hpath]
    rfl
  | true =>
    cases hfa : filterBuffer s a s.hist with
    | error f =>
      have hall := filterBuffer_append_error_left ha hfa b
      rw [exec_eqProcess_stopped hpath hall, exec_eqProcess_stopped hpath hfa]
    | ok ra =>
      obtain ⟨out, hs⟩ := ra
      have hafter := filterBuffer_after s hs hs 0 out b
      rw [exec_eqProcess_filtered hpath hfa]
      cases hfb : filterBuffer s b hs with
      | error f =>
        rw [exec_eqProcess_stopped hpath (filterBuffer_append_error_right ha hfa hfb)]
        simp only [exec_eqProcess_stopped (s := State.answer { s with hist := hs } 0 out) hpath (hafter.trans hfb)]
      | ok rb =>
        obtain ⟨out', hs'⟩ := rb
        rw [exec_eqProcess_filtered hpath (filterBuffer_append_ok ha hfa hfb)]
        simp only [exec_eqProcess_filtered (s := State.answer { s with hist := hs } 0 out) hpath (hafter.trans hfb)]
        rfl

/-- Fewer bytes than a frame come back on either path, and nothing is written (R239). -/
theorem exec_eqProcess_short {tail : List Byte} (h : tail.length < 4) (s : State) :
    exec (.eqProcess tail) s = .next (s.answer 0 tail) := by
  cases hpath : (s.attached && s.eqActive) with
  | false => exact exec_eqProcess_passed hpath
  | true => exact exec_eqProcess_filtered hpath (filterBuffer_short s h s.hist)

/-- Settles O24: the frames' outcome with the tail behind their output, on either path. -/
theorem partialFrameIsUntouched : Obligations.PartialFrameIsUntouched := by
  intro s frames tail hframes htail
  refine ⟨?_, exec_eqProcess_short htail s⟩
  cases hpath : (s.attached && s.eqActive) with
  | false => rw [exec_eqProcess_passed hpath, exec_eqProcess_passed hpath]; rfl
  | true =>
    cases hf : filterBuffer s frames s.hist with
    | error f =>
      have hall := filterBuffer_append_error_left hframes hf tail
      rw [exec_eqProcess_stopped hpath hall, exec_eqProcess_stopped hpath hf]
    | ok r =>
      obtain ⟨out, hs⟩ := r
      have hall := filterBuffer_append_ok hframes hf (filterBuffer_short s htail hs)
      rw [exec_eqProcess_filtered hpath hall, exec_eqProcess_filtered hpath hf]
      rfl

/-! ### What a filtered buffer looks like (R237, R239) -/

theorem filterBuffer_length : ∀ {pin out : List Byte} {hs hs' : Hists}, filterBuffer s pin hs = .ok (out, hs') →
    out.length = pin.length
  | [], _, _, _, h | [_], _, _, _, h | [_, _], _, _, _, h | [_, _, _], _, _, _, h => by cases h; rfl
  | a0 :: a1 :: b0 :: b1 :: rest, _, _, _, h => by
    obtain ⟨o1, h1, o2, hframe, hrest, rfl⟩ := filterBuffer_cons_ok h
    rw [List.length_append, filterFrame_length hframe, filterBuffer_length hrest]
    simp only [List.length_cons]
    omega

/-- A filtered buffer ends with the bytes that are no whole frame: it is the filtered frames with those bytes behind. -/
theorem filterBuffer_tail {pin out : List Byte} {hs hs' : Hists} (h : filterBuffer s pin hs = .ok (out, hs')) :
    out.drop (pin.length - pin.length % 4) = pin.drop (pin.length - pin.length % 4) := by
  generalize hk : pin.length - pin.length % 4 = k
  have hframes : (pin.take k).length = k := by rw [List.length_take]; omega
  have htail : (pin.drop k).length < 4 := by rw [List.length_drop]; omega
  have hmod : (pin.take k).length % 4 = 0 := by omega
  rw [← List.take_append_drop k pin] at h
  cases hf : filterBuffer s (pin.take k) hs with
  | error f => rw [filterBuffer_append_error_left hmod hf] at h; cases h
  | ok r =>
    obtain ⟨out1, hs1⟩ := r
    rw [filterBuffer_append_ok hmod hf (filterBuffer_short s htail hs1)] at h
    cases h
    exact List.drop_left' ((filterBuffer_length hf).trans hframes)

/-- The cascade's value is no NaN: a band whose output is one stops it (R240). -/
theorem cascade_value_noNaN {c : Channel} : ∀ {bs : List Band} {v w : F64} {hs hs' : Hists},
    cascade s c bs v hs = .ok (w, hs') → F64.isNaN v = false → F64.isNaN w = false
  | [], _, _, _, _, h, hv => by cases h; exact hv
  | b :: bs, v, w, hs, hs', h, hv => by
    rw [cascade] at h
    split_ifs at h with hflat hundef
    · exact cascade_value_noNaN h hv
    · dsimp only at h
      split_ifs at h with hy
      rw [Bool.not_eq_true] at hy
      exact cascade_value_noNaN h hy

theorem sampleAt_append {p : List Byte} (hp : p.length = 2) (q : List Byte) (j : Nat) :
    sampleAt (p ++ q) (j + 1) = sampleAt q j := by
  obtain ⟨x, y, rfl⟩ := List.length_eq_two.1 hp
  rfl

/-- Every sample of a filtered frame is a truncated, limited value. -/
theorem filterBuffer_range : ∀ {pin out : List Byte} {hs hs' : Hists}, filterBuffer s pin hs = .ok (out, hs') →
    ∀ j : Nat, 2 * j + 1 < pin.length - pin.length % 4 → -32767 ≤ sampleAt out j ∧ sampleAt out j ≤ 32767
  | [], _, _, _, _, j, hj | [_], _, _, _, _, j, hj | [_, _], _, _, _, _, j, hj | [_, _, _], _, _, _, _, j, hj => by
    simp at hj
  | a0 :: a1 :: b0 :: b1 :: rest, _, _, _, h, j, hj => by
    obtain ⟨o1, h1, o2, hframe, hrest, rfl⟩ := filterBuffer_cons_ok h
    obtain ⟨v, w, h0, hc0, hc1, rfl⟩ := filterFrame_ok hframe
    have hv := cascade_value_noNaN hc0 (sample_noNaN a0 a1)
    have hw := cascade_value_noNaN hc1 (sample_noNaN b0 b1)
    rw [List.append_assoc]
    match j with
    | 0 => rw [sampleAt_sampleOut hv]; exact trunc16_softClip_range hv
    | 1 =>
      rw [sampleAt_append (sampleOut_length v), sampleAt_sampleOut hw]
      exact trunc16_softClip_range hw
    | j + 2 =>
      rw [sampleAt_append (sampleOut_length v), sampleAt_append (sampleOut_length w)]
      refine filterBuffer_range hrest j ?_
      simp only [List.length_cons] at hj
      omega

/-- Settles O25: passed through, by the payload itself; filtered, by what becomes of the frames and the tail. -/
theorem processFrameAndRange : Obligations.ProcessFrameAndRange := by
  intro s t pin h
  obtain ⟨hpath, rfl⟩ | ⟨-, out, hs, hf, rfl⟩ := execEqProcess_next h
  · refine ⟨rfl, rfl, fun _ _ => rfl, rfl, fun hattached hactive => ?_⟩
    rw [hattached, s.eqActive_iff.2 hactive] at hpath
    cases hpath
  · exact ⟨rfl, filterBuffer_length hf, fun b hb => PerChannel.ext_get (filterBuffer_at_flat hf hb),
      filterBuffer_tail hf, fun _ _ => filterBuffer_range hf⟩

/-! ### A band that is flat again (R242) -/

section
variable {b : Band} {v : Int}

/-- EQ.SETGAIN to another gain than the one held makes the writes of a gain change (R184). -/
theorem exec_eqSetGain_changes (h : clampGain v ≠ (s.gain.get b).toInt) :
    exec (.eqSetGain b.index v) s = .next ((s.changeGain b (clampGain v)).answer 0 []) := by
  show execEqSetGain b.index v s = _
  rw [execEqSetGain, State.setGain_of_index, State.setBandGain, if_neg h]

/-- Buffers leave the gains (R58). -/
theorem execAll_eqProcess_gain (buffers : List (List Byte)) (h : execAll (buffers.map .eqProcess) s = .next t) :
    t.gain = s.gain := by
  refine execAll_keeps (P := fun u => u.gain = s.gain) (fun i hi u u' hu hexec => ?_) rfl h
  obtain ⟨pin, -, rfl⟩ := List.mem_map.1 hi
  exact (exec_same (e := .gain) rfl hexec).trans hu

theorem clampGain_ne_zero_of_flat (hflat : s.gain.get b = 0) (hv : clampGain v ≠ 0) :
    clampGain v ≠ (s.gain.get b).toInt := by
  rw [hflat]; exact hv

theorem changeGain_hist_at_same (s : State) (b : Band) (g : Int) (c : Channel) :
    (s.changeGain b g).hist.at b c = Hist.zero := by
  rw [changeGain_hist_at, if_pos rfl]

theorem changeGain_get_toInt (s : State) (b : Band) (v : Int) :
    ((s.changeGain b (clampGain v)).gain.get b).toInt = clampGain v := by
  rw [State.changeGain_gain, PerBand.get_set_same, gain_field_toInt (clampGain_range v)]

end

/-- Settles O31: the gain changes both times, and each change zeroes the band's histories; the buffers between leave the
gains. -/
theorem flatAgainStartsFromZero : Obligations.FlatAgainStartsFromZero := by
  intro s t t' u b v buffers hflat hv hset hrun hback
  rw [exec_eqSetGain_changes (clampGain_ne_zero_of_flat hflat hv)] at hset
  cases hset
  have hgain := execAll_eqProcess_gain buffers hrun
  rw [State.answer_gain] at hgain
  have hne : clampGain 0 ≠ (t'.gain.get b).toInt := by
    rw [hgain, changeGain_get_toInt]; exact hv.symm
  rw [exec_eqSetGain_changes hne] at hback
  cases hback
  have hagain : (t'.changeGain b (clampGain 0)).gain.get b = 0 := by
    rw [State.changeGain_gain, PerBand.get_set_same]; rfl
  refine ⟨hagain, changeGain_hist_at_same t' b (clampGain 0), fun hothers => exec_eqProcess_of_flat fun b' => ?_,
    fun v' hv' => ?_⟩
  · by_cases hb : b' = b
    · rw [hb]; exact hagain
    · rw [State.answer_gain, State.changeGain_gain, PerBand.get_set_other _ _ hb, hgain, State.changeGain_gain,
        PerBand.get_set_other _ _ hb]
      exact hothers b' hb
  · exact ⟨_, exec_eqSetGain_changes (clampGain_ne_zero_of_flat hagain hv'), changeGain_hist_at_same _ b (clampGain v')⟩

end Sys2Proof.Machine
end

-- Proofs: the default coefficient table (O19)
section
/-!
The rows of the default COEF_ROM (43_eq_coefficients.md R289): a stable row's poles in whole units of 2^-1074, the row
whose poles lie farthest out, and the rows of gain 0.
-/

namespace Sys2Proof.Machine

open Sys2Proof

/-! ### A stable row in whole units -/

section
variable {k : Coef}

theorem F64.num_eq_val_mul (x : F64) : (F64.num x : ℚ) = F64.val x * (F64.unitsPerOne : ℚ) := by
  rw [F64.val, F64.unitsPerOne_eq, Nat.cast_pow, Nat.cast_ofNat, div_mul_cancel₀ _ (by positivity)]

theorem F64.cast_unitsPerOne_pos : (0 : ℚ) < (F64.unitsPerOne : ℚ) := Nat.cast_pos.2 F64.unitsPerOne_pos

/-- The poles of a stable row are complex: the discriminant of z² + A1·z + A2 is negative. -/
theorem Coef.Stable.complex_poles (hk : k.Stable) :
    F64.num k.a1 * F64.num k.a1 < 4 * F64.num k.a2 * (F64.unitsPerOne : Int) := by
  obtain ⟨-, hpos, -, hmargin⟩ := hk
  have hU := F64.cast_unitsPerOne_pos
  have hdisc : F64.val k.a1 * F64.val k.a1 < 4 * F64.val k.a2 := by linarith
  have hscaled := mul_lt_mul_of_pos_right hdisc (mul_pos hU hU)
  rw [← Int.cast_lt (R := ℚ)]
  push_cast
  rw [F64.num_eq_val_mul, F64.num_eq_val_mul]
  linarith

/-- The poles of a stable row lie inside the unit circle: their product A2 is below 1. -/
theorem Coef.Stable.poles_inside (hk : k.Stable) : F64.num k.a2 < (F64.unitsPerOne : Int) := by
  obtain ⟨-, -, hmargin, -⟩ := hk
  have hU := F64.cast_unitsPerOne_pos
  have hlt : F64.val k.a2 < 1 := by linarith
  rw [← Int.cast_lt (R := ℚ), F64.num_eq_val_mul, Int.cast_natCast]
  exact mul_lt_of_lt_one_left hU hlt

end

/-! ### The rows of the table -/

/-- No row has a greater A2, the square of the pole radius, than band 0's at +12 dB. -/
theorem defaultRom_a2_le (b : Band) :
    ∀ k ∈ defaultRom.get b, F64.num k.a2 ≤ F64.num (coefRom Params.default .b0 12).a2 := by
  cases b <;> decide +kernel

/-- At gain 0 a row's numerator is its denominator, A0 = 1 included (R34). -/
theorem defaultRom_flat_identity (b : Band) :
    (coefRom Params.default b 0).b0 = F64.ofInt 1 ∧
      (coefRom Params.default b 0).b1 = (coefRom Params.default b 0).a1 ∧
      (coefRom Params.default b 0).b2 = (coefRom Params.default b 0).a2 := by
  cases b <;> decide +kernel

/-- Settles O19: the poles by the stability of every row, the farthest row and the rows of gain 0 by computation on the
table. -/
theorem coefficientTableIsStable : Obligations.CoefficientTableIsStable := by
  intro b g _ hg
  have hstable : (coefRom Params.default b g).Stable := coefRom_stable rfl b hg
  obtain ⟨-, -, -, -, -, hrom⟩ := Params.default_valid
  have hrow : coefRom Params.default b g ∈ defaultRom.get b := coefRom_mem hrom b hg
  refine ⟨hstable.complex_poles, defaultRom_a2_le b _ hrow, hstable.poles_inside, ?_⟩
  rintro rfl
  exact defaultRom_flat_identity b

end Sys2Proof.Machine
end

-- Proofs: the session (O42, O43, O45)
section
/-!
The session (44_fifo_session.md R300 to R306, 45_fifo_producer.md R330, R331, R333, R335). One equation for each
transaction that can change SESSION; from these the table of R302; and by the effects of each instruction, that nothing
but FIFO.START enters RUNNING, outside which the producer port is silent.
-/

namespace Sys2Proof.Machine

open Sys2Proof

variable {s t u : State} {i : Instr}

/-! ### What each session transaction writes (R300, R303, R306) -/

theorem exec_fifoStart_not_running (h : s.session ≠ .running) :
    exec .fifoStart s = .next (State.answer { s.clearFifo with session := .running } 0 []) := by
  show execFifoStart s = _
  rw [execFifoStart, if_neg h]

theorem exec_fifoStop_open (h : s.session = .running ∨ s.session = .eof) :
    exec .fifoStop s = .next (State.answer { s with session := .stopped } 0 []) := by
  show execFifoStop s = _
  rw [execFifoStop, if_pos h]

theorem exec_fifoReset_eq (s : State) :
    exec .fifoReset s = .next (State.answer
      { s.clearFifo with session := if s.session = .running then .running else .idle } 0 []) := by
  show execFifoReset s = _
  rw [execFifoReset]
  split_ifs with hrun
  · rw [← hrun]; rfl
  · rfl

/-! ### The end conditions (R330, R331, R333, R335) -/

/-- The instructions with a cause are the end conditions, in every session state: outside a running session
`endOfStream` writes nothing. -/
theorem exec_endOfStream (hi : causeOf i ≠ .none) (s : State) :
    exec i s = .next ((s.endOfStream (causeOf i)).answer 0 []) := by
  cases i with
  | srcRead pin =>
    cases pin with
    | nil =>
      show execSrcRead [] s = .next ((s.endOfStream .closure).answer 0 [])
      by_cases hrun : s.session = .running
      · rw [execSrcRead, if_neg (not_not.2 hrun), if_pos List.isEmpty_nil]
      · rw [execSrcRead, if_pos hrun, State.endOfStream_not_running hrun]
    | cons => exact absurd rfl hi
  | srcError | srcOpenFail => rfl
  | _ => exact absurd rfl hi

theorem exec_endOfStream_running (hi : causeOf i ≠ .none) (hrun : s.session = .running) :
    exec i s = .next (State.answer { s with session := .eof, eofFlag := true, eofCause := causeOf i } 0 []) := by
  rw [exec_endOfStream hi, State.endOfStream_running hrun]

/-- Outside a running session the producer port only answers (R330). -/
theorem exec_producer_not_running (hi : isProducerInstr i = true) (h : s.session ≠ .running) :
    exec i s = .next (s.answer 0 []) := by
  cases i with
  | srcRead pin =>
    show execSrcRead pin s = _
    rw [execSrcRead, if_pos h]
  | srcError => rw [exec_endOfStream (i := .srcError) nofun, State.endOfStream_not_running h]
  | srcOpenFail => rw [exec_endOfStream (i := .srcOpenFail) nofun, State.endOfStream_not_running h]
  | srcWouldBlock => rfl
  | _ => cases hi

/-- Settles O42: one equation for each transaction and end condition. -/
theorem sessionTransactionResults : Obligations.SessionTransactionResults := fun s =>
  ⟨exec_fifoStart_running, exec_fifoStart_not_running, exec_fifoStop_open, exec_fifoStop_ended, exec_fifoReset_eq s,
    fun hrun => ⟨exec_endOfStream_running (i := .srcRead []) nofun hrun,
      exec_endOfStream_running (i := .srcError) nofun hrun,
      exec_endOfStream_running (i := .srcOpenFail) nofun hrun⟩⟩

/-! ### The table (R302) -/

/-- The table leaves SESSION alone for every instruction that R58 does not list as a writer of it. -/
theorem sessionAfter_of_not_writtenBy (hi : Element.writtenBy .session i = false) (x : Session) :
    sessionAfter i x = x := by
  cases i with
  | fifoStart | fifoStop | fifoReset | srcRead | srcError | srcOpenFail => cases hi
  | _ => rfl

theorem sessionAfter_endOfStream (hi : causeOf i ≠ .none) (x : Session) :
    sessionAfter i x = if x = .running then .eof else x := by
  cases i with
  | srcRead pin =>
    cases pin with
    | nil => cases x <;> rfl
    | cons => exact absurd rfl hi
  | srcError | srcOpenFail => cases x <;> rfl
  | _ => exact absurd rfl hi

/-- In the table, what takes RUNNING to EOF has a cause. -/
theorem causeOf_of_ends_running (h : sessionAfter i .running = .eof) : causeOf i ≠ .none := by
  cases i with
  | srcRead pin =>
    cases pin with
    | nil => exact nofun
    | cons => cases h
  | srcError | srcOpenFail => exact nofun
  | _ => cases h

theorem State.endOfStream_session (s : State) (c : EofCause) :
    (s.endOfStream c).session = if s.session = .running then .eof else s.session := by
  unfold State.endOfStream
  split_ifs <;> rfl

theorem exec_fifoStart_session (h : exec .fifoStart s = .next t) : t.session = sessionAfter .fifoStart s.session := by
  cases hs : s.session with
  | running => rw [exec_fifoStart_running hs] at h; cases h; exact hs
  | idle | eof | stopped => rw [exec_fifoStart_not_running (by simp [hs])] at h; cases h; rfl

theorem exec_fifoStop_session (h : exec .fifoStop s = .next t) : t.session = sessionAfter .fifoStop s.session := by
  cases hs : s.session with
  | running | eof => rw [exec_fifoStop_open (by simp [hs])] at h; cases h; rfl
  | idle | stopped => rw [exec_fifoStop_ended (by simp [hs])] at h; cases h; exact hs

theorem exec_fifoReset_session (h : exec .fifoReset s = .next t) : t.session = sessionAfter .fifoReset s.session := by
  rw [exec_fifoReset_eq] at h
  cases h
  cases s.session <;> rfl

/-- SRC.READ of data leaves SESSION alone: the bytes are received, or outside a running session ignored. -/
theorem exec_srcRead_data_session {pin : List Byte} (hpin : causeOf (.srcRead pin) = .none)
    (h : exec (.srcRead pin) s = .next t) : t.session = sessionAfter (.srcRead pin) s.session := by
  cases pin with
  | nil => cases hpin
  | cons b rest =>
    by_cases hrun : s.session = .running
    · rw [exec_srcRead_data hrun (List.cons_ne_nil b rest)] at h; cases h; rfl
    · rw [exec_producer_not_running rfl hrun] at h; cases h; rfl

/-- SESSION goes where the table says, from every state. -/
theorem exec_session (h : exec i s = .next t) : t.session = sessionAfter i s.session := by
  by_cases hcause : causeOf i = .none
  · cases hw : Element.writtenBy .session i with
    | false => rw [sessionAfter_of_not_writtenBy hw]; exact exec_same hw h
    | true =>
      cases i with
      | fifoStart => exact exec_fifoStart_session h
      | fifoStop => exact exec_fifoStop_session h
      | fifoReset => exact exec_fifoReset_session h
      | srcRead pin => exact exec_srcRead_data_session hcause h
      | srcError | srcOpenFail => cases hcause
      | _ => cases hw
  · rw [exec_endOfStream hcause] at h
    rw [sessionAfter_endOfStream hcause]
    cases h
    exact s.endOfStream_session _

/-- Settles O43: the table instruction by instruction; what ends a running session is an end condition, which writes its
cause. -/
theorem sessionTransitionTable : Obligations.SessionTransitionTable := by
  refine fun i s t h => ⟨exec_session h, fun hrun heof => ?_⟩
  have hends : sessionAfter i .running = .eof := by rw [← hrun, ← exec_session h, heof]
  rw [exec_endOfStream_running (causeOf_of_ends_running hends) hrun] at h
  cases h
  exact ⟨rfl, rfl⟩

/-! ### Between FIFO.STOP and FIFO.START (R304) -/

/-- Only FIFO.START enters RUNNING. -/
theorem Effect.session_ne_running (h : Effect s i u) (hi : i ≠ .fifoStart) (hs : s.session ≠ .running) :
    u.session ≠ .running := by
  cases h with
  | start => exact absurd rfl hi
  | clear hrun | receive _ hrun => exact absurd hrun hs
  | stop | clearToIdle | endOfStream => exact nofun
  | gains _ hg => exact hg.keeps (P := fun u => u.session ≠ .running) hs fun _ _ _ _ h => h
  | _ => exact hs

theorem exec_keeps_not_running (hi : i ≠ .fifoStart) (hs : s.session ≠ .running) (h : exec i s = .next t) :
    t.session ≠ .running := by
  obtain ⟨u, r, p, hu, rfl⟩ := exec_answersFrom h
  exact hu.session_ne_running hi hs

theorem exec_fifoStop_not_running (h : exec .fifoStop s = .next t) : t.session ≠ .running := by
  rw [exec_session h]
  cases s.session <;> exact nofun

/-- Settles O45: FIFO.STOP leaves RUNNING, a run without FIFO.START does not enter it again, and outside it the producer
port is silent. -/
theorem stopSilencesTheProducer : Obligations.StopSilencesTheProducer := by
  intro s t u is i hstop hstart hrun hi
  have hu : u.session ≠ .running := execAll_keeps (P := fun s => s.session ≠ .running)
    (fun j hj _ _ => exec_keeps_not_running (ne_of_mem_of_not_mem hj hstart)) (exec_fifoStop_not_running hstop) hrun
  exact exec_producer_not_running hi hu

end Sys2Proof.Machine
end

-- Proofs: the producer port and the time base (O44, O48, O57, O58)
section
/-!
The producer port and the time base (45_fifo_producer.md R330, R332, R338, R339). Two reads one after the other are one
read of both; NOW moves by the ticks and by nothing else, so that the receiving window counts the ticks since the last
data.
-/

namespace Sys2Proof.Machine

open Sys2Proof

variable {s t u : State} {i : Instr}

/-- Settles O44: the equation of the producer port outside a running session. -/
theorem producerIgnoredOutsideRunning : Obligations.ProducerIgnoredOutsideRunning :=
  fun _ _ hi h => exec_producer_not_running hi h

/-! ### Two reads are one (R332) -/

theorem State.fifoWrite_free (hc : s.cfg.Valid) (hr : s.RingOk) (d : List Byte) :
    (s.fifoWrite d).free = s.free - min d.length s.free := by
  rw [State.free, State.fifoWrite_avail_toNat hc hr, State.fifoWrite_cfg, Nat.sub_add_eq]; rfl

/-- What fits of two payloads together is what fits of the first, then what fits of the second in the space left. -/
theorem take_append_min {α : Type*} (a b : List α) (n : Nat) :
    (a ++ b).take (min (a ++ b).length n) = a.take (min a.length n) ++ b.take (min b.length (n - min a.length n)) := by
  have htake (l : List α) (m : Nat) : l.take (min l.length m) = l.take m := by
    rw [Nat.min_comm, ← List.take_eq_take_min]
  have hleft : n - min a.length n = n - a.length := by omega
  rw [htake, htake, htake, List.take_append, hleft]

/-- FifoWrite of a and then of b stores what FifoWrite of both stores: the second starts at the WR_POS the first left,
and where the first filled the FIFO both drop all of b (R88). -/
theorem State.fifoWrite_append (hc : s.cfg.Valid) (hr : s.RingOk) (a b : List Byte) :
    (s.fifoWrite a).fifoWrite b = s.fifoWrite (a ++ b) := by
  have hfree := State.fifoWrite_free hc hr a
  have hlen : min (a ++ b).length s.free = min a.length s.free + min b.length (s.free - min a.length s.free) := by
    rw [List.length_append]; omega
  have hmem : ((s.fifoWrite a).fifoWrite b).fifoMem = (s.fifoWrite (a ++ b)).fifoMem := by
    rw [State.fifoWrite_fifoMem, State.fifoWrite_wrPos_toNat hc, State.fifoWrite_cfg, memWrite_mod, hfree,
      State.fifoWrite_fifoMem, State.fifoWrite_fifoMem, take_append_min, memWrite_append, List.length_take,
      Nat.min_eq_left (Nat.min_le_left _ _)]
  have hwr : ((s.fifoWrite a).fifoWrite b).wrPos = (s.fifoWrite (a ++ b)).wrPos := by
    rw [State.fifoWrite_wrPos, State.fifoWrite_wrPos_toNat hc, State.fifoWrite_cfg, hfree, Nat.mod_add_mod,
      State.fifoWrite_wrPos, hlen, Nat.add_assoc]
  have havail : ((s.fifoWrite a).fifoWrite b).avail = (s.fifoWrite (a ++ b)).avail := by
    rw [State.fifoWrite_avail, State.fifoWrite_avail_toNat hc hr, hfree, State.fifoWrite_avail, hlen, Nat.add_assoc]
  calc (s.fifoWrite a).fifoWrite b
      = { s with
          fifoMem := ((s.fifoWrite a).fifoWrite b).fifoMem
          wrPos := ((s.fifoWrite a).fifoWrite b).wrPos
          avail := ((s.fifoWrite a).fifoWrite b).avail } := rfl
    _ = s.fifoWrite (a ++ b) := by rw [hmem, hwr, havail]; rfl

/-- The bookkeeping of received data adds up: TOTAL_RX counts both payloads, LAST_DATA is NOW both times (R331). -/
theorem State.receive_append (hc : s.cfg.Valid) (hr : s.RingOk) (a b : List Byte) :
    (s.receive a).receive b = s.receive (a ++ b) := by
  have htotal : s.totalRx + BitVec.ofNat 64 a.length + BitVec.ofNat 64 b.length =
      s.totalRx + BitVec.ofNat 64 (a ++ b).length := by
    rw [List.length_append, BitVec.ofNat_add, BitVec.add_assoc]
  calc (s.receive a).receive b
      = { (s.fifoWrite a).fifoWrite b with
          totalRx := s.totalRx + BitVec.ofNat 64 a.length + BitVec.ofNat 64 b.length
          lastData := s.now
          rxSeen := true } := rfl
    _ = s.receive (a ++ b) := by rw [State.fifoWrite_append hc hr, htotal]; rfl

/-- Settles O48: in a running session the payloads are received one after the other, outside one both are ignored. -/
theorem splitReadIsOneRead : Obligations.SplitReadIsOneRead := by
  intro s t a b hc hr ha hb h
  by_cases hrun : s.session = .running
  · rw [exec_srcRead_data hrun ha] at h
    cases h
    calc exec (.srcRead b) ((s.receive a).answer 0 [])
        = .next (((s.receive a).receive b).answer 0 []) := exec_srcRead_data (s := (s.receive a).answer 0 []) hrun hb
      _ = exec (.srcRead (a ++ b)) s := by
        rw [State.receive_append hc hr, exec_srcRead_data hrun (List.append_ne_nil_of_left_ne_nil ha b)]
  · rw [exec_producer_not_running rfl hrun] at h
    cases h
    calc exec (.srcRead b) (s.answer 0 [])
        = .next (s.answer 0 []) := exec_producer_not_running (s := s.answer 0 []) rfl hrun
      _ = exec (.srcRead (a ++ b)) s := (exec_producer_not_running rfl hrun).symm

/-! ### NOW (R338) -/

theorem exec_timeTick (n : Nat) (s : State) : exec (.timeTick n) s = .next ((s.advance n).answer 0 []) := rfl

/-- Settles O57: TIME.TICK's only write is NOW's, in 64 bits. -/
theorem timeTickAdvancesNow : Obligations.TimeTickAdvancesNow := fun s n =>
  ⟨_, exec_timeTick n s, rfl, by
    rw [State.answer_now, State.advance_now, BitVec.toNat_add, BitVec.toNat_ofNat, Nat.add_mod_mod]⟩

theorem ticksOf_cons (i : Instr) (is : List Instr) : ticksOf (i :: is) = ticksOf [i] + ticksOf is := by
  cases i with
  | timeTick => rfl
  | _ => exact (Nat.zero_add _).symm

/-- Every transaction moves NOW by its ticks: R58 lists no writer of NOW but TIME.TICK. -/
theorem exec_now (h : exec i s = .next t) : t.now = s.now + BitVec.ofNat 64 (ticksOf [i]) := by
  cases i with
  | timeTick n => rw [exec_timeTick] at h; cases h; rfl
  | _ => exact (exec_same (e := .now) rfl h).trans (BitVec.add_zero _).symm

theorem execAll_now : ∀ {is : List Instr} {s u : State}, execAll is s = .next u →
    u.now = s.now + BitVec.ofNat 64 (ticksOf is)
  | [], _, _, h => by cases h; exact (BitVec.add_zero _).symm
  | i :: is, s, u, h => by
    obtain ⟨t, hi, his⟩ := execAll_cons_next h
    rw [execAll_now his, exec_now hi, ticksOf_cons i is, BitVec.ofNat_add, BitVec.add_assoc]

/-! ### The receiving window (R52, R339) -/

/-- What the window reads besides NOW is the same in both states. -/
structure SameWindow (s t : State) : Prop where
  rxSeen : t.rxSeen = s.rxSeen
  lastData : t.lastData = s.lastData
  cfg : t.cfg = s.cfg

theorem SameWindow.trans (h : SameWindow s t) (h' : SameWindow t u) : SameWindow s u :=
  ⟨h'.rxSeen.trans h.rxSeen, h'.lastData.trans h.lastData, h'.cfg.trans h.cfg⟩

/-- R58 lists SRC.READ for RX_SEEN and LAST_DATA, but the closure, an empty payload, is only an end condition. -/
theorem sameWindow_of_closure (h : exec (.srcRead []) s = .next t) : SameWindow s t := by
  rw [exec_endOfStream (i := .srcRead []) nofun] at h
  cases h
  exact ⟨s.endOfStream_rxSeen _, s.endOfStream_lastData _, s.endOfStream_cfg _⟩

theorem exec_sameWindow (hi : keepsWindow i = true) (h : exec i s = .next t) : SameWindow s t := by
  obtain ⟨hcfg, -⟩ := exec_sameEnv h
  cases i with
  | srcRead pin =>
    obtain rfl := List.isEmpty_iff.1 hi
    exact sameWindow_of_closure h
  | fifoStart | fifoReset => cases hi
  | _ => exact ⟨exec_same (e := .rxSeen) rfl h, exec_same (e := .lastData) rfl h, hcfg⟩

theorem execAll_sameWindow {is : List Instr} (his : is.all keepsWindow = true) (h : execAll is s = .next u) :
    SameWindow s u :=
  execAll_keeps (P := SameWindow s)
    (fun i hi _ _ hs hexec => hs.trans (exec_sameWindow (List.all_eq_true.1 his i hi) hexec)) ⟨rfl, rfl, rfl⟩ h

theorem exec_fifoRecv (s : State) : exec .fifoRecv s = .next (s.answer (Word.ofBool s.receiving) []) := rfl

/-- The window as a count of ticks, when fewer than 2^64 have passed since the data. -/
theorem State.receiving_of_ticks {n : Nat} (hrx : s.rxSeen = true) (hnow : s.now = s.lastData + BitVec.ofNat 64 n)
    (hn : n < 2 ^ 64) : s.receiving = decide (n < 3 * s.cfg.ticksPerSecond) := by
  have hpassed : (s.now - s.lastData).toNat = n := by
    rw [hnow, BitVec.add_comm, BitVec.add_sub_cancel, BitVec.toNat_ofNat, Nat.mod_eq_of_lt hn]
  rw [Bool.eq_iff_iff, State.receiving_iff, hpassed, decide_eq_true_eq, and_iff_right hrx]

/-- Settles O58: the data sets LAST_DATA to NOW, and the run leaves it while NOW moves by the ticks. -/
theorem receivingWindow : Obligations.ReceivingWindow := by
  constructor
  · intro s t u pin is hrun hpin ht his hu hticks
    rw [exec_srcRead_data hrun hpin] at ht
    cases ht
    obtain ⟨hrx, hlast, hcfg⟩ := execAll_sameWindow his hu
    have hnow : u.now = u.lastData + BitVec.ofNat 64 (ticksOf is) := by rw [execAll_now hu, hlast]; rfl
    have hrecv : u.receiving = decide (ticksOf is < 3 * s.cfg.ticksPerSecond) := by
      rw [State.receiving_of_ticks hrx hnow hticks, hcfg]; rfl
    rw [exec_fifoRecv, hrecv, Word.ofBool]
    simp only [decide_eq_true_eq]
    rfl
  · intro s hrx
    have hrecv : s.receiving = false := by rw [State.receiving, hrx]; rfl
    rw [exec_fifoRecv, hrecv]
    rfl

end Sys2Proof.Machine
end

-- Proofs: chunk extraction and the FIFO queries (O49, O50, O51, O53, O55, O56)
section
/-!
The FIFO's consumer (46_fifo_consumer.md). FIFO.EXTRACT through one equation for "no data" and one for a chunk (R360);
the container header field by field (R361); the drain of the FIFO by repeated extraction (R364); the queries (R365 to
R379).
-/

namespace Sys2Proof.Machine

open Sys2Proof

variable {s t : State} {i : Instr}

/-! ### FIFO.EXTRACT (R360, R362) -/

theorem exec_fifoExtract_noData (h : s.chunkBytes = 0) : exec .fifoExtract s = .next (s.answer 0 []) := by
  show execFifoExtract s = _
  rw [execFifoExtract, if_pos h]

theorem exec_fifoExtract_chunk (h : s.chunkBytes ≠ 0) :
    exec .fifoExtract s = .next ((s.fifoRead s.chunkBytes).2.answerChunk (s.fifoRead s.chunkBytes).1) := by
  show execFifoExtract s = _
  rw [execFifoExtract, if_neg h]

/-- The read is not short (R362). -/
theorem State.fifoRead_chunk_length (s : State) : (s.fifoRead s.chunkBytes).1.length = s.chunkBytes := by
  rw [State.fifoRead_data, memRead_length, Nat.min_eq_left s.chunkBytes_spec.2.1]

theorem State.fifoRead_rdPos_toNat (hc : s.cfg.Valid) (n : Nat) :
    (s.fifoRead n).2.rdPos.toNat = (s.rdPos.toNat + min n s.avail.toNat) % s.cfg.fifoCapacity := by
  obtain ⟨hpos, hlt⟩ := Params.capacity_bounds hc
  rw [State.fifoRead_rdPos, toNat_ofNat32 ((Nat.mod_lt _ hpos).trans hlt)]

/-- The header is written from the count delivered, which is the chunk's. -/
theorem exec_fifoExtract_chunk_answer (hc : s.cfg.Valid) (h : s.chunkBytes ≠ 0) :
    exec .fifoExtract s = .next ((s.fifoRead s.chunkBytes).2.answer (BitVec.ofNat 32 (44 + s.chunkBytes))
      (wavHeader s.chunkBytes ++ s.unread.take s.chunkBytes)) := by
  rw [exec_fifoExtract_chunk h, State.answerChunk, s.fifoRead_chunk_length, (State.fifoRead_unread hc _).1]
  rfl

/-- Settles O49: the two equations, with what FifoRead says of the chunk's bytes and of the cursor. -/
theorem extractTakesTheOldestFrames : Obligations.ExtractTakesTheOldestFrames := by
  rintro s k m rfl hm
  obtain rfl : m = s.chunkBytes := hm
  have hle : s.chunkBytes ≤ s.avail.toNat := s.chunkBytes_spec.2.1
  refine ⟨rfl, exec_fifoExtract_noData, fun hchunk hc => ⟨_, exec_fifoExtract_chunk_answer hc hchunk, rfl, rfl, ?_,
    (State.fifoRead_unread hc _).2, ?_, ?_⟩⟩
  · rw [List.length_take, State.unread_length, Nat.min_eq_left hle]
  · rw [State.answer_avail, State.fifoRead_avail_toNat, Nat.min_eq_left hle]
  · rw [State.answer_rdPos, State.fifoRead_rdPos_toNat hc, Nat.min_eq_left hle]

/-- Settles O50: the payload's length is the chunk's, which is whole frames within the maximum. -/
theorem extractedPayloadsAreWholeFrames : Obligations.ExtractedPayloadsAreWholeFrames := by
  intro s
  by_cases hchunk : s.chunkBytes = 0
  · exact ⟨_, exec_fifoExtract_noData hchunk, .inl ⟨rfl, rfl⟩⟩
  · obtain ⟨hframes, -, hmax⟩ := s.chunkBytes_spec
    refine ⟨_, exec_fifoExtract_chunk hchunk, .inr ⟨_, rfl, ?_⟩⟩
    rw [s.fifoRead_chunk_length]
    exact ⟨hframes, Nat.pos_of_ne_zero hchunk, hmax⟩

/-! ### The container header (R361) -/

/-- The n low bytes of a number, lowest first, give it back modulo 2^(8n). -/
theorem leNat_lowBytes (w n : Nat) :
    leNat ((List.range n).map fun j => BitVec.ofNat 8 (w >>> (8 * j))) = w % 2 ^ (8 * n) := by
  induction n generalizing w with
  | zero => simp [leNat, Nat.mod_one]
  | succ n ih =>
    have hshift (j : Nat) : w >>> (8 * (j + 1)) = (w / 2 ^ 8) >>> (8 * j) := by
      rw [← Nat.shiftRight_eq_div_pow, ← Nat.shiftRight_add, Nat.mul_succ, Nat.add_comm]
    have htail : ((List.range n).map Nat.succ).map (fun j => BitVec.ofNat 8 (w >>> (8 * j))) =
        (List.range n).map fun j => BitVec.ofNat 8 ((w / 2 ^ 8) >>> (8 * j)) := by
      rw [List.map_map]
      exact List.map_congr_left fun j _ => congrArg (BitVec.ofNat 8) (hshift j)
    rw [List.range_succ_eq_map, List.map_cons, htail, leNat, ih, BitVec.toNat_ofNat, Nat.mul_succ, Nat.add_comm (8 * n),
      pow_add, Nat.mod_mul]
    rfl

theorem leNat_bytesLe (v n : Nat) : leNat (bytesLe v n) = v % 2 ^ (8 * n) := by
  have hwrap : ((v : Int) % (2 ^ (8 * n) : Nat)).toNat = v % 2 ^ (8 * n) := by
    rw [← Int.natCast_mod, Int.toNat_natCast]
  rw [bytesLe, leNat_lowBytes, hwrap, Nat.mod_mod]

/-- The sizes of the rows of R361's table, in order. -/
def wavHeaderSizes : List Nat := [4, 4, 4, 4, 4, 2, 2, 4, 4, 2, 2, 4, 4]

/-- What stands in the rows of R361's table, in order. -/
def wavHeaderFields (k : Nat) : List (List Byte) :=
  [[0x52, 0x49, 0x46, 0x46], bytesLe (36 + k : Nat) 4, [0x57, 0x41, 0x56, 0x45], [0x66, 0x6D, 0x74, 0x20], bytesLe 16 4,
    bytesLe 1 2, bytesLe 2 2, bytesLe 44100 4, bytesLe 176400 4, bytesLe 4 2, bytesLe 16 2, [0x64, 0x61, 0x74, 0x61],
    bytesLe k 4]

theorem wavHeader_eq_flatten (k : Nat) : wavHeader k = (wavHeaderFields k).flatten := by
  simp only [wavHeader, wavHeaderFields, List.flatten_cons, List.flatten_nil, List.append_assoc, List.append_nil]
  rfl

theorem wavHeaderFields_map_length (k : Nat) : (wavHeaderFields k).map List.length = wavHeaderSizes := by
  simp [wavHeaderFields, wavHeaderSizes]

/-- A row stands at the sum of the sizes before it. -/
theorem wavHeader_field (k i : Nat) (hi : i < wavHeaderSizes.length) :
    ((wavHeader k).drop (wavHeaderSizes.take i).sum).take wavHeaderSizes[i] = (wavHeaderFields k)[i]'hi := by
  rw [List.take_drop, ← List.sum_take_succ _ i hi, ← wavHeaderFields_map_length k, wavHeader_eq_flatten]
  exact List.drop_take_succ_flatten_eq_getElem _ _ hi

/-- A number in a row reads back, as far as the row holds it. -/
theorem wavHeader_leField (k i v : Nat) (hi : i < wavHeaderSizes.length)
    (h : (wavHeaderFields k)[i]'hi = bytesLe v wavHeaderSizes[i]) :
    leField (wavHeader k) (wavHeaderSizes.take i).sum wavHeaderSizes[i] = v % 2 ^ (8 * wavHeaderSizes[i]) := by
  rw [leField, wavHeader_field k i hi, h, leNat_bytesLe]

/-- Settles O51: the header is its rows one after the other, each read at its offset. -/
theorem wavHeaderLayout : Obligations.WavHeaderLayout :=
  ⟨fun k => ⟨wavHeader_length k, wavHeader_field k 0 (by decide), wavHeader_leField k 1 (36 + k) (by decide) rfl,
    wavHeader_field k 2 (by decide), wavHeader_field k 3 (by decide), wavHeader_leField k 4 16 (by decide) rfl,
    wavHeader_leField k 5 1 (by decide) rfl, wavHeader_leField k 6 2 (by decide) rfl,
    wavHeader_leField k 7 44100 (by decide) rfl, wavHeader_leField k 8 176400 (by decide) rfl,
    wavHeader_leField k 9 4 (by decide) rfl, wavHeader_leField k 10 16 (by decide) rfl,
    wavHeader_field k 11 (by decide), wavHeader_leField k 12 k (by decide) rfl⟩, by decide⟩

/-! ### The drain after the end of the stream (R364) -/

theorem execTrace_cons {tr : Trace} {rest : List Instr} (hclear : clearsFifo i tr.state = false)
    (h : exec i tr.state = .next t) :
    execTrace (i :: rest) tr =
      execTrace rest ⟨t, tr.stored ++ storedBy i tr.state, tr.delivered ++ deliveredBy i t⟩ := by
  simp [execTrace, h, hclear]

theorem execTrace_cons_of_clears {tr : Trace} {rest : List Instr} (hclear : clearsFifo i tr.state = true)
    (h : exec i tr.state = .next t) : execTrace (i :: rest) tr = execTrace rest ⟨t, [], []⟩ := by
  simp [execTrace, h, hclear]

theorem execTrace_append : ∀ {is js : List Instr} {tr tr' : Trace}, execTrace is tr = some tr' →
    execTrace (is ++ js) tr = execTrace js tr'
  | [], _, _, _, h => by cases h; rfl
  | i :: is, js, tr, tr', h => by
    obtain ⟨t, hi, his⟩ := execTrace_cons_some h
    rw [← execTrace_append his, List.cons_append, execTrace, hi]
    split_ifs <;> rfl

/-- MAX_CHUNK_BYTES holds a frame, so that only a part of a frame is ever left behind. -/
theorem State.chunkBytes_eq_zero_iff (hc : s.cfg.Valid) : s.chunkBytes = 0 ↔ s.avail.toNat < 4 := by
  obtain ⟨-, -, hmax, -⟩ := hc
  simp only [State.chunkBytes, Config.frameBytes] at *
  omega

/-- The whole frames of the unread bytes are a chunk and then the whole frames of the rest. -/
theorem take_wholeFrames_of_chunk (l : List Byte) {m : Nat} (hframes : m % 4 = 0) (hle : m ≤ l.length) :
    l.take (l.length - l.length % 4) =
      l.take m ++ (l.drop m).take ((l.drop m).length - (l.drop m).length % 4) := by
  have hsum : l.length - l.length % 4 = m + ((l.drop m).length - (l.drop m).length % 4) := by
    rw [List.length_drop]; omega
  rw [hsum, List.take_add]

/-- From `tr` to `tr'` the unread whole frames are delivered, no chunk is left, and the cause is kept. -/
structure Trace.Drained (tr tr' : Trace) : Prop where
  delivered : tr'.delivered =
    tr.delivered ++ tr.state.unread.take (tr.state.avail.toNat - tr.state.avail.toNat % 4)
  noData : exec .fifoExtract tr'.state = .next (tr'.state.answer 0 [])
  eofCause : tr'.state.eofCause = tr.state.eofCause

/-- By induction on the bytes left: a chunk is at least a frame. -/
theorem execTrace_drains (tr : Trace) (hc : tr.state.cfg.Valid) :
    ∃ n tr', execTrace (List.replicate n .fifoExtract) tr = some tr' ∧ tr.Drained tr' := by
  induction hlen : tr.state.avail.toNat using Nat.strong_induction_on generalizing tr with
  | _ len ih =>
  subst hlen
  by_cases hchunk : tr.state.chunkBytes = 0
  · have hnone : tr.state.avail.toNat - tr.state.avail.toNat % 4 = 0 := by
      have := (State.chunkBytes_eq_zero_iff hc).1 hchunk
      omega
    exact ⟨0, tr, rfl, by rw [hnone, List.take_zero, List.append_nil], exec_fifoExtract_noData hchunk, rfl⟩
  · obtain ⟨hframes, hle, -⟩ := tr.state.chunkBytes_spec
    have hexec := exec_fifoExtract_chunk hchunk
    obtain ⟨hdelivered, hrest⟩ := execFifoExtract_unread hc hexec
    set t := (tr.state.fifoRead tr.state.chunkBytes).2.answerChunk (tr.state.fifoRead tr.state.chunkBytes).1
    have havail : t.avail.toNat = tr.state.avail.toNat - tr.state.chunkBytes := by
      rw [← State.unread_length, hrest, List.length_drop, State.unread_length]
    obtain ⟨n, tr', hrun, hdrained⟩ := ih t.avail.toNat (by omega)
      ⟨t, tr.stored ++ storedBy .fifoExtract tr.state, tr.delivered ++ deliveredBy .fifoExtract t⟩ hc rfl
    refine ⟨n + 1, tr', (execTrace_cons rfl hexec).trans hrun, ?_, hdrained.noData, hdrained.eofCause⟩
    rw [hdrained.delivered, hdelivered, List.append_assoc, ← State.unread_length tr.state,
      take_wholeFrames_of_chunk _ hframes (by rwa [State.unread_length]), ← hrest, State.unread_length]

/-- The reads of a running session: the unread bytes grow by what fits of all of them together (R331, R332). -/
theorem execTrace_reads : ∀ {reads : List (List Byte)} {tr : Trace}, (∀ r ∈ reads, r ≠ []) → tr.state.FifoOk →
    tr.state.session = .running → ∃ tr', execTrace (reads.map .srcRead) tr = some tr' ∧ tr'.state.FifoOk ∧
      tr'.state.session = .running ∧ tr'.delivered = tr.delivered ∧
      tr'.state.unread = tr.state.unread ++ reads.flatten.take tr.state.free
  | [], tr, _, hok, hrun => ⟨tr, rfl, hok, hrun, rfl, by simp⟩
  | r :: reads, tr, hreads, hok, hrun => by
    have hexec := exec_srcRead_data hrun (hreads r List.mem_cons_self)
    have hunread := execSrcRead_unread hok hexec
    rw [storedBy, if_pos hrun] at hunread
    have hfree : ((tr.state.receive r).answer 0 []).free = tr.state.free - min r.length tr.state.free :=
      State.fifoWrite_free hok.cfg hok.ring r
    obtain ⟨tr', htr', hok', hrun', hdelivered, hall⟩ := execTrace_reads
      (tr := ⟨(tr.state.receive r).answer 0 [], tr.stored ++ storedBy (.srcRead r) tr.state, tr.delivered ++ []⟩)
      (fun x hx => hreads x (List.mem_cons_of_mem r hx)) (exec_fifoOk hexec hok) hrun
    refine ⟨tr', (execTrace_cons rfl hexec).trans htr', hok', hrun', by rw [hdelivered, List.append_nil], ?_⟩
    have hleft : tr.state.free - min r.length tr.state.free = tr.state.free - r.length := by omega
    rw [hall, hunread, hfree, hleft, List.flatten_cons, List.take_append, List.append_assoc]

/-- A new session in which the producer delivers its reads and closes: nothing is delivered yet, and what fits the FIFO
is unread. -/
theorem execTrace_session {reads : List (List Byte)} (hs : s.FifoOk) (hstopped : s.session ≠ .running)
    (hreads : ∀ r ∈ reads, r ≠ []) :
    ∃ tr, execTrace ([.fifoStart] ++ reads.map .srcRead ++ [.srcRead []]) ⟨s, [], []⟩ = some tr ∧ tr.state.cfg.Valid ∧
      tr.state.eofCause = .closure ∧ tr.delivered = [] ∧ tr.state.unread = reads.flatten.take s.cfg.fifoCapacity := by
  have hclear : clearsFifo .fifoStart s = true := by simpa [clearsFifo] using hstopped
  have hstart := exec_fifoStart_not_running hstopped
  obtain ⟨tr, htr, hok, hrun, hdelivered, hunread⟩ := execTrace_reads hreads
    (tr := ⟨State.answer { s.clearFifo with session := .running } 0 [], [], []⟩) (exec_fifoOk hstart hs) rfl
  have hfirst : execTrace ([.fifoStart] ++ reads.map .srcRead) ⟨s, [], []⟩ = some tr :=
    (execTrace_cons_of_clears hclear hstart).trans htr
  refine ⟨_, (execTrace_append hfirst).trans (execTrace_cons rfl (exec_endOfStream_running nofun hrun)), hok.cfg, rfl,
    by simp [deliveredBy, hdelivered], ?_⟩
  rw [exec_unread_of_clearsFifo hclear hstart, List.nil_append, State.free_of_empty rfl] at hunread
  exact hunread

/-- Settles O53: the drain from any state, and the drain after the session's end. -/
theorem drainAfterEndOfStream : Obligations.DrainAfterEndOfStream := by
  constructor
  · intro s hc _ _
    obtain ⟨n, tr, hrun, hdrained⟩ := execTrace_drains ⟨s, [], []⟩ hc
    exact ⟨n, tr, hrun, hdrained.delivered, hdrained.noData⟩
  · rintro s reads _ hc hr hm hstopped hreads rfl
    obtain ⟨tr, hsession, hcfg, hcause, hnone, hkept⟩ := execTrace_session ⟨hc, hr, hm⟩ hstopped hreads
    obtain ⟨n, tr', hrun, hdrained⟩ := execTrace_drains tr hcfg
    have hdelivered := hdrained.delivered
    rw [hnone, ← State.unread_length, hkept, List.nil_append] at hdelivered
    exact ⟨n, tr', (execTrace_append hsession).trans hrun, hdrained.eofCause.trans hcause, hdelivered, hdrained.noData⟩

/-! ### The queries (R365 to R379) -/

theorem exec_fifoReady (s : State) : exec .fifoReady s = .next (s.answer (Word.ofBool s.ready) []) := rfl

theorem exec_fifoState (s : State) : exec .fifoState s = .next (s.answer s.stateWord []) := rfl

/-- The two codes lie in different bits of the word, so that their sum is the word. -/
theorem State.stateWord_eq_add (s : State) :
    s.stateWord = s.session.code.setWidth 32 + (s.eofCause.code.setWidth 32 <<< 4) := by
  have hdisjoint (x : BitVec 2) (y : BitVec 3) : x.setWidth 32 &&& (y.setWidth 32 <<< 4) = 0#32 := by
    revert x y; decide
  rw [State.stateWord, BitVec.add_eq_or_of_and_eq_zero _ _ (hdisjoint _ _)]

theorem extractLsb'_low_half (x : BitVec 64) : x.extractLsb' 0 32 = BitVec.ofNat 32 (x.toNat % 2 ^ 32) :=
  BitVec.eq_of_toNat_eq (by simp)

theorem extractLsb'_high_half (x : BitVec 64) : x.extractLsb' 32 32 = BitVec.ofNat 32 (x.toNat / 2 ^ 32) :=
  BitVec.eq_of_toNat_eq (by simp [Nat.shiftRight_eq_div_pow])

theorem Word.ofBool_receiving (s : State) : Word.ofBool s.receiving =
    if s.rxSeen = true ∧ (s.now - s.lastData).toNat < 3 * s.cfg.ticksPerSecond then 1 else 0 := by
  simp only [Word.ofBool, s.receiving_iff]

/-- Settles O55: each query answers its word from the unchanged state. -/
theorem fifoQueryResults : Obligations.FifoQueryResults := by
  refine fun s => ⟨fun hready => ?_, fun hbelow => ?_, rfl, ?_, rfl, ?_, ?_, ?_, rfl⟩
  · rw [exec_fifoReady, s.ready_iff.2 hready]; rfl
  · have hnot : s.ready = false := by rw [← Bool.not_eq_true, s.ready_iff]; omega
    rw [exec_fifoReady, hnot]; rfl
  · rw [exec_fifoRecv, Word.ofBool_receiving]; rfl
  · rw [← extractLsb'_low_half]; rfl
  · rw [← extractLsb'_high_half]; rfl
  · rw [exec_fifoState, s.stateWord_eq_add]
    refine congrArg (fun w => Host.Outcome.next (s.answer w [])) (congrArg₂ (· + ·) ?_ ?_)
    · cases s.session <;> rfl
    · cases s.eofCause <;> rfl

/-! ### The answers of FIFO.STATE (R377) -/

/-- Settles O56: a session that has not ended has no cause, one at its end of stream has one, a stopped one may. -/
theorem fifoStateAnswers : Obligations.FifoStateAnswers := by
  rintro s ⟨hflag, heof, hopen⟩
  have hnone : s.session = .idle ∨ s.session = .running → s.eofCause = .none := fun h => by
    simpa [hopen h] using hflag
  have hcaused : s.session = .eof → s.eofCause ≠ .none := fun h => hflag.1 (heof h)
  refine ⟨_, exec_fifoState s, ?_⟩
  rw [State.answer_res, State.stateWord]
  cases hs : s.session with
  | idle => rw [hnone (.inl hs)]; decide
  | running => rw [hnone (.inr hs)]; decide
  | eof =>
    cases hcause : s.eofCause with
    | none => exact absurd hcause (hcaused hs)
    | closure | readError | openFailure => decide
  | stopped => cases s.eofCause <;> decide

end Sys2Proof.Machine
end

-- Proofs: the exception and its neighbours (O9, O13, O46)
section
/-!
The block's one exception and its neighbours (60_exceptions.md). CMD_ERR is written by an illegal transaction and by
CLRERR only (R401); outside a running session the cause of the end of stream stays until the FIFO is cleared (R407,
R411); and no part of a step reads who issued the transaction (R415, R420).
-/

namespace Sys2Proof.Machine

open Sys2Proof

variable {s t : State} {i : Instr}

/-! ### CMD_ERR (R401) -/

/-- CLRERR is the only instruction that R58 lists for CMD_ERR. -/
theorem not_writtenBy_cmdErr (hi : i ≠ .clrErr) : Element.writtenBy .cmdErr i = false := by
  simpa [Element.writtenBy] using hi

/-- Settles O13: an illegal transaction raises CmdError, and of the instructions CLRERR alone writes CMD_ERR. -/
theorem cmdErrIsSticky : Obligations.CmdErrIsSticky :=
  ⟨fun _ _ _ _ => step_illegal, fun _ _ _ hi => exec_same (not_writtenBy_cmdErr hi),
    fun s => ⟨s.clearCmdErr.answer 0 [], exec_clrErr s, rfl⟩, State.reset_cmdErr⟩

/-! ### The first cause (R407, R411) -/

/-- The writers of EOF_FLAG and EOF_CAUSE are the two clears and the producer port. -/
theorem writer_of_eofFlagCause (h : Element.writtenBy .eofFlagCause i = true) :
    i = .fifoStart ∨ i = .fifoReset ∨ isProducerInstr i = true := by
  cases i with
  | fifoStart => exact .inl rfl
  | fifoReset => exact .inr (.inl rfl)
  | srcRead | srcError | srcOpenFail => exact .inr (.inr rfl)
  | _ => cases h

/-- Outside a running session only the two clears write EOF_FLAG and EOF_CAUSE: there the producer port is silent. -/
theorem exec_keeps_eofFlagCause (hstart : i ≠ .fifoStart) (hreset : i ≠ .fifoReset) (hs : s.session ≠ .running)
    (h : exec i s = .next t) : Element.eofFlagCause.Same s t := by
  cases hw : Element.writtenBy .eofFlagCause i with
  | false => exact exec_same hw h
  | true =>
    obtain rfl | rfl | hi := writer_of_eofFlagCause hw
    · exact absurd rfl hstart
    · exact absurd rfl hreset
    · rw [exec_producer_not_running hi hs] at h
      cases h
      exact ⟨rfl, rfl⟩

/-- `t` is outside a running session, with the flag and the cause of `s`. -/
def State.EndedAs (s t : State) : Prop := t.session ≠ .running ∧ Element.eofFlagCause.Same s t

theorem State.EndedAs.exec {u : State} (hs : s.EndedAs t) (hstart : i ≠ .fifoStart) (hreset : i ≠ .fifoReset)
    (h : exec i t = .next u) : s.EndedAs u := by
  obtain ⟨hended, hflag, hcause⟩ := hs
  obtain ⟨hflag', hcause'⟩ := exec_keeps_eofFlagCause hstart hreset hended h
  exact ⟨exec_keeps_not_running hstart hended h, hflag'.trans hflag, hcause'.trans hcause⟩

/-- Settles O46: each instruction of the run stays outside a running session and keeps the flag and the cause. -/
theorem firstCauseWins : Obligations.FirstCauseWins := by
  intro s t is hs hstart hreset hrun
  have hended : s.EndedAs t := execAll_keeps (P := s.EndedAs)
    (fun i hi _ _ hkept => hkept.exec (ne_of_mem_of_not_mem hi hstart) (ne_of_mem_of_not_mem hi hreset))
    ⟨hs, Element.Same.refl _ s⟩ hrun
  exact hended.2

/-! ### The issuer (R415, R420) -/

/-- Of the transaction it takes, a step reads what it decodes to and nothing else. -/
theorem step_eq_of_decode_eq {tr tr' : Transaction} (h : decode tr' = decode tr) (s : State) (rest : List Transaction) :
    step { s with pending := tr' :: rest } = step { s with pending := tr :: rest } := by
  simp only [step, State.takeTransaction, h]

theorem step_issuer (s : State) (tr : Transaction) (a : Agent) (rest : List Transaction) :
    step { s with pending := { tr with issuer := a } :: rest } = step { s with pending := tr :: rest } :=
  step_eq_of_decode_eq (decode_issuer a tr.issuer tr.cmd tr.pin) s rest

/-- Settles O9: the decoder, all that reads the transaction, does not read its issuer; with nothing pending none is
taken. -/
theorem issuerAndIdleChangeNothing : Obligations.IssuerAndIdleChangeNothing := ⟨step_issuer, fun _ => step_idle⟩

end Sys2Proof.Machine
end

-- Proofs: the state after reset (O34, O59, O60)
section
/-!
The state after reset (70_reset_and_hazards.md R441, R442), with any valid parameters: the flags and words derived of
it, and what the queries answer there.
-/

namespace Sys2Proof.Machine

open Sys2Proof

/-- Settles O34: the default parameters are valid ones. -/
theorem invariantHoldsAtReset : Obligations.InvariantHoldsAtReset :=
  ⟨reset_inv Params.default_valid, fun _ => reset_inv⟩

/-! ### The derived elements (R39, R52, R53, R56) -/

section
variable {p : Params}

theorem reset_flat (p : Params) (b : Band) : ({ State.reset with cfg := p } : State).gain.get b = 0 :=
  PerBand.get_all 0 b

theorem reset_eqActive (p : Params) : State.eqActive { State.reset with cfg := p } = false :=
  (State.eqActive_eq_false_iff _).2 (reset_flat p)

/-- No data was seen, whatever the window. -/
theorem reset_receiving (p : Params) : State.receiving { State.reset with cfg := p } = false := rfl

/-- The empty FIFO is below PREBUFFER_BYTES, which is above 0. -/
theorem reset_ready (hp : p.Valid) : State.ready { State.reset with cfg := p } = false := by
  obtain ⟨-, -, -, -, hprebuffer, -⟩ := hp
  rw [← Bool.not_eq_true, State.ready_iff]
  exact Nat.not_le.2 hprebuffer

/-- Every flag and code of the status word is 0. -/
theorem reset_statusWord (hp : p.Valid) : State.statusWord { State.reset with cfg := p } = 0 := by
  rw [State.statusWord, reset_eqActive, reset_receiving, reset_ready hp]
  simp [Word.ofBool, Session.code, EofCause.code]

/-- SESSION is IDLE and EOF_CAUSE is none: both codes are 0. -/
theorem reset_stateWord (p : Params) : State.stateWord { State.reset with cfg := p } = 0 := by
  simp [State.stateWord, Session.code, EofCause.code]

end

/-- Settles O59: the stored elements as reset writes them, the derived ones from these. -/
theorem resetValues : Obligations.ResetValues := by
  have hvalid := Params.default_valid
  have hband (b : Band) : State.reset.gain.get b = 0 ∧ State.reset.coef.get b = ⟨F64.ofInt 1, 0, 0, 0, 0⟩ ∧
      (∀ c : Channel, State.reset.hist.at b c = ⟨0, 0, 0, 0⟩) ∧ State.reset.undef.get b = false :=
    ⟨PerBand.get_all _ b, (PerBand.get_all _ b).trans passthrough_eq, Hists.at_zero b, PerBand.get_all _ b⟩
  exact ⟨hband, rfl, reset_eqActive _, rfl, rfl, rfl, rfl, rfl, rfl, rfl, rfl, rfl, reset_receiving _,
    reset_ready hvalid, rfl, rfl, reset_statusWord hvalid⟩

/-! ### The answers after reset (R442) -/

theorem exec_getStatus (s : State) : exec .getStatus s = .next (s.answer s.statusWord []) := rfl

/-- EQ.GETGAIN answers 0 for a flat band and for an index that names none (R124). -/
theorem exec_eqGetGain_of_flat {s : State} (h : ∀ b : Band, s.gain.get b = 0) (n : Nat) :
    exec (.eqGetGain n) s = .next (s.answer 0 []) := by
  cases hb : Band.ofIndex n with
  | none => exact (exec_bandQuery_out_of_range (Band.ofIndex_eq_none.1 hb) s).1
  | some b =>
    obtain rfl := Band.ofIndex_eq_some.1 hb
    rw [(exec_bandQuery_index s b).1, State.gainWord, h b]
    rfl

theorem exec_eqActive_of_flat {s : State} (h : ∀ b : Band, s.gain.get b = 0) :
    exec .eqActive s = .next (s.answer 0 []) := by
  rw [exec_eqActive, s.eqActive_eq_false_iff.2 h]
  rfl

/-- Below PREBUFFER_BYTES, FIFO.READY answers 0. -/
theorem exec_fifoReady_of_not_ready {s : State} (h : s.ready = false) : exec .fifoReady s = .next (s.answer 0 []) := by
  rw [exec_fifoReady, h]
  rfl

/-- Both halves of a TOTAL_RX of 0 are 0. -/
theorem exec_fifoTotal_of_zero {s : State} (h : s.totalRx = 0) :
    exec .fifoTotalLo s = .next (s.answer 0 []) ∧ exec .fifoTotalHi s = .next (s.answer 0 []) := by
  show execFifoTotalLo s = _ ∧ execFifoTotalHi s = _
  simp [execFifoTotalLo, execFifoTotalHi, h]

/-- An empty FIFO has no data to extract. -/
theorem exec_fifoExtract_of_empty {s : State} (hc : s.cfg.Valid) (h : s.avail = 0) :
    exec .fifoExtract s = .next (s.answer 0 []) :=
  exec_fifoExtract_noData ((State.chunkBytes_eq_zero_iff hc).2 (by simp [h]))

/-- Settles O60: each query answers its word, a stored element or a derived one, at its reset value; the bands are flat
and the FIFO is empty. -/
theorem queriesAfterReset : Obligations.QueriesAfterReset := by
  rintro p s hp rfl
  have hflat := reset_flat p
  obtain ⟨htotalLo, htotalHi⟩ := exec_fifoTotal_of_zero (s := { State.reset with cfg := p }) rfl
  refine ⟨?_, exec_eqGetGain_of_flat hflat, exec_eqActive_of_flat hflat, rfl,
    exec_fifoReady_of_not_ready (reset_ready hp), rfl, rfl, rfl, htotalLo, htotalHi, ?_, rfl,
    exec_eqProcess_of_flat hflat, exec_fifoExtract_of_empty hp rfl⟩
  · rw [exec_getStatus, reset_statusWord hp]; rfl
  · rw [exec_fifoState, reset_stateWord]; rfl

end Sys2Proof.Machine
end
